-- ==== Sys2Proof/Word.lean ====
section
/-! DEFINITION. The word types of the block and the two divisions the spec writes as `ceil` and `floor` (00_scope R14).
Nothing here is architecture beyond widths: 8-bit raw ternary values (R10), 32-bit control registers and stored packed
words (R23, R50), 32-bit float patterns (R8), 2-bit codes (R80). -/

namespace Sys2Proof

/-- A 32-bit control register, command word or stored `WBUF` element (10_state R23, 20_memory R50 with `WMAX = 32`). -/
abbrev Word := BitVec 32

/-- A raw ternary value as `TBUF` holds it: 8-bit two's complement (00_scope R10). -/
abbrev Byte := BitVec 8

/-- A 32-bit float, carried as its pattern (00_scope R8, R16). -/
abbrev F32 := BitVec 32

/-- A 2-bit ternary code (30_encoding R80). -/
abbrev Code := BitVec 2

/-- `ceil(x / y)` on non-negative integers, for `y > 0` (00_scope R14). -/
def divCeil (x y : Nat) : Nat := (x + y - 1) / y

end Sys2Proof
end

