-- ==== Sys2Proof/Syntax.lean ====
section
/-! DEFINITION. The commands of the block, one constructor per row of spec/opcode_table.json (30_encoding R89).
A command carries no operand: every operand is in a control register or a buffer (R88). -/

namespace Sys2Proof

/-- The six host commands (30_encoding R89). -/
inductive Instr where
  /-- `NOP`, command word `0x00000000` (44_host_commands R215). -/
  | nop
  /-- `PACK`, command word `0x00000001` (40_codec R120). -/
  | pack
  /-- `UNPACK`, command word `0x00000002` (40_codec R121). -/
  | unpack
  /-- `PACKM`, command word `0x00000003` (40_codec R122). -/
  | packm
  /-- `RUNMV`, command word `0x00000004` (43_parallel_kernel R170). -/
  | runmv
  /-- `CLRST`, command word `0x00000005` (44_host_commands R216). -/
  | clrst
deriving DecidableEq, Repr

end Sys2Proof
end

