-- ==== Sys2Proof/WellFormed.lean ====
section
/-! DEFINITION. What makes a command and a command word well formed. A command of `Instr` has no operand field, so every
term of `Instr` is well formed (30_encoding R88); the two checks the spec makes are on the 32-bit word (R89, R90). -/

namespace Sys2Proof

/-- Bits 31:4 of a command word are zero (30_encoding R88, field `ZERO`). -/
def zeroFieldOk (w : Word) : Bool := w.toNat / 16 = 0

/-- Bits 3:0 of a command word select one of the six operations (30_encoding R89, field `OP`). -/
def opFieldOk (w : Word) : Bool := w.toNat % 16 ≤ 5

/-- The command word is legal (30_encoding R90). -/
def commandWordOk (w : Word) : Bool := zeroFieldOk w && opFieldOk w

/-- Every command is well formed: it has no operand that could be out of range (30_encoding R88). -/
def Instr.wellFormed : Instr → Bool
  | .nop => true
  | .pack => true
  | .unpack => true
  | .packm => true
  | .runmv => true
  | .clrst => true

end Sys2Proof
end

