-- ==== Sys2Proof/Decode.lean ====
section
/-! DEFINITION. The decoder of command words (30_encoding R89), total on all 2^32 words and refusing by name, and the encoder
written from the same table. A command is one 32-bit word of one format (R88, R91). -/

namespace Sys2Proof

/-- Why a command word is illegal (30_encoding R90). -/
inductive DecodeError where
  /-- A bit of field `ZERO` (31:4) is set. -/
  | zeroFieldSet
  /-- Field `OP` is one of the reserved values 6 to 15. -/
  | reservedOp
deriving DecidableEq, Repr

/-- Field `OP`, bits 3:0 (30_encoding R88). -/
def opField (w : Word) : BitVec 4 := w.extractLsb' 0 4

/-- Field `ZERO`, bits 31:4 (30_encoding R88). -/
def zeroField (w : Word) : BitVec 28 := w.extractLsb' 4 28

/-- The operation that `OP` selects (30_encoding R89). -/
def opInstr (op : BitVec 4) : Option Instr :=
  match op.toNat with
  | 0 => some .nop
  | 1 => some .pack
  | 2 => some .unpack
  | 3 => some .packm
  | 4 => some .runmv
  | 5 => some .clrst
  | _ => none

/-- The decoder of 30_encoding R89: illegal if `cmd[31:4]` is not zero, else the row that `cmd[3:0]` selects. -/
def decode (w : Word) : Except DecodeError Instr :=
  if zeroField w = 0 then
    match opInstr (opField w) with
    | some i => .ok i
    | none => .error .reservedOp
  else .error .zeroFieldSet

/-- The `OP` value of a command (30_encoding R89). -/
def opCode : Instr → BitVec 4
  | .nop => 0
  | .pack => 1
  | .unpack => 2
  | .packm => 3
  | .runmv => 4
  | .clrst => 5

/-- The command word of a command: `ZERO` in bits 31:4, `OP` in bits 3:0 (30_encoding R88, R89). -/
def encode (i : Instr) : Word := (0 : BitVec 28) ++ opCode i

/-- The command that the decoder reads from the word `w`, bit 0 the least significant; a command has one word, so bits above
32 belong to nothing and no command has them. -/
def decodeTableWord (nbits w : Nat) : Option Instr :=
  let v := w % 2 ^ nbits
  if v < 2 ^ 32 then
    match decode (BitVec.ofNat 32 v) with
    | .ok i => some i
    | .error _ => none
  else none

end Sys2Proof
end

