-- ==== Sys2Proof/Config.lean ====
section
/-! DEFINITION. What an instance of the block fixes (the OPEN parameters of 92_eei_decisions, one record `Params` that the
state carries unchanged, log 6) and the free values (opaque constants without a body, so that nothing can be proved of their
values). -/

namespace Sys2Proof

/-- The widest packed word, fixed at 32 (00_scope R5, D2). -/
def WMAX : Nat := 32

/-- The order of bytes where a word crosses a byte-stream boundary outside the block (20_memory R55, D19). -/
inductive ByteOrder where
  | little
  | big
deriving DecidableEq, Repr, Inhabited

/-- Which `fadd` the instance has (00_scope R8, D3): the default, IEEE 754 binary32 addition, or some other total function. -/
inductive Adder where
  | ieee
  | custom
deriving DecidableEq, Repr, Inhabited

/-- The OPEN parameters of an instance (00_scope R9, R11; 10_state R37). Illegal shapes (93 U12) cannot be written:
the lane count is a power of two and a tile is a positive number of whole words. -/
structure Params where
  /-- `L = 2 ^ laneLog` lanes per workgroup (D6). -/
  laneLog : Nat
  /-- Entry `W`: how many packed words a tile holds beyond its first one, in a dispatch of width `W` (0 past the end) (D7). -/
  extraTileWords : List Nat
  /-- Capacity of `TBUF` in elements (D26). -/
  tcap : Nat
  /-- Capacity of `WBUF` in elements (D26). -/
  wcap : Nat
  /-- Capacity of `XBUF` in elements (D26). -/
  xcap : Nat
  /-- Capacity of `YBUF` in elements (D26). -/
  ycap : Nat
  /-- `BYTE_ORDER` (D19). -/
  byteOrder : ByteOrder
  /-- Which `fadd` (D3). -/
  adder : Adder
deriving DecidableEq, Repr, Inhabited

/-- The instance's shape and capacities, OPEN in the spec (log 6). -/
opaque Config.params : Params

/-- The `device_fail` draw of a dispatch, by draw number (43_parallel_kernel R187; log 4). -/
opaque Config.deviceFail : Nat → Bool

/-- The free bits of a NaN that the default `fadd` makes, by draw number (93 U3; log 5). -/
opaque Config.nanBits : Nat → F32

/-- The `fadd` of an instance whose adder is not the default: a total function of its operands alone (00_scope R8; log 5). -/
opaque Config.customFadd : F32 → F32 → F32

/-- Which enabled move is taken next, by draw number (10_state R20; log 2). -/
opaque Config.schedule : Nat → Nat

/-- The `EINFO` word of an `InvalidValue` whose index does not fit 32 bits (10_state R31, 00_scope R12; log 10). -/
opaque Config.wideIndex : Nat → Word

/-- The harness comparison of two outputs of which one is infinite and none a NaN (42_reference_kernel R164; log 19). -/
opaque Config.harnessOnInfinity : F32 → F32 → Bool

end Sys2Proof
end

