-- ==== Sys2Proof/Machine/State.lean ====
section
/-! DEFINITION. The state of the block: the eight control registers, the four buffers, the dispatch in progress with its
workgroups and lanes (10_state), and the model's own fields that stand for the host, the schedule and the draws; the reasons a
step can stop; the state after reset (10_state R38). -/

namespace Sys2Proof.Machine

/-- A memory of `w`-bit elements: (index, element) pairs, indices strictly rising, listing exactly the elements that hold a
value (20_memory R50, 10_state R39; log 8). `Memory 8` is a list of `Host.Cell`. -/
abbrev Memory (w : Nat) := List (Nat × BitVec w)

/-- The four host-visible buffers (10_state R35). -/
inductive Buf where
  | tbuf
  | wbuf
  | xbuf
  | ybuf
deriving DecidableEq, Repr

/-- A place an element can be read from: a buffer, a workgroup's shared memories, or the accumulators of a workgroup
(20_memory R50, 10_state R33). -/
inductive Space where
  | buffer (b : Buf)
  | shmX (g : Nat)
  | shmR (g : Nat)
  | acc (g : Nat)
deriving DecidableEq, Repr

/-- Why the machine stops. The block's own errors (60_exceptions R240) are not here: they are taken as next states. -/
inductive Fault where
  /-- A read of an element that holds no value (10_state R39, 93 U4). Raised by PACK, UNPACK, PACKM, the lane micro-steps and
  the host's LD. Safe: the spec says the model must fault. -/
  | noValue (sp : Space) (i : Nat)
  /-- A host LD at or beyond the buffer's capacity (44_host_commands R213, 93 U13). Raised by LD. Safe: the spec says fault. -/
  | beyondCapacity (b : Buf) (i : Nat)
  /-- A host move that the interface does not offer: a register write, buffer access or command while BUSY = 1
  (44_host_commands R219, 60_exceptions R257, 93 U5; log 11). Raised by the host's taking of its next transaction, and by LD and
  ST themselves. Safe: the machine stops where the hardware goes on. -/
  | hostMoveWhileBusy
deriving DecidableEq, Repr

/-- Why the model gives no meaning. -/
inductive Refusal where
  /-- No meaning yet for the command with this mnemonic. Raised by a refused arm of exec only (there is none). Safe. -/
  | notModelled (mnemonic : String)
deriving DecidableEq, Repr

/-- A lane's position in the fixed lane sequence (10_state R22). -/
inductive Pos where
  | init
  | load (t i : Nat)
  | barLoad (t : Nat)
  | acc (t jw k : Nat)
  | barAcc (t : Nat)
  | publish
  | barPub
  | red (s : Nat)
  | barRed (s : Nat)
  | write
  | exit
deriving DecidableEq, Repr

/-- A lane: its position and its accumulator, which holds no value before INIT (10_state R33; log 9). -/
structure Lane where
  pos : Pos
  acc : Option F32
deriving DecidableEq, Repr

/-- A workgroup (10_state R34). -/
structure Workgroup where
  /-- The `L` lanes, in lane order. -/
  lanes : List Lane
  /-- `SHM_X[g]`, the input tile. -/
  shmX : Memory 32
  /-- `SHM_R[g]`, the reduction scratch. -/
  shmR : Memory 32
  /-- `arrived[g]`, the lanes waiting at the barrier, in rising order. -/
  arrived : List Nat
  /-- `gen[g]`, how many times the barrier has released. -/
  gen : Nat
deriving DecidableEq, Repr

/-- A dispatch in progress: the latched dimensions (10_state R37) and the workgroups, number `g` computing row `g`
(43_parallel_kernel R171). -/
structure EngineRun where
  rows : Nat
  cols : Nat
  width : Nat
  groups : List Workgroup
deriving DecidableEq, Repr

/-- STATUS without its reserved bits, which read 0 (10_state R30); its 32-bit word is `Status.toWord` (Flags.lean). -/
structure Status where
  busy : Bool
  done : Bool
  err : Bool
  ecode : BitVec 4
deriving DecidableEq, Repr

/-- One coming move of the host or the environment (44_host_commands R210; 30_encoding R92, R93; 70 R270). -/
inductive Input where
  /-- `WRCR`: register-port write. -/
  | wrcr (i : Word) (v : Word)
  /-- `RDCR`: register-port read. -/
  | rdcr (i : Word)
  /-- `ST TBUF[i], v`. -/
  | stT (i : Nat) (v : Byte)
  /-- `ST WBUF[i], v`. -/
  | stW (i : Nat) (v : Word)
  /-- `ST XBUF[i], v`. -/
  | stX (i : Nat) (v : F32)
  /-- `ST YBUF[i], v`. -/
  | stY (i : Nat) (v : F32)
  /-- `LD buf[i]`. -/
  | ld (b : Buf) (i : Nat)
  /-- A command word at the command port. -/
  | command (w : Word)
  /-- `WAIT`: `RDCR STATUS` until the value read has BUSY = 0. -/
  | wait
  /-- The reset event of the environment. -/
  | reset
deriving DecidableEq, Repr

/-- The data a port read returns, of the element's width (44_host_commands R210). -/
inductive PortData where
  | w8 (v : Byte)
  | w32 (v : Word)
deriving DecidableEq, Repr

/-- The machine's state. -/
structure State where
  /-- `CR[0] = ROWS` (10_state R24). -/
  rows : Word
  /-- `CR[1] = COLS` (R25). -/
  cols : Word
  /-- `CR[2] = WIDTH` (R26). -/
  width : Word
  /-- `CR[3] = COUNT` (R27). -/
  count : Word
  /-- `CR[4] = WLEN` (R28). -/
  wlen : Word
  /-- `CR[5] = XLEN` (R29). -/
  xlen : Word
  /-- `CR[6] = STATUS` (R30). -/
  status : Status
  /-- `CR[7] = EINFO` (R31). -/
  einfo : Word
  /-- `TBUF`, raw ternary values (R35). -/
  tbuf : Memory 8
  /-- `WBUF`, packed words (R35). -/
  wbuf : Memory 32
  /-- `XBUF`, the input vector (R35). -/
  xbuf : Memory 32
  /-- `YBUF`, the output vector (R35). -/
  ybuf : Memory 32
  /-- The dispatch in progress, none when there is none (R37, R38). -/
  engine : Option EngineRun
  /-- The model's own: the coming moves of the host and the environment, the next first (log 1). -/
  inbox : List Input
  /-- The model's own: what the last port read returned (log 13). -/
  readData : Option PortData
  /-- The model's own: which of the enabled moves is taken next (log 2). -/
  pick : Nat
  /-- The model's own: the number of draws taken; free values are opaque functions of it (log 3). -/
  draws : Nat
  /-- The instance's parameters, which no step changes (R37; log 6). -/
  cfg : Params
deriving DecidableEq, Repr

/-- The state after reset (10_state R38). The parameters are the instance's, with the defaults the spec gives for `fadd` and
`BYTE_ORDER` (log 6); `inbox`, `readData`, `pick` and `draws` are the model's (logs 1, 2, 3, 13). -/
def State.reset : State where
  rows := 0
  cols := 0
  width := 32
  count := 0
  wlen := 0
  xlen := 0
  status := { busy := false, done := false, err := false, ecode := 0 }
  einfo := 0
  tbuf := []
  wbuf := []
  xbuf := []
  ybuf := []
  engine := none
  inbox := []
  readData := none
  pick := 0
  draws := 0
  cfg := { Config.params with byteOrder := .little, adder := .ieee }

end Sys2Proof.Machine
end

