-- ==== Sys2Proof/Machine/Flags.lean ====
section
/-! DEFINITION. The flags of the block: STATUS, its word, its transitions (10_state R30, R32), and the interrupt line
(60_exceptions R246). No arithmetic condition code exists (R32). -/

namespace Sys2Proof.Machine

/-- STATUS as the host reads it: BUSY bit 0, DONE bit 1, ERR bit 2, bit 3 zero, ECODE bits 7:4, bits 31:8 zero (10_state R30). -/
def Status.toWord (st : Status) : Word :=
  (0 : BitVec 24) ++ st.ecode ++ (0 : BitVec 1) ++ BitVec.ofBool st.err ++ BitVec.ofBool st.done ++ BitVec.ofBool st.busy

/-- The errors the block raises (60_exceptions R240). -/
inductive ErrorKind where
  | invalidValue
  | dimensionMismatch
  | deviceError
  | illegalCommand
deriving DecidableEq, Repr

/-- `ECODE` of an error (60_exceptions R240). -/
def errorCode : ErrorKind → BitVec 4
  | .invalidValue => 1
  | .dimensionMismatch => 2
  | .deviceError => 3
  | .illegalCommand => 15

/-- `DONE <- 0`, at the acceptance of an operation command (10_state R32). -/
def Status.dropDone (st : Status) : Status := { st with done := false }

/-- `DONE <- 1`, at the successful end of PACK, UNPACK or PACKM (10_state R32). -/
def Status.setDone (st : Status) : Status := { st with done := true }

/-- `BUSY <- 1`, at the acceptance of a dispatch (10_state R32). -/
def Status.setBusy (st : Status) : Status := { st with busy := true }

/-- `BUSY <- 0; DONE <- 1`, at the end of a dispatch (43_parallel_kernel R183). -/
def Status.endDispatch (st : Status) : Status := { st with busy := false, done := true }

/-- What STATUS becomes when an error is raised (60_exceptions R248). -/
def errorStatus (e : ErrorKind) : Status :=
  { busy := false, done := false, err := true, ecode := errorCode e }

/-- `DONE <- 0; ERR <- 0; ECODE <- 0` (44_host_commands R216). -/
def Status.clear (st : Status) : Status := { st with done := false, err := false, ecode := 0 }

/-- The interrupt line: `irq = STATUS.DONE | STATUS.ERR` (60_exceptions R246). -/
def State.irq (s : State) : Bool := s.status.done || s.status.err

end Sys2Proof.Machine
end

