-- ==== Sys2Proof/Machine/Ops.lean ====
section
/-! DEFINITION. The named operations over memories, control registers and status: element reads and writes (20_memory R57),
register access (44_host_commands R211, R212), raising an error (60_exceptions R248) and returning from it (R249), and the
acceptance rule that gates every operation command (44_host_commands R214). -/

namespace Sys2Proof.Machine

/-- The element at index `i`, or none when it holds no value (20_memory R57, 10_state R39). -/
def Memory.read {w : Nat} : Memory w → Nat → Option (BitVec w)
  | [], _ => none
  | (a, v) :: m, i => if a = i then some v else Memory.read m i

/-- The memory with element `i` replaced by `v` and every other element as it was (20_memory R57). -/
def Memory.write {w : Nat} : Memory w → Nat → BitVec w → Memory w
  | [], i, v => [(i, v)]
  | (a, u) :: m, i, v =>
    if i < a then (i, v) :: (a, u) :: m
    else if i = a then (i, v) :: m
    else (a, u) :: Memory.write m i v

/-- The memory with elements `i, i+1, ...` replaced by the listed ones. -/
def Memory.writeSpan {w : Nat} : Memory w → Nat → List (BitVec w) → Memory w
  | m, _, [] => m
  | m, i, v :: vs => Memory.writeSpan (Memory.write m i v) (i + 1) vs

/-- The memory whose elements below `n` hold no value (43_parallel_kernel R187). -/
def Memory.dropBelow {w : Nat} (m : Memory w) (n : Nat) : Memory w := m.filter fun c => n ≤ c.1

/-- The canonical form: indices strictly rising (log 8). -/
def Memory.wf {w : Nat} : Memory w → Bool
  | [] => true
  | [_] => true
  | (a, _) :: (b, v) :: m => a < b && Memory.wf ((b, v) :: m)

/-- Every element that holds a value lies below `n`. -/
def Memory.below {w : Nat} (m : Memory w) (n : Nat) : Bool := m.all fun c => c.1 < n

/-- Element `i` of a memory, or the fault of reading an element that holds no value (10_state R39, 93 U4). -/
def readElement {w : Nat} (sp : Space) (m : Memory w) (i : Nat) : Except Fault (BitVec w) :=
  match Memory.read m i with
  | some v => .ok v
  | none => .error (.noValue sp i)

/-- Elements `start .. start + n - 1` of a memory; the lowest one that holds no value faults (10_state R39). -/
def readSpan {w : Nat} (sp : Space) (m : Memory w) : Nat → Nat → Except Fault (List (BitVec w))
  | _, 0 => .ok []
  | start, n + 1 =>
    match readElement sp m start with
    | .error f => .error f
    | .ok v =>
      match readSpan sp m (start + 1) n with
      | .error f => .error f
      | .ok vs => .ok (v :: vs)

/-- Every element `start .. start + n - 1` holds a value. -/
def Memory.filled {w : Nat} (m : Memory w) (start n : Nat) : Bool :=
  (List.range n).all fun i => (Memory.read m (start + i)).isSome

/-- `CR[i]`; a register that does not exist reads 0 (10_state R23, 44_host_commands R212). -/
def readCR (s : State) (i : Word) : Word :=
  match i.toNat with
  | 0 => s.rows
  | 1 => s.cols
  | 2 => s.width
  | 3 => s.count
  | 4 => s.wlen
  | 5 => s.xlen
  | 6 => s.status.toWord
  | 7 => s.einfo
  | _ => 0

/-- `CR[i] <- v` for `i <= 5`; a write to a read-only or absent register is ignored (10_state R23, 44_host_commands R211). -/
def writeCR (s : State) (i v : Word) : State :=
  match i.toNat with
  | 0 => { s with rows := v }
  | 1 => { s with cols := v }
  | 2 => { s with width := v }
  | 3 => { s with count := v }
  | 4 => { s with wlen := v }
  | 5 => { s with xlen := v }
  | _ => s

/-- `raise <Error>(info)`: the error entry (60_exceptions R248). -/
def raiseError (e : ErrorKind) (info : Word) (s : State) : State :=
  { s with status := errorStatus e, einfo := info }

/-- The error return: what `CLRST` does (60_exceptions R249, 44_host_commands R216). -/
def clearError (s : State) : State := { s with status := s.status.clear, einfo := 0 }

/-- The successful end of PACK, UNPACK or PACKM (10_state R32). -/
def finishOperation (s : State) : State := { s with status := s.status.setDone }

/-- The acceptance of an operation command (44_host_commands R214): nothing while BUSY, nothing while ERR, else DONE is cleared
and the operation runs. -/
def acceptOperation (op : State → Host.Outcome State Fault Refusal) (s : State) : Host.Outcome State Fault Refusal :=
  if s.status.busy then .next s
  else if s.status.err then .next s
  else op { s with status := s.status.dropDone }

/-- The write to the command port of a word that selects no operation (44_host_commands R214, 60_exceptions R245, R250). -/
def illegalCommand (w : Word) (s : State) : State :=
  if s.status.busy then s
  else if s.status.err then s
  else raiseError .illegalCommand w s

/-- `EINFO` of an `InvalidValue` at index `i` (10_state R31); an index that needs more than 32 bits gives a free word (log 10). -/
def indexInfo (i : Nat) : Word := if i < 2 ^ 32 then BitVec.ofNat 32 i else Config.wideIndex i

end Sys2Proof.Machine
end

