-- ==== Sys2Proof/Machine/Operands.lean ====
section
/-! DEFINITION. The operands of the commands: dimensions and derived sizes (00_scope R5 to R12), all on unbounded integers, and
the numbered dimension checks (60_exceptions R242). -/

namespace Sys2Proof.Machine

/-- `K = floor(W / 2)`, codes per word (00_scope R6). -/
def codesPerWord (W : Nat) : Nat := W / 2

/-- `WPR = ceil(C / K)`, words per row (00_scope R7). -/
def wordsPerRow (W C : Nat) : Nat := divCeil C (codesPerWord W)

/-- `L`, lanes per workgroup (00_scope R9). -/
def laneCount (p : Params) : Nat := 2 ^ p.laneLog

/-- `TW`, packed words in a tile of a dispatch of width `W` (00_scope R9). -/
def tileWordCount (p : Params) (W : Nat) : Nat := p.extraTileWords.getD W 0 + 1

/-- The dimensions of a dispatch that fix its lane sequence (10_state R22): `R`, `C`, `W`, `log2 L`, `TW`. -/
structure Shape where
  rows : Nat
  cols : Nat
  width : Nat
  laneLog : Nat
  tileWords : Nat
deriving DecidableEq, Repr

/-- `L` of a dispatch (00_scope R9). -/
def Shape.lanes (sh : Shape) : Nat := 2 ^ sh.laneLog

/-- `K` of a dispatch (00_scope R6). -/
def Shape.codes (sh : Shape) : Nat := codesPerWord sh.width

/-- `WPR` of a dispatch (00_scope R7). -/
def Shape.rowWords (sh : Shape) : Nat := wordsPerRow sh.width sh.cols

/-- `T = TW * K`, elements in a tile (00_scope R9). -/
def Shape.tile (sh : Shape) : Nat := sh.tileWords * sh.codes

/-- `NT = ceil(C / T)`, tiles per row (00_scope R9). -/
def Shape.tiles (sh : Shape) : Nat := divCeil sh.cols sh.tile

/-- The shape of a dispatch on an instance. -/
def shapeOf (p : Params) (e : EngineRun) : Shape :=
  { rows := e.rows, cols := e.cols, width := e.width, laneLog := p.laneLog, tileWords := tileWordCount p e.width }

/-- The low `W` bits of a `WBUF` element: the packed word an operation of width `W` sees (20_memory R50). -/
def lowWord (W : Nat) (w : Word) : Word := BitVec.ofNat 32 (w.toNat % 2 ^ W)

/-- The number of the first check that fails, in the order listed (60_exceptions R242: first failure wins). -/
def firstFailed : List (Bool × Nat) → Option Nat
  | [] => none
  | (failed, n) :: rest => if failed then some n else firstFailed rest

/-- Check 1 of every operation: `W < 2` or `W > WMAX` (60_exceptions R242). -/
def widthBad (W : Nat) : Bool := W < 2 || WMAX < W

/-- The checks of PACK (60_exceptions R242, 40_codec R120). -/
def packCheck (s : State) : Option Nat :=
  let W := s.width.toNat
  let n := s.count.toNat
  firstFailed
    [ (widthBad W, 1),
      (s.cfg.tcap < n, 2),
      (s.cfg.wcap < divCeil n (codesPerWord W), 4) ]

/-- The checks of UNPACK (60_exceptions R242, 40_codec R121). -/
def unpackCheck (s : State) : Option Nat :=
  let W := s.width.toNat
  let n := s.count.toNat
  firstFailed
    [ (widthBad W, 1),
      (s.wlen.toNat < divCeil n (codesPerWord W) || s.cfg.wcap < s.wlen.toNat, 2),
      (s.cfg.tcap < n, 4) ]

/-- The checks of PACKM (60_exceptions R242, 40_codec R122). -/
def packmCheck (s : State) : Option Nat :=
  let W := s.width.toNat
  let R := s.rows.toNat
  let C := s.cols.toNat
  firstFailed
    [ (widthBad W, 1),
      (s.cfg.tcap < R * C, 2),
      (s.cfg.wcap < R * wordsPerRow W C, 4) ]

/-- The checks of RUNMV (60_exceptions R242, 43_parallel_kernel R170). -/
def runmvCheck (s : State) : Option Nat :=
  let W := s.width.toNat
  let R := s.rows.toNat
  let C := s.cols.toNat
  firstFailed
    [ (widthBad W, 1),
      (s.wlen.toNat ≠ R * wordsPerRow W C || s.cfg.wcap < s.wlen.toNat, 2),
      (s.xlen.toNat ≠ C || s.cfg.xcap < s.xlen.toNat, 3),
      (s.cfg.ycap < R, 4) ]

/-- `DimensionMismatch(n)` (60_exceptions R242). -/
def dimensionMismatch (n : Nat) (s : State) : State := raiseError .dimensionMismatch (BitVec.ofNat 32 n) s

end Sys2Proof.Machine
end

