-- ==== Sys2Proof/Machine/Codec.lean ====
section
/-! DEFINITION. The Ternary Codec as pure functions (40_codec R110 to R119): codes, words, sequences of words. -/

namespace Sys2Proof.Machine

/-- A ternary value: -1, 0 or +1 (00_scope glossary). -/
def isTernary (v : Int) : Bool := v = 0 || v = 1 || v = -1

/-- `enc` (40_codec R110); none is `InvalidValue`. -/
def enc (v : Int) : Option Code :=
  if v = 0 then some 0b00#2
  else if v = 1 then some 0b01#2
  else if v = -1 then some 0b10#2
  else none

/-- `dec` (40_codec R111), code `11` included (30_encoding R81). -/
def dec (c : Code) : Int :=
  if c = 0b01#2 then 1
  else if c = 0b10#2 then -1
  else 0

/-- The code in slot `i` of a word: `(w >> (2*i)) & 3` (30_encoding R85). -/
def slotCode (w : Word) (i : Nat) : Code := (w >>> (2 * i)).setWidth 2

/-- The word that holds the codes of the values, the first in the lowest bits, all other bits 0 (40_codec R112). It is used on
sequences whose values are all ternary. -/
def packCodes : List Int → Word
  | [] => 0
  | v :: vs => ((enc v).getD 0).setWidth 32 ||| packCodes vs <<< 2

/-- `pack_word` (40_codec R112), for at most `K` values; none is `InvalidValue`. -/
def packWord (vs : List Int) : Option Word := if vs.all isTernary then some (packCodes vs) else none

/-- The lowest index of a value outside {-1, 0, +1} (40_codec R114). -/
def firstInvalid : List Int → Option Nat
  | [] => none
  | v :: vs => if isTernary v then (firstInvalid vs).map (· + 1) else some 0

/-- The chunks of `K` values of a sequence, each as a word (40_codec R113). -/
def packChunks (W : Nat) (v : List Int) : List Word :=
  let K := codesPerWord W
  (List.range (divCeil v.length K)).map fun j => packCodes ((v.drop (j * K)).take K)

/-- `pack` (40_codec R113): the words, or `InvalidValue` with the lowest offending index and no word (R114). -/
def pack (W : Nat) (v : List Int) : Except Nat (List Word) :=
  match firstInvalid v with
  | some i => .error i
  | none => .ok (packChunks W v)

/-- `unpack_word` (40_codec R115). -/
def unpackWord (W : Nat) (w : Word) : List Int :=
  (List.range (codesPerWord W)).map fun i => dec (slotCode w i)

/-- `unpack` (40_codec R116), for `n <= K * len ws`. -/
def unpack (W : Nat) (ws : List Word) (n : Nat) : List Int :=
  let K := codesPerWord W
  (List.range n).map fun i => (unpackWord W (ws.getD (i / K) 0)).getD (i % K) 0

/-- The rows of a row-major matrix, each packed by itself (40_codec R122, 20_memory R51). -/
def packRows (W R C : Nat) (v : List Int) : List Word :=
  (List.range R).flatMap fun r => packChunks W ((v.drop (r * C)).take C)

/-- A canonical word: no slot holds `11` and no bit above the slots is set below bit `W` (40_codec R118). -/
def canonicalWord (W : Nat) (w : Word) : Bool :=
  w.toNat < 2 ^ (2 * codesPerWord W) && (List.range (codesPerWord W)).all fun i => slotCode w i ≠ 0b11#2

/-- The integer a raw `TBUF` element stands for (00_scope R10). -/
def rawToInt (b : Byte) : Int := b.toInt

/-- The raw form of a ternary value: `0xFF`, `0x00` or `0x01` (00_scope R10). -/
def intToRaw (v : Int) : Byte := BitVec.ofInt 8 v

end Sys2Proof.Machine
end

