-- ==== Sys2Proof/Machine/CodecCommands.lean ====
section
/-! DEFINITION. The meanings of PACK, UNPACK and PACKM: each is one atomic step of the dispatcher (40_codec R120 to R122). -/

namespace Sys2Proof.Machine

/-- The end of PACK and PACKM once the words are known: `WBUF` from element 0 on (40_codec R120, R122). -/
def storeWords (ws : List Word) (s : State) : State :=
  finishOperation { s with wbuf := Memory.writeSpan s.wbuf 0 ws }

/-- The end of UNPACK once the values are known: `TBUF` from element 0 on (40_codec R121). -/
def storeValues (vs : List Int) (s : State) : State :=
  finishOperation { s with tbuf := Memory.writeSpan s.tbuf 0 (vs.map intToRaw) }

/-- PACK and PACKM after their checks: read `n` raw values, all of them checked before any word is written, then store the words
that `toWords` makes of them (40_codec R114, R120, R122). -/
def packValues (n : Nat) (toWords : List Int → List Word) (s : State) : Host.Outcome State Fault Refusal :=
  match readSpan (.buffer .tbuf) s.tbuf 0 n with
  | .error f => .fault f
  | .ok raw =>
    match firstInvalid (raw.map rawToInt) with
    | some i => .next (raiseError .invalidValue (indexInfo i) s)
    | none => .next (storeWords (toWords (raw.map rawToInt)) s)

/-- PACK once accepted (40_codec R120). -/
def runPack (s : State) : Host.Outcome State Fault Refusal :=
  match packCheck s with
  | some n => .next (dimensionMismatch n s)
  | none => packValues s.count.toNat (packChunks s.width.toNat) s

/-- UNPACK once accepted (40_codec R121). -/
def runUnpack (s : State) : Host.Outcome State Fault Refusal :=
  match unpackCheck s with
  | some n => .next (dimensionMismatch n s)
  | none =>
    let W := s.width.toNat
    let n := s.count.toNat
    match readSpan (.buffer .wbuf) s.wbuf 0 (divCeil n (codesPerWord W)) with
    | .error f => .fault f
    | .ok ws => .next (storeValues (unpack W (ws.map (lowWord W)) n) s)

/-- PACKM once accepted (40_codec R122). -/
def runPackm (s : State) : Host.Outcome State Fault Refusal :=
  match packmCheck s with
  | some n => .next (dimensionMismatch n s)
  | none =>
    packValues (s.rows.toNat * s.cols.toNat) (packRows s.width.toNat s.rows.toNat s.cols.toNat) s

/-- `PACK` (40_codec R120). -/
def execPack (s : State) : Host.Outcome State Fault Refusal := acceptOperation runPack s

/-- `UNPACK` (40_codec R121). -/
def execUnpack (s : State) : Host.Outcome State Fault Refusal := acceptOperation runUnpack s

/-- `PACKM` (40_codec R122). -/
def execPackm (s : State) : Host.Outcome State Fault Refusal := acceptOperation runPackm s

end Sys2Proof.Machine
end

