-- ==== Sys2Proof/Machine/Float.lean ====
section
/-! DEFINITION. The float operations `fadd`, `fneg`, `fsub` (00_scope R8). The default `fadd` is IEEE 754 binary32 addition,
round to nearest, ties to even; the spec marks that standard as general knowledge, and this text writes it out (log 5). -/

namespace Sys2Proof.Machine

/-- `F32_PZERO`, +0.0 (00_scope R8). -/
def f32PosZero : F32 := 0x00000000#32

/-- `F32_NZERO`, -0.0 (00_scope R8). -/
def f32NegZero : F32 := 0x80000000#32

/-- Exponent field, bits 30:23 (30_encoding R86). -/
def f32Exp (x : F32) : Nat := x.toNat / 2 ^ 23 % 2 ^ 8

/-- Fraction field, bits 22:0 (30_encoding R86). -/
def f32Frac (x : F32) : Nat := x.toNat % 2 ^ 23

/-- Sign bit, bit 31 (30_encoding R86). -/
def f32Sign (x : F32) : Bool := x.msb

/-- The pattern is a NaN. -/
def isNaN (x : F32) : Bool := f32Exp x = 255 && f32Frac x ≠ 0

/-- The pattern is a quiet NaN: a NaN with fraction bit 22 set (93 U3). -/
def isQuietNaN (x : F32) : Bool := isNaN x && x.getLsbD 22

/-- The pattern is an infinity. -/
def isInf (x : F32) : Bool := f32Exp x = 255 && f32Frac x = 0

/-- The magnitude of a finite pattern, in units of 2^-149. -/
def f32Magnitude (x : F32) : Nat :=
  if f32Exp x = 0 then f32Frac x else (2 ^ 23 + f32Frac x) * 2 ^ (f32Exp x - 1)

/-- The value of a finite pattern, in units of 2^-149. -/
def f32Units (x : F32) : Int := if f32Sign x then -(f32Magnitude x : Int) else f32Magnitude x

/-- The pattern, sign bit clear, of the float nearest to the magnitude `m` (in units of 2^-149), ties to even; infinity when `m`
is too large. -/
def roundMagnitude (m : Nat) : Nat :=
  if m < 2 ^ 24 then m
  else
    let sh := Nat.log2 m - 23
    let q := m / 2 ^ sh
    let r := m % 2 ^ sh
    let up := if 2 ^ sh < 2 * r ∨ (2 * r = 2 ^ sh ∧ q % 2 = 1) then 1 else 0
    min (sh * 2 ^ 23 + q + up) 0x7F800000

/-- The pattern with the given sign and magnitude pattern. -/
def f32Pack (neg : Bool) (mag : Nat) : F32 := BitVec.ofNat 32 ((if neg then 2 ^ 31 else 0) + mag)

/-- The quiet NaN whose sign and payload are the given free bits (93 U3). -/
def quietNaN (bits : F32) : F32 := bits ||| 0x7FC00000#32

/-- IEEE 754 binary32 addition, round to nearest, ties to even; `nan` is the pattern a NaN result has (00_scope R8). -/
def ieeeAdd (nan a b : F32) : F32 :=
  if isNaN a || isNaN b then nan
  else if isInf a then (if isInf b && (f32Sign a != f32Sign b) then nan else a)
  else if isInf b then b
  else
    let v := f32Units a + f32Units b
    if v = 0 then (if f32Sign a && f32Sign b then f32NegZero else f32PosZero)
    else f32Pack (decide (v < 0)) (roundMagnitude v.natAbs)

/-- `fadd` of an instance (00_scope R8, D3); `nan` is used by the default only. -/
def fadd (ad : Adder) (nan a b : F32) : F32 :=
  match ad with
  | .ieee => ieeeAdd nan a b
  | .custom => Config.customFadd a b

/-- `fneg(x) = x XOR 0x80000000` (00_scope R8, D4). -/
def fneg (x : F32) : F32 := x ^^^ 0x80000000#32

/-- `fsub(a, b) = fadd(a, fneg(b))` (00_scope R8, D4). -/
def fsub (ad : Adder) (nan a b : F32) : F32 := fadd ad nan a (fneg b)

/-- The NaN a NaN result of draw number `n` has (93 U3; log 5). -/
def drawnNaN (n : Nat) : F32 := quietNaN (Config.nanBits n)

end Sys2Proof.Machine
end

