-- ==== Sys2Proof/Machine/Datapath.lean ====
section
/-! DEFINITION. The branchless decode-and-select datapath of a lane (41_decode_select R140 to R148). -/

namespace Sys2Proof.Machine

/-- `EXTRACT`: the code in slot `k` of a packed word (41_decode_select R141). -/
def extractCode (w : Word) (k : Nat) : Code := (w >>> (2 * k) &&& 3#32).setWidth 2

/-- The 32-bit mask of a bit: `(0 - b) mod 2^32` (00_scope R14). -/
def bitMask (b : BitVec 1) : Word := 0 - b.setWidth 32

/-- `MASKS`: the add mask and the subtract mask of a code (41_decode_select R142). -/
def codeMasks (code : Code) : Word × Word :=
  let c0 : BitVec 1 := code.extractLsb' 0 1
  let c1 : BitVec 1 := code.extractLsb' 1 1
  (bitMask (c0 &&& (c1 ^^^ 1)), bitMask (c1 &&& (c0 ^^^ 1)))

/-- `SELECT`: the contribution of one slot, `(x AND am) OR (fneg(x) AND sm)` (41_decode_select R143). -/
def selectContribution (code : Code) (x : F32) : F32 :=
  let masks := codeMasks code
  (x &&& masks.1) ||| (fneg x &&& masks.2)

/-- `ACCSTEP`: one slot added to an accumulator (41_decode_select R147). -/
def accStep (add : F32 → F32 → F32) (acc : F32) (w : Word) (k : Nat) (x : F32) : F32 :=
  add acc (selectContribution (extractCode w k) x)

/-- `DECACC`: the `K` slots of one word in ascending order (41_decode_select R147); `xs[k]` is paired with slot `k`. -/
def decAcc (add : F32 → F32 → F32) (K : Nat) (acc : F32) (w : Word) (xs : List F32) : F32 :=
  (List.range K).foldl (fun a k => accStep add a w k (xs.getD k f32PosZero)) acc

end Sys2Proof.Machine
end

