-- ==== Sys2Proof/Machine/Lanes.lean ====
section
/-! DEFINITION. The lane micro-steps of the parallel kernel (43_parallel_kernel R173 to R182) and the barrier release
(20_memory R65). Successors depend on the shape of the dispatch and the lane index only (41_decode_select R148). -/

namespace Sys2Proof.Machine

/-- A lane at this position waits at a barrier (20_memory R65). -/
def Pos.atBarrier : Pos → Bool
  | .barLoad _ => true
  | .barAcc _ => true
  | .barPub => true
  | .barRed _ => true
  | _ => false

/-- A lane at this position has a micro-step of its own enabled (10_state R20, 43_parallel_kernel R182). -/
def Pos.canStep : Pos → Bool
  | .exit => false
  | p => !p.atBarrier

/-- Where the load phase of tile `t` starts for lane `l` (43_parallel_kernel R173, R179). -/
def loadStart (sh : Shape) (l t : Nat) : Pos := if l < sh.tile then .load t l else .barLoad t

/-- After `INIT` (43_parallel_kernel R173). -/
def afterInit (sh : Shape) (l : Nat) : Pos := if sh.tiles = 0 then .publish else loadStart sh l 0

/-- After `LOAD(t, i)` (43_parallel_kernel R175). -/
def afterLoad (sh : Shape) (t i : Nat) : Pos := if i + sh.lanes < sh.tile then .load t (i + sh.lanes) else .barLoad t

/-- The accumulate phase of tile `t` from tile word `jw` on (43_parallel_kernel R176, R177, R178). -/
def accFrom (sh : Shape) (t jw : Nat) : Pos :=
  if jw < sh.tileWords ∧ t * sh.tileWords + jw < sh.rowWords then .acc t jw 0 else .barAcc t

/-- After `ACC(t, jw, k)` (43_parallel_kernel R177). -/
def afterAcc (sh : Shape) (t jw k : Nat) : Pos :=
  if k + 1 < sh.codes then .acc t jw (k + 1) else accFrom sh t (jw + sh.lanes)

/-- After the last step of the reduction: lane 0 writes, the others are finished (43_parallel_kernel R180, R181). -/
def afterReduction (l : Nat) : Pos := if l = 0 then .write else .exit

/-- The position after a barrier position, when the barrier releases (43_parallel_kernel R176, R179, R180, R181). -/
def afterBarrier (sh : Shape) (l : Nat) : Pos → Pos
  | .barLoad t => accFrom sh t l
  | .barAcc t => if t + 1 < sh.tiles then loadStart sh l (t + 1) else .publish
  | .barPub => if 2 ≤ sh.lanes then .red (sh.lanes / 2) else afterReduction l
  | .barRed s => if 2 ≤ s then .red (s / 2) else afterReduction l
  | p => p

/-- What one micro-step of a lane leaves: its own position and accumulator, its workgroup's shared memories, and `YBUF`. -/
structure LaneEffect where
  pos : Pos
  acc : Option F32
  shmX : Memory 32
  shmR : Memory 32
  ybuf : Memory 32
deriving DecidableEq, Repr

/-- The accumulator of lane `l` of workgroup `g`, or the fault of reading it before INIT (10_state R33, R39). -/
def readAcc (g l : Nat) (ln : Lane) : Except Fault F32 :=
  match ln.acc with
  | some a => .ok a
  | none => .error (.noValue (.acc g) l)

/-- `LOAD(t, i)`: the tile element is the input element, or +0.0 beyond the vector, which is then not read
(43_parallel_kernel R175). -/
def tileElement (sh : Shape) (xbuf : Memory 32) (t i : Nat) : Except Fault F32 :=
  let c := t * sh.tile + i
  if c < sh.cols then readElement (.buffer .xbuf) xbuf c else .ok f32PosZero

/-- `LOAD(t, i)` (43_parallel_kernel R175). -/
def laneLoad (sh : Shape) (s : State) (wg : Workgroup) (ln : Lane) (t i : Nat) : Except Fault LaneEffect :=
  match tileElement sh s.xbuf t i with
  | .error f => .error f
  | .ok v =>
    .ok { pos := afterLoad sh t i, acc := ln.acc, shmX := Memory.write wg.shmX i v, shmR := wg.shmR, ybuf := s.ybuf }

/-- `ACC(t, jw, k)` (43_parallel_kernel R177); `nan` is the draw a NaN sum takes. -/
def laneAcc (sh : Shape) (nan : F32) (s : State) (g l : Nat) (wg : Workgroup) (ln : Lane) (t jw k : Nat) :
    Except Fault LaneEffect :=
  match readElement (.buffer .wbuf) s.wbuf (g * sh.rowWords + (t * sh.tileWords + jw)) with
  | .error f => .error f
  | .ok w =>
    match readElement (.shmX g) wg.shmX (jw * sh.codes + k) with
    | .error f => .error f
    | .ok x =>
      match readAcc g l ln with
      | .error f => .error f
      | .ok a =>
        .ok
          { pos := afterAcc sh t jw k
            acc := some (accStep (fadd s.cfg.adder nan) a (lowWord sh.width w) k x)
            shmX := wg.shmX, shmR := wg.shmR, ybuf := s.ybuf }

/-- `PUBLISH` (43_parallel_kernel R180). -/
def lanePublish (s : State) (g l : Nat) (wg : Workgroup) (ln : Lane) : Except Fault LaneEffect :=
  match readAcc g l ln with
  | .error f => .error f
  | .ok a =>
    .ok { pos := .barPub, acc := ln.acc, shmX := wg.shmX, shmR := Memory.write wg.shmR l a, ybuf := s.ybuf }

/-- `RED(s)`: lanes below the stride add element `l + stride` into element `l`, the others do nothing
(43_parallel_kernel R181). -/
def laneReduce (nan : F32) (s : State) (g l : Nat) (wg : Workgroup) (ln : Lane) (stride : Nat) :
    Except Fault LaneEffect :=
  if l < stride then
    match readElement (.shmR g) wg.shmR l with
    | .error f => .error f
    | .ok a =>
      match readElement (.shmR g) wg.shmR (l + stride) with
      | .error f => .error f
      | .ok b =>
        .ok
          { pos := .barRed stride, acc := ln.acc, shmX := wg.shmX
            shmR := Memory.write wg.shmR l (fadd s.cfg.adder nan a b), ybuf := s.ybuf }
  else
    .ok { pos := .barRed stride, acc := ln.acc, shmX := wg.shmX, shmR := wg.shmR, ybuf := s.ybuf }

/-- `WRITE`: the row's output element (43_parallel_kernel R182). -/
def laneWrite (s : State) (g : Nat) (wg : Workgroup) (ln : Lane) : Except Fault LaneEffect :=
  match readElement (.shmR g) wg.shmR 0 with
  | .error f => .error f
  | .ok v =>
    .ok { pos := .exit, acc := ln.acc, shmX := wg.shmX, shmR := wg.shmR, ybuf := Memory.write s.ybuf g v }

/-- The micro-step at the lane's position; a lane at a barrier or at EXIT has none and stays as it is. -/
def laneEffect (sh : Shape) (nan : F32) (s : State) (g l : Nat) (wg : Workgroup) (ln : Lane) : Except Fault LaneEffect :=
  match ln.pos with
  | .init =>
    .ok { pos := afterInit sh l, acc := some f32PosZero, shmX := wg.shmX, shmR := wg.shmR, ybuf := s.ybuf }
  | .load t i => laneLoad sh s wg ln t i
  | .acc t jw k => laneAcc sh nan s g l wg ln t jw k
  | .publish => lanePublish s g l wg ln
  | .red stride => laneReduce nan s g l wg ln stride
  | .write => laneWrite s g wg ln
  | .barLoad t => .ok { pos := .barLoad t, acc := ln.acc, shmX := wg.shmX, shmR := wg.shmR, ybuf := s.ybuf }
  | .barAcc t => .ok { pos := .barAcc t, acc := ln.acc, shmX := wg.shmX, shmR := wg.shmR, ybuf := s.ybuf }
  | .barPub => .ok { pos := .barPub, acc := ln.acc, shmX := wg.shmX, shmR := wg.shmR, ybuf := s.ybuf }
  | .barRed stride => .ok { pos := .barRed stride, acc := ln.acc, shmX := wg.shmX, shmR := wg.shmR, ybuf := s.ybuf }
  | .exit => .ok { pos := .exit, acc := ln.acc, shmX := wg.shmX, shmR := wg.shmR, ybuf := s.ybuf }

/-- The set of lanes with `l` added, in rising order (20_memory R65). -/
def joinArrived (l : Nat) : List Nat → List Nat
  | [] => [l]
  | a :: rest => if l < a then l :: a :: rest else if l = a then a :: rest else a :: joinArrived l rest

/-- The workgroup after the micro-step of lane `l`: a lane that has reached a barrier joins `arrived` (20_memory R65). -/
def Workgroup.applyLane (wg : Workgroup) (l : Nat) (e : LaneEffect) : Workgroup :=
  { wg with
    lanes := wg.lanes.set l { pos := e.pos, acc := e.acc }
    shmX := e.shmX
    shmR := e.shmR
    arrived := if e.pos.atBarrier then joinArrived l wg.arrived else wg.arrived }

/-- The lanes at a barrier position, in rising order. -/
def lanesAtBarrier (lanes : List Lane) : List Nat :=
  (List.range lanes.length).filter fun l =>
    match lanes[l]? with
    | some ln => ln.pos.atBarrier
    | none => false

/-- The lanes of a workgroup after its barrier has released (20_memory R65). -/
def releasedLanes (sh : Shape) (lanes : List Lane) : List Lane :=
  lanes.mapIdx fun l ln => { ln with pos := afterBarrier sh l ln.pos }

/-- The barrier release: `arrived` is emptied, `gen` counts up, every lane goes to the position after its barrier; a lane whose
next position is a barrier again has reached it (20_memory R65; log 17). -/
def Workgroup.release (sh : Shape) (wg : Workgroup) : Workgroup :=
  { wg with
    lanes := releasedLanes sh wg.lanes
    arrived := lanesAtBarrier (releasedLanes sh wg.lanes)
    gen := wg.gen + 1 }

/-- All lanes have arrived (20_memory R65). -/
def Workgroup.allArrived (sh : Shape) (wg : Workgroup) : Bool :=
  (List.range sh.lanes).all fun l => wg.arrived.contains l

/-- A workgroup as it is created: `L` lanes at INIT, no value anywhere (43_parallel_kernel R171, 10_state R33, R34). -/
def newGroup (p : Params) : Workgroup :=
  { lanes := List.replicate (laneCount p) { pos := .init, acc := none }
    shmX := [], shmR := [], arrived := [], gen := 0 }

end Sys2Proof.Machine
end

