-- ==== Sys2Proof/Machine/Engine.lean ====
section
/-! DEFINITION. The meaning of RUNMV (43_parallel_kernel R170, R187), the completion of a dispatch (R183), and the moves of the
engine: one lane micro-step, one barrier release, the completion. -/

namespace Sys2Proof.Machine

/-- The dispatch that RUNMV creates: the latched dimensions and one new workgroup per row (43_parallel_kernel R170, R171). -/
def newRun (s : State) : EngineRun :=
  { rows := s.rows.toNat, cols := s.cols.toNat, width := s.width.toNat
    groups := List.replicate s.rows.toNat (newGroup s.cfg) }

/-- `BUSY <- 1` and the workgroups created (43_parallel_kernel R170). -/
def launch (s : State) : State := { s with status := s.status.setBusy, engine := some (newRun s) }

/-- The completion step: `BUSY <- 0`, `DONE <- 1`, all workgroup and lane state gone (43_parallel_kernel R183). -/
def completeRun (s : State) : State := { s with status := s.status.endDispatch, engine := none }

/-- `DeviceError`: no workgroup runs, `YBUF[0 .. R)` hold no value, the error is raised (43_parallel_kernel R187). -/
def deviceError (s : State) : State :=
  raiseError .deviceError 0 { s with ybuf := Memory.dropBelow s.ybuf s.rows.toNat }

/-- The acceptance step once the checks have passed: the `device_fail` draw, else the dispatch, which ends at once when `R = 0`
(43_parallel_kernel R170; logs 4, 12). -/
def startRun (s : State) : State :=
  if Config.deviceFail s.draws then deviceError s
  else if s.rows.toNat = 0 then completeRun (launch s)
  else launch s

/-- RUNMV once accepted (43_parallel_kernel R170). -/
def runRunmv (s : State) : Host.Outcome State Fault Refusal :=
  match runmvCheck s with
  | some n => .next (dimensionMismatch n s)
  | none => .next (startRun s)

/-- `RUNMV` (43_parallel_kernel R170). -/
def execRunmv (s : State) : Host.Outcome State Fault Refusal := acceptOperation runRunmv s

/-- The state with workgroup `g` of the dispatch replaced. -/
def putGroup (s : State) (e : EngineRun) (g : Nat) (wg : Workgroup) : State :=
  { s with engine := some { e with groups := e.groups.set g wg } }

/-- One micro-step of lane `l` of workgroup `g` (43_parallel_kernel R173 to R182). Where there is no such lane, nothing. -/
def laneMove (g l : Nat) (s : State) : Host.Outcome State Fault Refusal :=
  match s.engine with
  | none => .next s
  | some e =>
    match e.groups[g]? with
    | none => .next s
    | some wg =>
      match wg.lanes[l]? with
      | none => .next s
      | some ln =>
        match laneEffect (shapeOf s.cfg e) (drawnNaN s.draws) s g l wg ln with
        | .error f => .fault f
        | .ok eff => .next { putGroup s e g (wg.applyLane l eff) with ybuf := eff.ybuf }

/-- The barrier release of workgroup `g` (20_memory R65). Where there is no such workgroup, nothing. -/
def releaseMove (g : Nat) (s : State) : State :=
  match s.engine with
  | none => s
  | some e =>
    match e.groups[g]? with
    | none => s
    | some wg => putGroup s e g (wg.release (shapeOf s.cfg e))

/-- Every lane of every workgroup is at EXIT (43_parallel_kernel R183). -/
def EngineRun.finished (e : EngineRun) : Bool :=
  e.groups.all fun wg => wg.lanes.all fun ln => ln.pos = .exit

end Sys2Proof.Machine
end

