-- ==== Sys2Proof/Machine/System.lean ====
section
/-! DEFINITION. The meanings of NOP and CLRST (44_host_commands R215, R216), the two commands that a standing error does not
block (R214). -/

namespace Sys2Proof.Machine

/-- `NOP` (44_host_commands R215): nothing, whether it is accepted or not. -/
def execNop (s : State) : Host.Outcome State Fault Refusal := .next s

/-- `CLRST` (44_host_commands R216); not accepted while BUSY. -/
def execClrst (s : State) : Host.Outcome State Fault Refusal :=
  if s.status.busy then .next s else .next (clearError s)

end Sys2Proof.Machine
end

