-- ==== Sys2Proof/Machine/Dispatch.lean ====
section
/-! DEFINITION. The dispatch of a command to its meaning, one arm per constructor of `Instr`. -/

namespace Sys2Proof.Machine

/-- The effect of a command written to the command port (30_encoding R89, 44_host_commands R214). -/
def exec (i : Instr) (s : State) : Host.Outcome State Fault Refusal :=
  match i with
  | .nop => Sys2Proof.Machine.execNop s
  | .pack => Sys2Proof.Machine.execPack s
  | .unpack => Sys2Proof.Machine.execUnpack s
  | .packm => Sys2Proof.Machine.execPackm s
  | .runmv => Sys2Proof.Machine.execRunmv s
  | .clrst => Sys2Proof.Machine.execClrst s

end Sys2Proof.Machine
end

