-- ==== Sys2Proof/Machine/Ports.lean ====
section
/-! DEFINITION. The host interface (44_host_commands R210 to R213): register port, buffer port, command port, the reset event
(70_reset_and_hazards R270), the pseudo-operations (30_encoding R93), and which moves of which agents are enabled
(10_state R20). -/

namespace Sys2Proof.Machine

/-- The capacity of a buffer (00_scope R11). -/
def capacity (p : Params) : Buf → Nat
  | .tbuf => p.tcap
  | .wbuf => p.wcap
  | .xbuf => p.xcap
  | .ybuf => p.ycap

/-- `WRCR` as the hardware takes it (44_host_commands R211): ignored while BUSY. -/
def hostWrcr (i v : Word) (s : State) : State := if s.status.busy then s else writeCR s i v

/-- `RDCR` (44_host_commands R212): allowed at any time, changes nothing of the block. -/
def hostRdcr (i : Word) (s : State) : State := { s with readData := some (.w32 (readCR s i)) }

/-- `ST` to a buffer (44_host_commands R213): ignored at or beyond the capacity; undefined while BUSY (93 U5, log 11). -/
def hostStore (b : Buf) (i : Nat) (stored : State) (s : State) : Host.Outcome State Fault Refusal :=
  if s.status.busy then .fault .hostMoveWhileBusy
  else if i < capacity s.cfg b then .next stored
  else .next s

/-- Element `i` of a buffer as the buffer port returns it. -/
def loadElement (b : Buf) (i : Nat) (s : State) : Except Fault PortData :=
  match b with
  | .tbuf => (readElement (.buffer .tbuf) s.tbuf i).map .w8
  | .wbuf => (readElement (.buffer .wbuf) s.wbuf i).map .w32
  | .xbuf => (readElement (.buffer .xbuf) s.xbuf i).map .w32
  | .ybuf => (readElement (.buffer .ybuf) s.ybuf i).map .w32

/-- `LD` (44_host_commands R213): a fault at or beyond the capacity, on an element that holds no value, and while BUSY
(93 U13, U4, U5). -/
def hostLoad (b : Buf) (i : Nat) (s : State) : Host.Outcome State Fault Refusal :=
  if s.status.busy then .fault .hostMoveWhileBusy
  else if i < capacity s.cfg b then
    match loadElement b i s with
    | .error f => .fault f
    | .ok d => .next { s with readData := some d }
  else .fault (.beyondCapacity b i)

/-- The reset event (70_reset_and_hazards R270): everything the spec gives the machine at its reset value. The instance keeps its
parameters; the coming inputs, the schedule and the draws are the model's and go on (log 14). -/
def resetEvent (s : State) : State :=
  { State.reset with inbox := s.inbox, pick := s.pick, draws := s.draws, cfg := s.cfg, readData := s.readData }

/-- A word at the command port: decoded, then its command, or the illegal command (44_host_commands R214). -/
def runCommand (w : Word) (s : State) : Host.Outcome State Fault Refusal :=
  match decode w with
  | .ok i => exec i s
  | .error _ => .next (illegalCommand w s)

/-- What the block does with one transaction of the host, or with the reset event, on the state whose `inbox` no longer holds it
(44_host_commands R210). Whether the host may make the move at all is `moveOffered`.
A `WAIT` that reads BUSY = 1 stays the next input (30_encoding R93; log 15). -/
def runInput (inp : Input) (s : State) : Host.Outcome State Fault Refusal :=
  match inp with
  | .wrcr i v => .next (hostWrcr i v s)
  | .rdcr i => .next (hostRdcr i s)
  | .stT i v => hostStore .tbuf i { s with tbuf := Memory.write s.tbuf i v } s
  | .stW i v => hostStore .wbuf i { s with wbuf := Memory.write s.wbuf i v } s
  | .stX i v => hostStore .xbuf i { s with xbuf := Memory.write s.xbuf i v } s
  | .stY i v => hostStore .ybuf i { s with ybuf := Memory.write s.ybuf i v } s
  | .ld b i => hostLoad b i s
  | .command w => runCommand w s
  | .wait =>
    let polled := hostRdcr 6 s
    if s.status.busy then .next { polled with inbox := .wait :: polled.inbox } else .next polled
  | .reset => .next (resetEvent s)

/-- `FILL TBUF, v0, v1, ...` (30_encoding R93). -/
def fillT (vs : List Byte) : List Input := vs.mapIdx fun i v => .stT i v

/-- `FILL WBUF, ...` (30_encoding R93). -/
def fillW (vs : List Word) : List Input := vs.mapIdx fun i v => .stW i v

/-- `FILL XBUF, ...` (30_encoding R93). -/
def fillX (vs : List F32) : List Input := vs.mapIdx fun i v => .stX i v

/-- `FILL YBUF, ...` (30_encoding R93). -/
def fillY (vs : List F32) : List Input := vs.mapIdx fun i v => .stY i v

/-- `DIMS r, c, w` (30_encoding R93). -/
def dims (r c w : Word) : List Input := [.wrcr 0 r, .wrcr 1 c, .wrcr 2 w]

/-- The host may make this move while BUSY = 1: `RDCR`, `WAIT`, which is made of it, and the reset event, which is the
environment's; no register write, no buffer access, no command (44_host_commands R219, R212). -/
def Input.allowedWhileBusy : Input → Bool
  | .wrcr _ _ => false
  | .rdcr _ => true
  | .stT _ _ => false
  | .stW _ _ => false
  | .stX _ _ => false
  | .stY _ _ => false
  | .ld _ _ => false
  | .command _ => false
  | .wait => true
  | .reset => true

/-- The interface offers the move in this state (44_host_commands R219). -/
def moveOffered (inp : Input) (s : State) : Bool := !s.status.busy || inp.allowedWhileBusy

/-- The invocation surface of the source as host transactions (44_host_commands R217), up to the read of STATUS. The spec names
no word for `WLEN` in two cases, and RUNMV ends in DimensionMismatch there whatever is written (DESIGN CHOICE, log 25): where
`R * WPR` needs more than 32 bits this sequence writes the low 32 bits, and where `W < 2`, so that `K` is 0 and `WPR` has no
value (00_scope R6), it writes 0. -/
def invocation (R C W : Word) (ws : List Word) (xs : List F32) : List Input :=
  fillW ws ++ fillX xs ++ dims R C W ++
    [.wrcr 4 (BitVec.ofNat 32 (R.toNat * wordsPerRow W.toNat C.toNat)), .wrcr 5 C, .command (encode .runmv), .wait, .rdcr 6]

/-- The host's reading of the output vector after DONE (44_host_commands R217). -/
def readOutput (R : Nat) : List Input := (List.range R).map fun r => .ld .ybuf r

/-- A move of one agent (10_state R20). -/
inductive Move where
  | input
  | lane (g l : Nat)
  | release (g : Nat)
  | complete
deriving DecidableEq, Repr

/-- The move is enabled: an input is waiting; the lane has a micro-step; the barrier is full; the dispatch is finished. -/
def moveEnabled (s : State) : Move → Bool
  | .input => !s.inbox.isEmpty
  | .lane g l =>
    match s.engine with
    | none => false
    | some e =>
      match e.groups[g]? with
      | none => false
      | some wg =>
        match wg.lanes[l]? with
        | none => false
        | some ln => ln.pos.canStep
  | .release g =>
    match s.engine with
    | none => false
    | some e =>
      match e.groups[g]? with
      | none => false
      | some wg => wg.allArrived (shapeOf s.cfg e)
  | .complete =>
    match s.engine with
    | none => false
    | some e => e.finished

/-- The moves the agents of this state could ever take, the host's first. -/
def candidateMoves (s : State) : List Move :=
  .input ::
    match s.engine with
    | none => []
    | some e =>
      ((List.range e.groups.length).flatMap fun g =>
        .release g :: (List.range (laneCount s.cfg)).map fun l => .lane g l) ++ [.complete]

/-- The enabled moves, an input first (10_state R20). -/
def enabledMoves (s : State) : List Move := (candidateMoves s).filter (moveEnabled s)

/-- The move taken next: the one `pick` says, counted round the enabled moves; none when nothing is enabled (log 2). -/
def nextMove (s : State) : Option Move := (enabledMoves s)[s.pick % (enabledMoves s).length]?

/-- The draws of a step: the next `pick`, and a fresh draw number (logs 2, 3). -/
def drawNext (s : State) : State := { s with pick := Config.schedule s.draws, draws := s.draws + 1 }

/-- The next input taken off `inbox` and run; a move that the interface does not offer is a fault (44_host_commands R219,
93 U5; log 11). -/
def takeInput (s : State) : Host.Outcome State Fault Refusal :=
  match s.inbox with
  | [] => .next s
  | inp :: rest => if moveOffered inp s then runInput inp { s with inbox := rest } else .fault .hostMoveWhileBusy

/-- One move (10_state R20). -/
def performMove (m : Move) (s : State) : Host.Outcome State Fault Refusal :=
  match m with
  | .input => takeInput s
  | .lane g l => laneMove g l s
  | .release g => .next (releaseMove g s)
  | .complete => .next (completeRun s)

/-- The state whose next step is the write of the command word `w` to the command port (log 18). -/
def placeCommand (w : Word) (s : State) : State := { s with inbox := .command w :: s.inbox, pick := 0 }

end Sys2Proof.Machine
end

