-- ==== Sys2Proof/Machine/Step.lean ====
section
/-! DEFINITION. One step of the machine: the enabled move that `pick` says, on the state with fresh draws; nothing when no agent
has an enabled move, since an idle block waits for the host (60_exceptions R256; log 20). -/

namespace Sys2Proof.Machine

/-- One step. -/
def step (s : State) : Host.Outcome State Fault Refusal :=
  match nextMove s with
  | none => .next s
  | some m => performMove m (drawNext s)

/-- `s` with the command word whose bits are `w` (those above `nbits` zero) as the next transaction, taken by the next step. -/
def State.withFetchWord (s : State) (nbits w : Nat) : State := placeCommand (BitVec.ofNat 32 (w % 2 ^ nbits)) s

end Sys2Proof.Machine
end

