-- ==== Sys2Proof/Machine/Stream.lean ====
section
/-! DEFINITION. Words at a byte-stream boundary outside the block (20_memory R55, R69): the only place where the instance's
`BYTE_ORDER` is used. No command and no engine step uses this file (93 U11). -/

namespace Sys2Proof.Machine

/-- Byte `b` of a word: `w[8b+7 : 8b]` (20_memory R55). -/
def wordByte (w : Word) (b : Nat) : Byte := (w >>> (8 * b)).setWidth 8

/-- The bytes of a word of width `W`, a multiple of 8, in stream order (20_memory R55). -/
def streamBytes (order : ByteOrder) (W : Nat) (w : Word) : List Byte :=
  let low := (List.range (W / 8)).map (wordByte w)
  match order with
  | .little => low
  | .big => low.reverse

/-- The word whose little-endian bytes are the listed ones. -/
def wordOfLowBytes : List Byte → Word
  | [] => 0
  | b :: bs => b.setWidth 32 ||| wordOfLowBytes bs <<< 8

/-- The word that the bytes of a stream stand for (20_memory R55). -/
def wordOfStream (order : ByteOrder) (bs : List Byte) : Word :=
  match order with
  | .little => wordOfLowBytes bs
  | .big => wordOfLowBytes bs.reverse

/-- The body of a packed weight file: the words of `WBUF` in index order, each serialised (20_memory R69). -/
def fileBody (p : Params) (W : Nat) (ws : List Word) : List Byte := ws.flatMap (streamBytes p.byteOrder W)

end Sys2Proof.Machine
end

