-- ==== Sys2Proof/Machine/Reference.lean ====
section
/-! DEFINITION. What the engine must compute, as pure functions: the reference kernel `RefMV` (42_reference_kernel R160), the
closed form of RUNMV's result (43_parallel_kernel R185), and the harness comparison (42_reference_kernel R164), which is outside
the block. All take the float addition as an argument. -/

namespace Sys2Proof.Machine

/-- `fadd` of an instance with one fixed quiet NaN for every NaN result; NaN patterns apart, the engine's additions are these
(42_reference_kernel R166). -/
def plainAdd (ad : Adder) : F32 → F32 → F32 := fadd ad 0x7FC00000#32

/-- One step of the reference kernel: add, subtract or skip (42_reference_kernel R160). -/
def refStep (add : F32 → F32 → F32) (acc : F32) (wgt : Int) (x : F32) : F32 :=
  if wgt = 1 then add acc x
  else if wgt = -1 then add acc (fneg x)
  else acc

/-- The weight of row `r`, column `c` of a packed matrix, by the codec's unpack (42_reference_kernel R160, 20_memory R51). -/
def weightAt (W C : Nat) (ws : List Word) (r c : Nat) : Int :=
  let K := codesPerWord W
  (unpackWord W (lowWord W (ws.getD (r * wordsPerRow W C + c / K) 0))).getD (c % K) 0

/-- Row `r` of `RefMV`: left to right over the columns, from +0.0 (42_reference_kernel R160, R161). -/
def refRow (add : F32 → F32 → F32) (W C : Nat) (ws : List Word) (xs : List F32) (r : Nat) : F32 :=
  (List.range C).foldl (fun acc c => refStep add acc (weightAt W C ws r c) (xs.getD c f32PosZero)) f32PosZero

/-- `RefMV`, the reference ternary matrix-vector product (42_reference_kernel R160). -/
def refMV (add : F32 → F32 → F32) (W R C : Nat) (ws : List Word) (xs : List F32) : Except ErrorKind (List F32) :=
  if widthBad W || ws.length ≠ R * wordsPerRow W C || xs.length ≠ C then .error .dimensionMismatch
  else .ok ((List.range R).map (refRow add W C ws xs))

/-- `J(l)`: the words of a row that lane `l` takes, ascending (43_parallel_kernel R185). -/
def laneWords (sh : Shape) (l : Nat) : List Nat :=
  (List.range sh.rowWords).filter fun j => j % sh.tileWords % sh.lanes = l

/-- `P(r, l)`: lane `l`'s partial sum over its words, ascending, and the slots of each word, ascending
(43_parallel_kernel R185). `row j` is word `j` of the row and `x c` input element `c`, +0.0 beyond the vector. -/
def lanePartial (add : F32 → F32 → F32) (sh : Shape) (row : Nat → Word) (x : Nat → F32) (l : Nat) : F32 :=
  (laneWords sh l).foldl
    (fun acc j => (List.range sh.codes).foldl (fun a k => accStep add a (row j) k (x (j * sh.codes + k))) acc)
    f32PosZero

/-- `red_m[l]` of the stride-halving tree over `2 ^ laneLog` partial sums (43_parallel_kernel R185); an element at or beyond the
stride keeps its value (R181). -/
def treeLevel (add : F32 → F32 → F32) (laneLog : Nat) (P : Nat → F32) : Nat → Nat → F32
  | 0, l => P l
  | m + 1, l =>
    let s := 2 ^ laneLog / 2 ^ (m + 1)
    if l < s then add (treeLevel add laneLog P m l) (treeLevel add laneLog P m (l + s))
    else treeLevel add laneLog P m l

/-- `ParRow(r)`: the value RUNMV gives an output element, from the row's words and the input vector
(43_parallel_kernel R185, R186). -/
def parRow (add : F32 → F32 → F32) (sh : Shape) (row : Nat → Word) (x : Nat → F32) : F32 :=
  treeLevel add sh.laneLog (lanePartial add sh row x) sh.laneLog 0

/-- Word `j` of row `r` as the engine sees it (20_memory R50, R51). -/
def rowWord (sh : Shape) (wbuf : Memory 32) (r j : Nat) : Word :=
  lowWord sh.width ((Memory.read wbuf (r * sh.rowWords + j)).getD 0)

/-- Input element `c`, +0.0 beyond the vector (43_parallel_kernel R185). -/
def inputElement (sh : Shape) (xbuf : Memory 32) (c : Nat) : F32 :=
  if c < sh.cols then (Memory.read xbuf c).getD f32PosZero else f32PosZero

/-- The big-step form (43_parallel_kernel R186): `ParRow(r)` on the buffers of a state. -/
def expectedOutput (s : State) (sh : Shape) (r : Nat) : F32 :=
  parRow (plainAdd s.cfg.adder) sh (rowWord sh s.wbuf r) (inputElement sh s.xbuf)

/-- The exact value of a finite pattern. -/
def f32Value (x : F32) : Rat := (f32Units x : Rat) / 2 ^ 149

/-- Two output elements agree within the tolerance (42_reference_kernel R164); on an infinity the spec states nothing (log 19). -/
def withinTolerance (epsAbs epsRel : Rat) (ref par : F32) : Bool :=
  if isNaN ref || isNaN par then false
  else if isInf ref || isInf par then Config.harnessOnInfinity ref par
  else decide (|f32Value ref - f32Value par| ≤ epsAbs + epsRel * |f32Value ref|)

/-- The harness comparison of two output vectors (42_reference_kernel R164): PASS or FAIL; vectors of different lengths FAIL. -/
def harnessPass (epsAbs epsRel : Rat) (ref par : List F32) : Bool :=
  ref.length = par.length && (ref.zip par).all fun p => withinTolerance epsAbs epsRel p.1 p.2

end Sys2Proof.Machine
end

