-- ==== Sys2Proof/Safety.lean ====
section
/-! DEFINITION. What a safe run is (60_exceptions R257, 70_reset_and_hazards R280), the premises of a launch (R281), and the
invariants that statements are made of: of STATUS, of the buffers, of the control state of a dispatch, and of the values a
dispatch holds. -/

set_option autoImplicit false

namespace Sys2Proof.Machine

/-! ### Runs -/

/-- A run has ended: no host move is left and no dispatch is in progress (70_reset_and_hazards R280). The spec does not say how
a reset event that still waits after the host's last step counts, since the event is the environment's (R270); here it belongs
to the run, which is over only when it is taken and then ends in the state it leaves (DESIGN CHOICE, log 26). -/
def State.ended (s : State) : Bool := s.inbox.isEmpty && !s.status.busy

/-- The run is good: it has ended with ERR = 0 (70_reset_and_hazards R280). The other two ways of going wrong, a read of an
element that holds no value and a host move that the interface does not offer, are faults and give no state
(60_exceptions R257). -/
def State.good (s : State) : Bool := s.ended && !s.status.err

/-- The first `n` steps of a run; a stop ends it. -/
def runFor : Nat → State → Host.Outcome State Fault Refusal
  | 0, s => .next s
  | n + 1, s =>
    match step s with
    | .next t => runFor n t
    | .fault f => .fault f
    | .refused r => .refused r

/-- The premises of a claim about RUNMV (70_reset_and_hazards R281). -/
structure LaunchReady (s : State) : Prop where
  idle : s.status.busy = false
  noError : s.status.err = false
  noRun : s.engine = none
  checks : runmvCheck s = none
  words : Memory.filled s.wbuf 0 (s.rows.toNat * wordsPerRow s.width.toNat s.cols.toNat) = true
  inputs : Memory.filled s.xbuf 0 s.cols.toNat = true

/-- The state in which a command that is given it ends with the error `code` and the information `info`: STATUS and EINFO as the
error entry leaves them, all else as it was (60_exceptions R248). -/
def errorState (code : BitVec 4) (info : Word) (s : State) : State :=
  { s with status := { busy := false, done := false, err := true, ecode := code }, einfo := info }

/-- The state in which PACK, UNPACK or PACKM ends without error, with the buffers it leaves: DONE set, BUSY and ERR clear
(10_state R32). -/
def doneState (tbuf : Memory 8) (wbuf : Memory 32) (s : State) : State :=
  { s with status := { busy := false, done := true, err := false, ecode := s.status.ecode }, tbuf := tbuf, wbuf := wbuf }

/-- A raw pattern that PACK and PACKM take: `0xFF`, `0x00` or `0x01` (30_encoding R87). -/
def rawOk (b : Byte) : Prop := b = 0xFF#8 ∨ b = 0x00#8 ∨ b = 0x01#8

/-- The code of a raw pattern: 10 for `0xFF`, 01 for `0x01`, else 00 (30_encoding R80, R87). -/
def rawCode (b : Byte) : Code := if b = 0xFF#8 then 0b10#2 else if b = 0x01#8 then 0b01#2 else 0b00#2

/-- The raw pattern of a code: `0x01` for 01, `0xFF` for 10, else `0x00` (30_encoding R80, R81, R87). -/
def codeRaw (c : Code) : Byte := if c = 0b01#2 then 0x01#8 else if c = 0b10#2 then 0xFF#8 else 0x00#8

/-! ### STATUS and the buffers -/

/-- The error codes the block sets (60_exceptions R240). -/
def raisedCodes : List (BitVec 4) := [1, 2, 3, 15]

/-- STATUS and EINFO (10_state R30, R31; 60_exceptions R240): at most one of BUSY, DONE, ERR; no code and no information
without an error; with one, a code the block sets; BUSY exactly while a dispatch exists. -/
structure StatusInv (s : State) : Prop where
  busyNotDone : s.status.busy = true → s.status.done = false
  busyNotErr : s.status.busy = true → s.status.err = false
  doneNotErr : s.status.done = true → s.status.err = false
  noErrNoCode : s.status.err = false → s.status.ecode = 0
  noErrNoInfo : s.status.err = false → s.einfo = 0
  errCode : s.status.err = true → s.status.ecode ∈ raisedCodes
  busyRun : s.status.busy = s.engine.isSome

/-- A memory in canonical form with every element below its capacity (20_memory R60). -/
def Memory.within {w : Nat} (m : Memory w) (cap : Nat) : Bool := Memory.wf m && Memory.below m cap

/-- The four buffers are in canonical form and within their capacities (20_memory R60). -/
structure BufferInv (s : State) : Prop where
  tbuf : Memory.within s.tbuf s.cfg.tcap = true
  wbuf : Memory.within s.wbuf s.cfg.wcap = true
  xbuf : Memory.within s.xbuf s.cfg.xcap = true
  ybuf : Memory.within s.ybuf s.cfg.ycap = true

/-! ### The control state of a dispatch -/

/-- The bounds of 10_state R22 on a position of lane `l`, with the share of the lane (43_parallel_kernel R175, R177, R182). -/
def Pos.legal (sh : Shape) (l : Nat) : Pos → Bool
  | .init => true
  | .load t i => t < sh.tiles && i < sh.tile && i % sh.lanes = l
  | .barLoad t => t < sh.tiles
  | .acc t jw k =>
    t < sh.tiles && jw < sh.tileWords && jw % sh.lanes = l && t * sh.tileWords + jw < sh.rowWords && k < sh.codes
  | .barAcc t => t < sh.tiles
  | .publish => true
  | .barPub => true
  | .red s => (List.range sh.laneLog).any fun j => 2 ^ j = s
  | .barRed s => (List.range sh.laneLog).any fun j => 2 ^ j = s
  | .write => l = 0
  | .exit => true

/-- How many barrier instances a lane at this position has passed (43_parallel_kernel R184 a): `2*NT + 1 + log2 L` at the end. -/
def Pos.barriersPassed (sh : Shape) : Pos → Nat
  | .init => 0
  | .load t _ => 2 * t
  | .barLoad t => 2 * t
  | .acc t _ _ => 2 * t + 1
  | .barAcc t => 2 * t + 1
  | .publish => 2 * sh.tiles
  | .barPub => 2 * sh.tiles
  | .red s => 2 * sh.tiles + (sh.laneLog - Nat.log2 s)
  | .barRed s => 2 * sh.tiles + (sh.laneLog - Nat.log2 s)
  | .write => 2 * sh.tiles + 1 + sh.laneLog
  | .exit => 2 * sh.tiles + 1 + sh.laneLog

/-- A lane is where its workgroup is: a legal position, past exactly as many barriers as the workgroup has released, with an
accumulator from INIT on (20_memory R65, 10_state R33). -/
structure LaneControl (sh : Shape) (gen l : Nat) (ln : Lane) : Prop where
  legal : ln.pos.legal sh l = true
  phase : ln.pos.barriersPassed sh = gen
  started : ln.pos = .init ∨ ln.acc.isSome = true

/-- The control state of a workgroup: `L` lanes, `arrived` exactly the lanes at a barrier, memories within bounds
(10_state R34, 20_memory R65). -/
structure GroupControl (sh : Shape) (wg : Workgroup) : Prop where
  lanes : wg.lanes.length = sh.lanes
  arrived : wg.arrived = lanesAtBarrier wg.lanes
  tile : Memory.within wg.shmX sh.tile = true
  scratch : Memory.within wg.shmR sh.lanes = true
  each : ∀ (l : Nat) (ln : Lane), wg.lanes[l]? = some ln → LaneControl sh wg.gen l ln

/-- The control state of a dispatch: the latched dimensions are those of the control registers, which pass the checks
(10_state R37, 60_exceptions R242), and every row has its workgroup (43_parallel_kernel R171). -/
structure RunControl (s : State) (e : EngineRun) : Prop where
  rows : e.rows = s.rows.toNat
  cols : e.cols = s.cols.toNat
  width : e.width = s.width.toNat
  checks : runmvCheck s = none
  groups : e.groups.length = e.rows
  each : ∀ (g : Nat) (wg : Workgroup), e.groups[g]? = some wg → GroupControl (shapeOf s.cfg e) wg

/-- The invariant of the machine's control state: STATUS, the buffers, and the dispatch when there is one. -/
structure ControlInv (s : State) : Prop where
  status : StatusInv s
  buffers : BufferInv s
  run : ∀ e, s.engine = some e → RunControl s e

/-- What a workgroup's control is made of: its lanes' positions, who waits, how many releases there have been. -/
def Workgroup.controlState (wg : Workgroup) : List Pos × List Nat × Nat := (wg.lanes.map Lane.pos, wg.arrived, wg.gen)

/-- The control state of a dispatch, without what any memory or accumulator holds (41_decode_select R148). -/
def State.controlState (s : State) : Option (Nat × Nat × Nat × List (List Pos × List Nat × Nat)) :=
  s.engine.map fun e => (e.rows, e.cols, e.width, e.groups.map Workgroup.controlState)

/-! ### The values of a dispatch -/

/-- Two float patterns agree: they are equal, or the adder is the default and both are NaNs (42_reference_kernel R166: apart from
NaN payloads). -/
def F32.agrees (ad : Adder) (a b : F32) : Prop := a = b ∨ (ad = .ieee ∧ isNaN a = true ∧ isNaN b = true)

/-- Lane `l`'s sum over the code slots of a row below slot `n` that are its own, in ascending order: a part of `P(r, l)`
(43_parallel_kernel R177, R185). -/
def slotSum (add : F32 → F32 → F32) (sh : Shape) (row : Nat → Word) (x : Nat → F32) (l : Nat) : Nat → F32
  | 0 => f32PosZero
  | n + 1 =>
    let j := n / sh.codes
    if j < sh.rowWords ∧ j % sh.tileWords % sh.lanes = l then
      accStep add (slotSum add sh row x l n) (row j) (n % sh.codes) (x n)
    else slotSum add sh row x l n

/-- The slots of the row a lane at this position has dealt with: all below this one. -/
def Pos.slotsDone (sh : Shape) : Pos → Nat
  | .init => 0
  | .load t _ => t * sh.tile
  | .barLoad t => t * sh.tile
  | .acc t jw k => (t * sh.tileWords + jw) * sh.codes + k
  | .barAcc t => (t + 1) * sh.tile
  | _ => sh.rowWords * sh.codes

/-- What the tile holds as far as lane `l` answers for it (20_memory R54, 43_parallel_kernel R175, R176): its own loads during the
load phase, the whole tile during the accumulate phase. -/
def TileHolds (sh : Shape) (x : Nat → F32) (shmX : Memory 32) (l : Nat) : Pos → Prop
  | .load t i => ∀ i', i' < i → i' % sh.lanes = l → Memory.read shmX i' = some (x (t * sh.tile + i'))
  | .barLoad t => ∀ i', i' < sh.tile → i' % sh.lanes = l → Memory.read shmX i' = some (x (t * sh.tile + i'))
  | .acc t _ _ => ∀ i', i' < sh.tile → Memory.read shmX i' = some (x (t * sh.tile + i'))
  | .barAcc t => ∀ i', i' < sh.tile → Memory.read shmX i' = some (x (t * sh.tile + i'))
  | _ => True

/-- How many steps of the tree element `l` of the scratch has behind it, once it is published (43_parallel_kernel R181). -/
def Pos.treeSteps (sh : Shape) : Pos → Option Nat
  | .barPub => some 0
  | .red s => some (sh.laneLog - 1 - Nat.log2 s)
  | .barRed s => some (sh.laneLog - Nat.log2 s)
  | .write => some sh.laneLog
  | .exit => some sh.laneLog
  | _ => none

/-- The values lane `l` of a workgroup answers for: its accumulator, its part of the tile, its element of the scratch
(43_parallel_kernel R184, R185). -/
structure LaneValues (ad : Adder) (sh : Shape) (row : Nat → Word) (x : Nat → F32) (wg : Workgroup) (l : Nat) (ln : Lane) :
    Prop where
  acc : ∀ a, ln.acc = some a → F32.agrees ad a (slotSum (plainAdd ad) sh row x l (ln.pos.slotsDone sh))
  tile : TileHolds sh x wg.shmX l ln.pos
  scratch : ∀ m, ln.pos.treeSteps sh = some m →
    ∃ v, Memory.read wg.shmR l = some v ∧
      F32.agrees ad v (treeLevel (plainAdd ad) sh.laneLog
        (fun l' => slotSum (plainAdd ad) sh row x l' (sh.rowWords * sh.codes)) m l)

/-- The values of workgroup `g`: every lane's, and the output element once lane 0 is at EXIT (43_parallel_kernel R182). -/
structure GroupValues (s : State) (sh : Shape) (g : Nat) (wg : Workgroup) : Prop where
  each : ∀ (l : Nat) (ln : Lane), wg.lanes[l]? = some ln →
    LaneValues s.cfg.adder sh (rowWord sh s.wbuf g) (inputElement sh s.xbuf) wg l ln
  written : ∀ ln : Lane, wg.lanes[0]? = some ln → ln.pos = .exit →
    ∃ v, Memory.read s.ybuf g = some v ∧
      F32.agrees s.cfg.adder v (treeLevel (plainAdd s.cfg.adder) sh.laneLog
        (fun l => slotSum (plainAdd s.cfg.adder) sh (rowWord sh s.wbuf g) (inputElement sh s.xbuf) l
          (sh.rowWords * sh.codes)) sh.laneLog 0)

/-- The invariant of the machine's values: the control invariant, and every workgroup's values. -/
structure ValueInv (s : State) : Prop where
  control : ControlInv s
  values : ∀ e, s.engine = some e → ∀ (g : Nat) (wg : Workgroup), e.groups[g]? = some wg → GroupValues s (shapeOf s.cfg e) g wg

/-! ### The work left in a dispatch (43_parallel_kernel R191) -/

/-- An upper bound on the micro-steps a lane still has before its next barrier or its end. -/
def Pos.stepsInPhase (sh : Shape) : Pos → Nat
  | .init => sh.tile + 2
  | .load _ i => sh.tile - i + 1
  | .acc _ jw k => (sh.tileWords - jw) * sh.codes - k
  | .publish => 1
  | .red _ => 1
  | .write => 1
  | _ => 0

/-- A bound on the work a lane at this position has left: every micro-step and every release lowers it. -/
def Pos.workLeft (sh : Shape) (p : Pos) : Nat :=
  (2 * sh.tiles + 1 + sh.laneLog - p.barriersPassed sh) * (sh.tile + 3) + p.stepsInPhase sh

/-- A bound on the work a dispatch has left. -/
def EngineRun.workLeft (sh : Shape) (e : EngineRun) : Nat :=
  (e.groups.map fun wg => (wg.lanes.map fun ln => ln.pos.workLeft sh).sum).sum

/-- A bound on the work left in a state: none without a dispatch, one more than the lanes' with one (the completion step). -/
def State.workLeft (s : State) : Nat :=
  match s.engine with
  | none => 0
  | some e => e.workLeft (shapeOf s.cfg e) + 1

end Sys2Proof.Machine
end

