-- ==== Sys2Proof/Certificates/Slice0/Obligations.lean ====
section
/-! DEFINITION. The statements for the provers, each about the machine for every state (or every state that meets the invariant it
names). Rules are those of spec/. -/

set_option autoImplicit false

open Sys2Proof Sys2Proof.Machine

/-! ### Commands: encoding, acceptance, results -/

/-- 30_encoding R89, R90: the decoder accepts exactly the six words of the opcode map, each as its own command, and refuses
every other word. -/
def Obligations.DecodeAcceptsExactlySixWords : Prop :=
  (∀ (w : Word) (i : Instr), decode w = .ok i ↔ w = encode i) ∧
  encode .nop = 0x00000000#32 ∧ encode .pack = 0x00000001#32 ∧ encode .unpack = 0x00000002#32 ∧
  encode .packm = 0x00000003#32 ∧ encode .runmv = 0x00000004#32 ∧ encode .clrst = 0x00000005#32 ∧
  ∀ w : Word, (∃ e, decode w = .error e) ↔ (w.toNat / 16 ≠ 0 ∨ 6 ≤ w.toNat % 16)

/-- 30_encoding R89: words of the table and illegal neighbours, written out (95_test_vectors V34, V35). -/
def Obligations.WrittenOutWordsDecode : Prop :=
  decode 0x00000001#32 = .ok .pack ∧ decode 0x00000004#32 = .ok .runmv ∧ decode 0x00000005#32 = .ok .clrst ∧
  decode 0x00000006#32 = .error .reservedOp ∧ decode 0x00000011#32 = .error .zeroFieldSet

/-- The step takes the next transaction off the host's list and, when it is a command word that decodes to `i`, runs `exec i` on
the state with fresh draws (log 18). While BUSY the interface offers no command, and the step faults (log 11). -/
def Obligations.StepRunsDecodedCommand : Prop :=
  ∀ (s : State) (w : Word) (i : Instr) (rest : List Input),
    s.inbox = .command w :: rest → nextMove s = some .input → decode w = .ok i →
    (s.status.busy = false → step s = exec i { drawNext s with inbox := rest }) ∧
    (s.status.busy = true → step s = .fault .hostMoveWhileBusy)

/-- A command placed by `withFetchWord` is what the very next step runs, in every state in which the interface offers a command
(log 18); while BUSY it offers none, and the step faults (log 11). -/
def Obligations.PlacedCommandRunsNext : Prop :=
  ∀ (s : State) (i : Instr),
    step (s.withFetchWord 32 (encode i).toNat) =
      if s.status.busy then .fault .hostMoveWhileBusy
      else exec i { s with pick := Config.schedule s.draws, draws := s.draws + 1 }

/-- 44_host_commands R214, 60_exceptions R245: what a word at the command port does. While BUSY nothing (the hardware's
answer; the host has no such move then, see HostMoveWhileBusyFaults); an illegal word raises
IllegalCommand with the word as information, or does nothing while an error stands; NOP and CLRST act even then; the four
operation commands do nothing while an error stands, else they run with DONE cleared. -/
def Obligations.CommandAcceptance : Prop :=
  ∀ (s : State) (w : Word),
    (s.status.busy = true → runCommand w s = .next s) ∧
    (s.status.busy = false →
      ((w.toNat / 16 ≠ 0 ∨ 6 ≤ w.toNat % 16) →
        runCommand w s = if s.status.err then .next s else .next (errorState 15 w s)) ∧
      (w = 0x00000000#32 → runCommand w s = .next s) ∧
      (w = 0x00000005#32 →
        runCommand w s =
          .next { s with status := { busy := false, done := false, err := false, ecode := 0 }, einfo := 0 }) ∧
      ∀ i ∈ [Instr.pack, .unpack, .packm, .runmv], w = encode i →
        (s.status.err = true → runCommand w s = .next s) ∧
        (s.status.err = false →
          runCommand w s = exec i s ∧ exec i s = exec i { s with status := { s.status with done := false } }))

/-- 44_host_commands R215: NOP changes nothing, in any state. -/
def Obligations.NopChangesNothing : Prop := ∀ s : State, exec .nop s = .next s

/-- 44_host_commands R216: CLRST clears DONE, ERR, ECODE and EINFO and changes nothing else; it is not accepted while BUSY. -/
def Obligations.ClrstClearsStatus : Prop :=
  ∀ s : State,
    (s.status.busy = false →
      exec .clrst s =
        .next { s with status := { busy := false, done := false, err := false, ecode := 0 }, einfo := 0 }) ∧
    (s.status.busy = true → exec .clrst s = .next s)

/-- 60_exceptions R242: the dimension checks of the four operations, in order, first failure wins; the error entry leaves
everything but STATUS and EINFO as it was. -/
def Obligations.DimensionChecksInOrder : Prop :=
  ∀ s : State, s.status.busy = false → s.status.err = false →
    let W := s.width.toNat
    let K := W / 2
    let n := s.count.toNat
    let R := s.rows.toNat
    let C := s.cols.toNat
    let wlen := s.wlen.toNat
    let xlen := s.xlen.toNat
    let widthOk := 2 ≤ W ∧ W ≤ 32
    let fails := fun (i : Instr) (c : Word) => exec i s = .next (errorState 2 c s)
    (¬widthOk → fails .pack 1 ∧ fails .unpack 1 ∧ fails .packm 1 ∧ fails .runmv 1) ∧
    (widthOk →
      (s.cfg.tcap < n → fails .pack 2) ∧
      (n ≤ s.cfg.tcap → s.cfg.wcap < divCeil n K → fails .pack 4) ∧
      ((wlen < divCeil n K ∨ s.cfg.wcap < wlen) → fails .unpack 2) ∧
      (divCeil n K ≤ wlen → wlen ≤ s.cfg.wcap → s.cfg.tcap < n → fails .unpack 4) ∧
      (s.cfg.tcap < R * C → fails .packm 2) ∧
      (R * C ≤ s.cfg.tcap → s.cfg.wcap < R * divCeil C K → fails .packm 4) ∧
      ((wlen ≠ R * divCeil C K ∨ s.cfg.wcap < wlen) → fails .runmv 2) ∧
      (wlen = R * divCeil C K → wlen ≤ s.cfg.wcap → (xlen ≠ C ∨ s.cfg.xcap < xlen) → fails .runmv 3) ∧
      (wlen = R * divCeil C K → wlen ≤ s.cfg.wcap → xlen = C → xlen ≤ s.cfg.xcap → s.cfg.ycap < R →
        fails .runmv 4))

/-- 40_codec R120: PACK ends with DONE and `WBUF[j]`, `j < ceil(n/K)`, holding the codes of values `j*K, j*K+1, ...`, the slots
beyond `n` and the bits above the slots zero; every other element of WBUF and everything else is unchanged. -/
def Obligations.PackStoresTheWords : Prop :=
  ∀ s : State, s.status.busy = false → s.status.err = false →
    let W := s.width.toNat
    let K := W / 2
    let n := s.count.toNat
    2 ≤ W → W ≤ 32 → n ≤ s.cfg.tcap → divCeil n K ≤ s.cfg.wcap →
    (∀ i, i < n → ∃ b, Memory.read s.tbuf i = some b ∧ rawOk b) →
    ∃ ws, exec .pack s = .next (doneState s.tbuf ws s) ∧
      (∀ j, j < divCeil n K → ∃ w, Memory.read ws j = some w ∧ w.toNat < 2 ^ (2 * K) ∧
        ∀ k, k < K →
          (∀ b, j * K + k < n → Memory.read s.tbuf (j * K + k) = some b → slotCode w k = rawCode b) ∧
          (n ≤ j * K + k → slotCode w k = 0b00#2)) ∧
      ∀ j, divCeil n K ≤ j → Memory.read ws j = Memory.read s.wbuf j

/-- 40_codec R121: UNPACK ends with DONE and `TBUF[i]`, `i < n`, holding the raw value of slot `i mod K` of `WBUF[i div K]`, code
11 as 0; every other element of TBUF and everything else is unchanged. -/
def Obligations.UnpackStoresTheValues : Prop :=
  ∀ s : State, s.status.busy = false → s.status.err = false →
    let W := s.width.toNat
    let K := W / 2
    let n := s.count.toNat
    2 ≤ W → W ≤ 32 → divCeil n K ≤ s.wlen.toNat → s.wlen.toNat ≤ s.cfg.wcap → n ≤ s.cfg.tcap →
    (∀ j, j < divCeil n K → ∃ w, Memory.read s.wbuf j = some w) →
    ∃ ts, exec .unpack s = .next (doneState ts s.wbuf s) ∧
      (∀ i w, i < n → Memory.read s.wbuf (i / K) = some w →
        Memory.read ts i = some (codeRaw (slotCode w (i % K)))) ∧
      ∀ i, n ≤ i → Memory.read ts i = Memory.read s.tbuf i

/-- 40_codec R122: PACKM ends with DONE and `WBUF[r*WPR + j]` holding the codes of row `r`, columns `j*K, j*K+1, ...`, every row
from a word boundary, padding slots zero; every other element of WBUF and everything else is unchanged. -/
def Obligations.PackmStoresTheRows : Prop :=
  ∀ s : State, s.status.busy = false → s.status.err = false →
    let W := s.width.toNat
    let K := W / 2
    let R := s.rows.toNat
    let C := s.cols.toNat
    let WPR := divCeil C K
    2 ≤ W → W ≤ 32 → R * C ≤ s.cfg.tcap → R * WPR ≤ s.cfg.wcap →
    (∀ i, i < R * C → ∃ b, Memory.read s.tbuf i = some b ∧ rawOk b) →
    ∃ ws, exec .packm s = .next (doneState s.tbuf ws s) ∧
      (∀ r j, r < R → j < WPR → ∃ w, Memory.read ws (r * WPR + j) = some w ∧ w.toNat < 2 ^ (2 * K) ∧
        ∀ k, k < K →
          (∀ b, j * K + k < C → Memory.read s.tbuf (r * C + (j * K + k)) = some b → slotCode w k = rawCode b) ∧
          (C ≤ j * K + k → slotCode w k = 0b00#2)) ∧
      ∀ i, R * WPR ≤ i → Memory.read ws i = Memory.read s.wbuf i

/-- 60_exceptions R241, 40_codec R114: a value outside {-1, 0, +1} among those PACK or PACKM reads raises InvalidValue with the
lowest offending index, and no element of WBUF, nor anything else but STATUS and EINFO, changes. An index beyond 32 bits gives
EINFO a free word (log 10). -/
def Obligations.InvalidValueStoresNothing : Prop :=
  ∀ (s : State) (i : Nat) (b : Byte), s.status.busy = false → s.status.err = false →
    let W := s.width.toNat
    let K := W / 2
    let n := s.count.toNat
    let R := s.rows.toNat
    let C := s.cols.toNat
    2 ≤ W → W ≤ 32 → Memory.read s.tbuf i = some b → ¬rawOk b →
    (∀ i', i' < i → ∃ b', Memory.read s.tbuf i' = some b' ∧ rawOk b') →
    (i < n → n ≤ s.cfg.tcap → divCeil n K ≤ s.cfg.wcap → (∀ i', i' < n → (Memory.read s.tbuf i').isSome = true) →
      exec .pack s = .next (errorState 1 (BitVec.ofNat 32 i) s)) ∧
    (i < R * C → R * C ≤ s.cfg.tcap → R * divCeil C K ≤ s.cfg.wcap →
      (∀ i', i' < R * C → (Memory.read s.tbuf i').isSome = true) →
      ∃ info, exec .packm s = .next (errorState 1 info s) ∧ (i < 2 ^ 32 → info = BitVec.ofNat 32 i))

/-- 10_state R39: PACK, PACKM and UNPACK stop on the lowest source element that holds no value, whatever the values before it are
(that this comes before InvalidValue is log 22). -/
def Obligations.MissingSourceElementFaults : Prop :=
  ∀ (s : State) (i : Nat), s.status.busy = false → s.status.err = false →
    let W := s.width.toNat
    let K := W / 2
    let n := s.count.toNat
    let R := s.rows.toNat
    let C := s.cols.toNat
    2 ≤ W → W ≤ 32 →
    (Memory.read s.tbuf i = none → (∀ i', i' < i → (Memory.read s.tbuf i').isSome = true) →
      (i < n → n ≤ s.cfg.tcap → divCeil n K ≤ s.cfg.wcap → exec .pack s = .fault (.noValue (.buffer .tbuf) i)) ∧
      (i < R * C → R * C ≤ s.cfg.tcap → R * divCeil C K ≤ s.cfg.wcap →
        exec .packm s = .fault (.noValue (.buffer .tbuf) i))) ∧
    (Memory.read s.wbuf i = none → (∀ i', i' < i → (Memory.read s.wbuf i').isSome = true) → i < divCeil n K →
      divCeil n K ≤ s.wlen.toNat → s.wlen.toNat ≤ s.cfg.wcap → n ≤ s.cfg.tcap →
      exec .unpack s = .fault (.noValue (.buffer .wbuf) i))

/-- 43_parallel_kernel R170, R171, R187: RUNMV with its checks passed takes the `device_fail` draw. On failure ERR is set with code
3 and `YBUF[0 .. R)` hold no value; else with `R = 0` the dispatch ends at once; else BUSY is set and there are `R` workgroups of
`L` lanes at INIT that hold no value. Nothing else changes. The ending at once of an empty dispatch is log 12. -/
def Obligations.RunmvStartsTheDispatch : Prop :=
  ∀ s : State, s.status.busy = false → s.status.err = false →
    let W := s.width.toNat
    let R := s.rows.toNat
    let C := s.cols.toNat
    2 ≤ W → W ≤ 32 → s.wlen.toNat = R * divCeil C (W / 2) → s.wlen.toNat ≤ s.cfg.wcap →
    s.xlen.toNat = C → s.xlen.toNat ≤ s.cfg.xcap → R ≤ s.cfg.ycap →
    ∃ t, exec .runmv s = .next t ∧
      (Config.deviceFail s.draws = true →
        t = { errorState 3 0 s with ybuf := t.ybuf } ∧
        ∀ r, Memory.read t.ybuf r = if r < R then none else Memory.read s.ybuf r) ∧
      (Config.deviceFail s.draws = false → R = 0 →
        t = { s with status := { busy := false, done := true, err := false, ecode := s.status.ecode }, engine := none }) ∧
      (Config.deviceFail s.draws = false → R ≠ 0 →
        ∃ e, t = { s with status := { busy := true, done := false, err := false, ecode := s.status.ecode },
                          engine := some e } ∧
          e.rows = R ∧ e.cols = C ∧ e.width = W ∧ e.groups.length = R ∧
          ∀ wg ∈ e.groups, wg.shmX = [] ∧ wg.shmR = [] ∧ wg.arrived = [] ∧ wg.gen = 0 ∧
            wg.lanes.length = 2 ^ s.cfg.laneLog ∧ ∀ ln ∈ wg.lanes, ln = { pos := .init, acc := none })

/-- What PACK, UNPACK and PACKM leave unchanged in every next state: all but STATUS, EINFO and their destination buffer, of which
every element outside the destination span (40_codec R120 to R122). -/
def Obligations.FrameOfCodecCommands : Prop :=
  ∀ s t : State,
    (exec .pack s = .next t →
      t = { s with status := t.status, einfo := t.einfo, wbuf := t.wbuf } ∧
      ∀ j, divCeil s.count.toNat (s.width.toNat / 2) ≤ j → Memory.read t.wbuf j = Memory.read s.wbuf j) ∧
    (exec .unpack s = .next t →
      t = { s with status := t.status, einfo := t.einfo, tbuf := t.tbuf } ∧
      ∀ i, s.count.toNat ≤ i → Memory.read t.tbuf i = Memory.read s.tbuf i) ∧
    (exec .packm s = .next t →
      t = { s with status := t.status, einfo := t.einfo, wbuf := t.wbuf } ∧
      ∀ i, s.rows.toNat * divCeil s.cols.toNat (s.width.toNat / 2) ≤ i →
        Memory.read t.wbuf i = Memory.read s.wbuf i)

/-- What NOP, CLRST and RUNMV's own step leave unchanged in every next state (44_host_commands R215, R216; 43_parallel_kernel
R170): RUNMV changes STATUS, EINFO, the dispatch, and of YBUF at most that elements below `R` lose their value. -/
def Obligations.FrameOfStatusCommands : Prop :=
  ∀ s t : State,
    (exec .nop s = .next t → t = s) ∧
    (exec .clrst s = .next t → t = { s with status := t.status, einfo := t.einfo }) ∧
    (exec .runmv s = .next t →
      t = { s with status := t.status, einfo := t.einfo, engine := t.engine, ybuf := t.ybuf } ∧
      ∀ r, (s.rows.toNat ≤ r → Memory.read t.ybuf r = Memory.read s.ybuf r) ∧
        (Memory.read t.ybuf r = none ∨ Memory.read t.ybuf r = Memory.read s.ybuf r))

/-! ### The host interface -/

/-- 44_host_commands R211: WRCR writes the one register it names, for indices 0 to 5 and while not BUSY; otherwise nothing. -/
def Obligations.WrcrWritesOneRegister : Prop :=
  ∀ (s : State) (i v : Word),
    ∃ t, runInput (.wrcr i v) s = .next t ∧
      ((s.status.busy = true ∨ 6 ≤ i.toNat) → t = s) ∧
      (s.status.busy = false → i.toNat ≤ 5 →
        readCR t i = v ∧ (∀ k : Word, k ≠ i → readCR t k = readCR s k) ∧
        t = { s with rows := t.rows, cols := t.cols, width := t.width, count := t.count, wlen := t.wlen, xlen := t.xlen })

/-- 44_host_commands R212, 10_state R23: RDCR returns the register, 0 for an absent one, in every state, and changes nothing of
the block. -/
def Obligations.RdcrReturnsTheRegister : Prop :=
  ∀ (s : State) (i : Word),
    ∃ v, runInput (.rdcr i) s = .next { s with readData := some (.w32 v) } ∧
      (i = 0 → v = s.rows) ∧ (i = 1 → v = s.cols) ∧ (i = 2 → v = s.width) ∧ (i = 3 → v = s.count) ∧
      (i = 4 → v = s.wlen) ∧ (i = 5 → v = s.xlen) ∧ (i = 6 → v = s.status.toWord) ∧ (i = 7 → v = s.einfo) ∧
      (8 ≤ i.toNat → v = 0)

/-- 10_state R30: the fields of STATUS as the host reads them; all other bits read 0. -/
def Obligations.StatusWordLayout : Prop :=
  ∀ st : Status,
    st.toWord.getLsbD 0 = st.busy ∧ st.toWord.getLsbD 1 = st.done ∧ st.toWord.getLsbD 2 = st.err ∧
    st.toWord.extractLsb' 4 4 = st.ecode ∧ st.toWord.getLsbD 3 = false ∧ ∀ i, 8 ≤ i → st.toWord.getLsbD i = false

/-- 44_host_commands R213: ST replaces the one element it names, and is ignored at or beyond the capacity. -/
def Obligations.StoreReplacesOneElement : Prop :=
  ∀ (s : State) (i : Nat), s.status.busy = false →
    (∀ v, ∃ m, runInput (.stT i v) s = .next { s with tbuf := m } ∧
      ∀ k, Memory.read m k = if k = i ∧ i < s.cfg.tcap then some v else Memory.read s.tbuf k) ∧
    (∀ v, ∃ m, runInput (.stW i v) s = .next { s with wbuf := m } ∧
      ∀ k, Memory.read m k = if k = i ∧ i < s.cfg.wcap then some v else Memory.read s.wbuf k) ∧
    (∀ v, ∃ m, runInput (.stX i v) s = .next { s with xbuf := m } ∧
      ∀ k, Memory.read m k = if k = i ∧ i < s.cfg.xcap then some v else Memory.read s.xbuf k) ∧
    (∀ v, ∃ m, runInput (.stY i v) s = .next { s with ybuf := m } ∧
      ∀ k, Memory.read m k = if k = i ∧ i < s.cfg.ycap then some v else Memory.read s.ybuf k)

/-- 44_host_commands R213, 10_state R39: LD returns the element and changes nothing of the block; it faults at or beyond the
capacity and on an element that holds no value. -/
def Obligations.LoadReturnsTheElement : Prop :=
  ∀ (s : State) (i : Nat), s.status.busy = false →
    (s.cfg.tcap ≤ i → runInput (.ld .tbuf i) s = .fault (.beyondCapacity .tbuf i)) ∧
    (i < s.cfg.tcap → ∀ v, Memory.read s.tbuf i = some v →
      runInput (.ld .tbuf i) s = .next { s with readData := some (.w8 v) }) ∧
    (i < s.cfg.tcap → Memory.read s.tbuf i = none →
      runInput (.ld .tbuf i) s = .fault (.noValue (.buffer .tbuf) i)) ∧
    (s.cfg.ycap ≤ i → runInput (.ld .ybuf i) s = .fault (.beyondCapacity .ybuf i)) ∧
    (i < s.cfg.ycap → ∀ v, Memory.read s.ybuf i = some v →
      runInput (.ld .ybuf i) s = .next { s with readData := some (.w32 v) }) ∧
    (i < s.cfg.ycap → Memory.read s.ybuf i = none →
      runInput (.ld .ybuf i) s = .fault (.noValue (.buffer .ybuf) i)) ∧
    (s.cfg.wcap ≤ i → runInput (.ld .wbuf i) s = .fault (.beyondCapacity .wbuf i)) ∧
    (i < s.cfg.wcap → ∀ v, Memory.read s.wbuf i = some v →
      runInput (.ld .wbuf i) s = .next { s with readData := some (.w32 v) }) ∧
    (i < s.cfg.wcap → Memory.read s.wbuf i = none →
      runInput (.ld .wbuf i) s = .fault (.noValue (.buffer .wbuf) i)) ∧
    (s.cfg.xcap ≤ i → runInput (.ld .xbuf i) s = .fault (.beyondCapacity .xbuf i)) ∧
    (i < s.cfg.xcap → ∀ v, Memory.read s.xbuf i = some v →
      runInput (.ld .xbuf i) s = .next { s with readData := some (.w32 v) }) ∧
    (i < s.cfg.xcap → Memory.read s.xbuf i = none →
      runInput (.ld .xbuf i) s = .fault (.noValue (.buffer .xbuf) i))

/-- 44_host_commands R219, 60_exceptions R257, 93 U5: while BUSY the interface offers the host RDCR only, which WAIT repeats; the
step that takes a register write, a buffer access or a command stops with a fault of the model (log 11). RDCR, WAIT and the reset
event of the environment are run. -/
def Obligations.HostMoveWhileBusyFaults : Prop :=
  ∀ (s : State) (inp : Input) (rest : List Input), s.status.busy = true → s.inbox = inp :: rest →
    nextMove s = some .input →
    (((∃ i v, inp = .wrcr i v) ∨ (∃ i v, inp = .stT i v) ∨ (∃ i v, inp = .stW i v) ∨ (∃ i v, inp = .stX i v) ∨
        (∃ i v, inp = .stY i v) ∨ (∃ b i, inp = .ld b i) ∨ ∃ w, inp = .command w) →
      step s = .fault .hostMoveWhileBusy) ∧
    (((∃ i, inp = .rdcr i) ∨ inp = .wait ∨ inp = .reset) →
      step s = runInput inp { drawNext s with inbox := rest })

/-- 30_encoding R93: WAIT reads STATUS and stays the host's next transaction exactly while the value read has BUSY = 1. -/
def Obligations.WaitPollsUntilIdle : Prop :=
  ∀ s : State,
    (s.status.busy = true →
      runInput .wait s = .next { s with readData := some (.w32 s.status.toWord), inbox := .wait :: s.inbox }) ∧
    (s.status.busy = false → runInput .wait s = .next { s with readData := some (.w32 s.status.toWord) })

/-- 10_state R38: the values after reset. -/
def Obligations.ResetValues : Prop :=
  let s := State.reset
  s.rows = 0 ∧ s.cols = 0 ∧ s.width = 32 ∧ s.count = 0 ∧ s.wlen = 0 ∧ s.xlen = 0 ∧ s.status.toWord = 0 ∧ s.einfo = 0 ∧
  s.irq = false ∧ s.engine = none ∧
  ∀ i, Memory.read s.tbuf i = none ∧ Memory.read s.wbuf i = none ∧ Memory.read s.xbuf i = none ∧
    Memory.read s.ybuf i = none

/-- 70_reset_and_hazards R270: the reset event puts every piece of the block's state at its reset value, in every state, a
dispatch in progress or not; the instance's parameters stay. -/
def Obligations.ResetEventRestoresReset : Prop :=
  ∀ s : State, ∃ t, runInput .reset s = .next t ∧
    t = { State.reset with inbox := t.inbox, readData := t.readData, pick := t.pick, draws := t.draws, cfg := s.cfg }

/-- 60_exceptions R248: the error entry writes STATUS and EINFO, raises `irq` and changes nothing else; a DeviceError leaves in
addition the elements of YBUF below `R` without a value. -/
def Obligations.ErrorEntryWritesStatusOnly : Prop :=
  ∀ (e : ErrorKind) (info : Word) (s : State),
    raiseError e info s =
      { s with status := { busy := false, done := false, err := true, ecode := errorCode e }, einfo := info } ∧
    (raiseError e info s).irq = true ∧
    errorCode .invalidValue = 1 ∧ errorCode .dimensionMismatch = 2 ∧ errorCode .deviceError = 3 ∧
    errorCode .illegalCommand = 15 ∧
    deviceError s = { errorState 3 0 s with ybuf := (deviceError s).ybuf } ∧
    ∀ r, Memory.read (deviceError s).ybuf r = if r < s.rows.toNat then none else Memory.read s.ybuf r

/-- 60_exceptions R246: `irq = DONE | ERR`; it rises when an operation ends, with or without error, and falls on CLRST or, for
DONE, when the next operation command is accepted. -/
def Obligations.IrqFollowsStatus : Prop :=
  ∀ s : State, s.irq = (s.status.done || s.status.err) ∧ (finishOperation s).irq = true ∧ (completeRun s).irq = true ∧
    (∀ e i, (raiseError e i s).irq = true) ∧ (clearError s).irq = false ∧
    (s.status.err = false → ({ s with status := s.status.dropDone } : State).irq = false)

/-! ### The codec and the datapath -/

/-- 40_codec R110, R111: `enc` and `dec`. -/
def Obligations.EncDecTables : Prop :=
  enc 0 = some 0b00#2 ∧ enc 1 = some 0b01#2 ∧ enc (-1) = some 0b10#2 ∧
  (∀ v : Int, v ≠ 0 → v ≠ 1 → v ≠ -1 → enc v = none) ∧
  dec 0b00#2 = 0 ∧ dec 0b01#2 = 1 ∧ dec 0b10#2 = -1 ∧ dec 0b11#2 = 0

/-- 40_codec R113, R114: `pack` produces no word and gives the lowest offending index when a value is outside {-1, 0, +1};
otherwise it gives `ceil(n/K)` words, word `j` the `pack_word` of values `j*K, j*K+1, ...` of its chunk. -/
def Obligations.PackFailsOnLowestInvalid : Prop :=
  ∀ (W : Nat) (v : List Int), 2 ≤ W → W ≤ 32 →
    (∀ i, pack W v = .error i ↔
      (∃ x, v[i]? = some x ∧ isTernary x = false) ∧ ∀ i' x, i' < i → v[i']? = some x → isTernary x = true) ∧
    ((∀ x ∈ v, isTernary x = true) →
      ∃ ws, pack W v = .ok ws ∧ ws.length = divCeil v.length (W / 2) ∧
        ∀ j, j < divCeil v.length (W / 2) → ws[j]? = packWord ((v.drop (j * (W / 2))).take (W / 2)))

/-- 40_codec R117: the round-trip law. -/
def Obligations.UnpackOfPackIsIdentity : Prop :=
  ∀ (W : Nat) (v : List Int), 2 ≤ W → W ≤ 32 → (∀ x ∈ v, x = -1 ∨ x = 0 ∨ x = 1) →
    ∃ ws, pack W v = .ok ws ∧ unpack W ws v.length = v

/-- 40_codec R118 (the spec's own inference): packing what a sequence of words unpacks to gives the words back exactly when
every word is canonical; every word that `pack` produces is canonical. -/
def Obligations.PackOfUnpackOnCanonicalWords : Prop :=
  ∀ W : Nat, 2 ≤ W → W ≤ 32 →
    (∀ ws : List Word, (∀ w ∈ ws, w.toNat < 2 ^ W) →
      (pack W (unpack W ws (W / 2 * ws.length)) = .ok ws ↔ ∀ w ∈ ws, canonicalWord W w = true)) ∧
    ∀ (v : List Int) (ws : List Word), pack W v = .ok ws → ∀ w ∈ ws, canonicalWord W w = true

/-- 41_decode_select R142, R143: the masks and the contribution of each code, for every float pattern. -/
def Obligations.MaskAndSelectTables : Prop :=
  codeMasks 0b00#2 = (0x00000000#32, 0x00000000#32) ∧ codeMasks 0b01#2 = (0xFFFFFFFF#32, 0x00000000#32) ∧
  codeMasks 0b10#2 = (0x00000000#32, 0xFFFFFFFF#32) ∧ codeMasks 0b11#2 = (0x00000000#32, 0x00000000#32) ∧
  ∀ x : F32,
    selectContribution 0b00#2 x = 0x00000000#32 ∧ selectContribution 0b01#2 x = x ∧
    selectContribution 0b10#2 x = x ^^^ 0x80000000#32 ∧ selectContribution 0b11#2 x = 0x00000000#32

/-- 30_encoding R81: the packer never produces code 11 in any slot of a word, and every decoder, the codec's and the engine's,
treats it exactly as code 00: the value 0, the contribution +0.0. -/
def Obligations.ReservedCodeCountsAsZero : Prop :=
  (∀ (W : Nat) (v : List Int) (ws : List Word), 2 ≤ W → W ≤ 32 → pack W v = .ok ws →
    ∀ w ∈ ws, ∀ k, k < W / 2 → slotCode w k ≠ 0b11#2) ∧
  dec 0b11#2 = 0 ∧ dec 0b00#2 = 0 ∧
  ∀ x : F32, selectContribution 0b11#2 x = 0x00000000#32 ∧ selectContribution 0b00#2 x = 0x00000000#32

/-- 41_decode_select R144 (the spec's own inference): the engine's decode agrees with the codec's, slot by slot: what a slot
contributes is what the value that `unpack_word` reads from it calls for. -/
def Obligations.EngineDecodeAgreesWithUnpack : Prop :=
  ∀ (W : Nat) (w : Word) (k : Nat) (x : F32), 2 ≤ W → W ≤ 32 → k < W / 2 →
    ∃ v, (unpackWord W w)[k]? = some v ∧
      selectContribution (extractCode w k) x =
        if v = 1 then x else if v = -1 then fneg x else f32PosZero

/-- 20_memory R55: byte `b` of a word in a stream is `w[8b+7 : 8b]` in the default order, and the word is read back from its bytes.
R55 gives no formula for the other order: that it lists the same bytes in reverse is the model's choice (log 23, PRESUMED). -/
def Obligations.StreamBytesRoundTrip : Prop :=
  ∀ (order : ByteOrder) (n : Nat) (w : Word), n ≤ 4 → w.toNat < 2 ^ (8 * n) →
    wordOfStream order (streamBytes order (8 * n) w) = w ∧
    (streamBytes order (8 * n) w).length = n ∧
    ∀ b, b < n →
      (streamBytes order (8 * n) w)[match order with | .little => b | .big => n - 1 - b]? = some (w.extractLsb' (8 * b) 8)

/-- 41_decode_select R147: under the default `fadd`, `fadd(a, +0.0) = a` for every `a` that is not -0.0 and not a NaN, so that
adding a zero contribution changes no sum. -/
def Obligations.AddingPosZeroChangesNothing : Prop :=
  ∀ nan a : F32, isNaN a = false → a ≠ f32NegZero → fadd .ieee nan a f32PosZero = a

/-- 00_scope R8, 93 G2, G3, U3: under the default `fadd`, a sum with a NaN and the sum of infinities of opposite sign are the NaN
that is drawn, and every NaN that a step draws is quiet; an infinity absorbs every other operand; `fadd(a, -0.0) = a` for every
`a` that is not a NaN, and no sum is -0.0 unless both operands are. -/
def Obligations.DefaultAddSpecialValues : Prop :=
  (∀ nan a b : F32, isNaN nan = true →
    ((isNaN a = true ∨ isNaN b = true) → fadd .ieee nan a b = nan) ∧
    fadd .ieee nan 0x7F800000#32 0xFF800000#32 = nan ∧ fadd .ieee nan 0xFF800000#32 0x7F800000#32 = nan ∧
    ((a = 0x7F800000#32 ∨ a = 0xFF800000#32) → isNaN b = false → b ≠ a ^^^ 0x80000000#32 →
      fadd .ieee nan a b = a ∧ fadd .ieee nan b a = a) ∧
    (isNaN a = false → fadd .ieee nan a f32NegZero = a) ∧
    (fadd .ieee nan a b = f32NegZero → a = f32NegZero ∧ b = f32NegZero)) ∧
  ∀ n, isNaN (drawnNaN n) = true ∧ (drawnNaN n).getLsbD 22 = true

/-- 42_reference_kernel R162: the 1-by-1 properties under the default `fadd`, as patterns: weight +1 gives `x`, weight -1 gives
`-x`, weight 0 gives +0.0, except that a -0.0 comes out as +0.0. -/
def Obligations.OneByOneReference : Prop :=
  ∀ (W : Nat) (x : F32), 2 ≤ W → W ≤ 32 → isNaN x = false →
    let noNegZero := fun y : F32 => if y = f32NegZero then f32PosZero else y
    refMV (plainAdd .ieee) W 1 1 [0x00000001#32] [x] = .ok [noNegZero x] ∧
    refMV (plainAdd .ieee) W 1 1 [0x00000002#32] [x] = .ok [noNegZero (fneg x)] ∧
    refMV (plainAdd .ieee) W 1 1 [0x00000000#32] [x] = .ok [f32PosZero]

/-! ### The engine: its moves -/

/-- 43_parallel_kernel R173: the INIT micro-step of a lane completes; the accumulator becomes +0.0. -/
def Obligations.InitMicrostep : Prop :=
  ∀ (s : State) (e : EngineRun) (g l : Nat) (wg : Workgroup) (ln : Lane),
    s.engine = some e → e.groups[g]? = some wg → wg.lanes[l]? = some ln → ln.pos = .init →
    let sh := shapeOf s.cfg e
    let next := if sh.tiles = 0 then Pos.publish else if l < sh.tile then .load 0 l else .barLoad 0
    moveEnabled s (.lane g l) = true ∧
    ∃ arrived,
      performMove (.lane g l) s = .next (putGroup s e g
        { wg with lanes := wg.lanes.set l { pos := next, acc := some 0x00000000#32 }, arrived := arrived }) ∧
      ∀ l', l' ∈ arrived ↔ l' ∈ wg.arrived ∨ (l' = l ∧ next = .barLoad 0)

/-- 43_parallel_kernel R175: the LOAD micro-step stores the input element, or +0.0 beyond the vector, at its tile index, and
nothing else of the tile changes. An input element that holds no value stops the machine (10_state R39, 93 U4). -/
def Obligations.LoadMicrostep : Prop :=
  ∀ (s : State) (e : EngineRun) (g l t i : Nat) (wg : Workgroup) (ln : Lane),
    s.engine = some e → e.groups[g]? = some wg → wg.lanes[l]? = some ln → ln.pos = .load t i →
    let sh := shapeOf s.cfg e
    let c := t * sh.tile + i
    let next := if i + sh.lanes < sh.tile then Pos.load t (i + sh.lanes) else .barLoad t
    moveEnabled s (.lane g l) = true ∧
    (∀ v : F32, (if c < e.cols then Memory.read s.xbuf c = some v else v = 0x00000000#32) →
      ∃ tile arrived,
        performMove (.lane g l) s = .next (putGroup s e g
          { wg with lanes := wg.lanes.set l { pos := next, acc := ln.acc }, shmX := tile, arrived := arrived }) ∧
        (∀ k, Memory.read tile k = if k = i then some v else Memory.read wg.shmX k) ∧
        ∀ l', l' ∈ arrived ↔ l' ∈ wg.arrived ∨ (l' = l ∧ next = .barLoad t)) ∧
    (c < e.cols → Memory.read s.xbuf c = none → performMove (.lane g l) s = .fault (.noValue (.buffer .xbuf) c))

/-- 43_parallel_kernel R177, 41_decode_select R147: the ACC micro-step adds the contribution of its slot to the lane's accumulator
and changes nothing else but the lane's position. A packed word, a tile element or an accumulator that holds no value stops the
machine (10_state R39, 93 U4). -/
def Obligations.AccMicrostep : Prop :=
  ∀ (s : State) (e : EngineRun) (g l t jw k : Nat) (wg : Workgroup) (ln : Lane),
    s.engine = some e → e.groups[g]? = some wg → wg.lanes[l]? = some ln → ln.pos = .acc t jw k →
    let sh := shapeOf s.cfg e
    let j := t * sh.tileWords + jw
    let more := fun jw' : Nat => jw' < sh.tileWords ∧ t * sh.tileWords + jw' < sh.rowWords
    let next :=
      if k + 1 < sh.codes then Pos.acc t jw (k + 1)
      else if more (jw + sh.lanes) then .acc t (jw + sh.lanes) 0 else .barAcc t
    moveEnabled s (.lane g l) = true ∧
    (Memory.read s.wbuf (g * sh.rowWords + j) = none →
      performMove (.lane g l) s = .fault (.noValue (.buffer .wbuf) (g * sh.rowWords + j))) ∧
    ∀ w : Word, Memory.read s.wbuf (g * sh.rowWords + j) = some w →
      (Memory.read wg.shmX (jw * sh.codes + k) = none →
        performMove (.lane g l) s = .fault (.noValue (.shmX g) (jw * sh.codes + k))) ∧
      ∀ x : F32, Memory.read wg.shmX (jw * sh.codes + k) = some x →
        (ln.acc = none → performMove (.lane g l) s = .fault (.noValue (.acc g) l)) ∧
        ∀ a : F32, ln.acc = some a →
          ∃ nan arrived, isQuietNaN nan = true ∧
            performMove (.lane g l) s = .next (putGroup s e g
              { wg with
                lanes := wg.lanes.set l
                  { pos := next
                    acc := some (fadd s.cfg.adder nan a (selectContribution (extractCode (lowWord e.width w) k) x)) }
                arrived := arrived }) ∧
            ∀ l', l' ∈ arrived ↔ l' ∈ wg.arrived ∨ (l' = l ∧ next = .barAcc t)

/-- 43_parallel_kernel R180, R181: PUBLISH stores the accumulator in the lane's element of the scratch; RED(s) adds element `l + s`
into element `l` for `l < s`, operands in that order, and does nothing for the others; both go to their barrier. An accumulator
or an element of the scratch that holds no value stops the machine (10_state R39). -/
def Obligations.PublishAndReduceMicrosteps : Prop :=
  ∀ (s : State) (e : EngineRun) (g l stride : Nat) (wg : Workgroup) (ln : Lane),
    s.engine = some e → e.groups[g]? = some wg → wg.lanes[l]? = some ln →
    let result := fun (next : Pos) (scratch : Memory 32) (arrived : List Nat) =>
      Host.Outcome.next (φ := Fault) (ρ := Refusal) (putGroup s e g
        { wg with lanes := wg.lanes.set l { pos := next, acc := ln.acc }, shmR := scratch, arrived := arrived })
    ((ln.pos = .publish ∨ ln.pos = .red stride) → moveEnabled s (.lane g l) = true) ∧
    (ln.pos = .publish →
      (ln.acc = none → performMove (.lane g l) s = .fault (.noValue (.acc g) l)) ∧
      ∀ a, ln.acc = some a →
        ∃ scratch arrived, performMove (.lane g l) s = result .barPub scratch arrived ∧
          (∀ k, Memory.read scratch k = if k = l then some a else Memory.read wg.shmR k) ∧
          ∀ l', l' ∈ arrived ↔ l' ∈ wg.arrived ∨ l' = l) ∧
    (ln.pos = .red stride → l < stride →
      (Memory.read wg.shmR l = none → performMove (.lane g l) s = .fault (.noValue (.shmR g) l)) ∧
      ∀ a, Memory.read wg.shmR l = some a →
        (Memory.read wg.shmR (l + stride) = none → performMove (.lane g l) s = .fault (.noValue (.shmR g) (l + stride))) ∧
        ∀ b, Memory.read wg.shmR (l + stride) = some b →
          ∃ nan scratch arrived, isQuietNaN nan = true ∧
            performMove (.lane g l) s = result (.barRed stride) scratch arrived ∧
            (∀ k, Memory.read scratch k = if k = l then some (fadd s.cfg.adder nan a b) else Memory.read wg.shmR k) ∧
            ∀ l', l' ∈ arrived ↔ l' ∈ wg.arrived ∨ l' = l) ∧
    (ln.pos = .red stride → stride ≤ l →
      ∃ arrived, performMove (.lane g l) s = result (.barRed stride) wg.shmR arrived ∧
        ∀ l', l' ∈ arrived ↔ l' ∈ wg.arrived ∨ l' = l)

/-- 43_parallel_kernel R182: the WRITE micro-step stores element 0 of the scratch in the row's output element, no other element of
YBUF changes, and the lane is at EXIT. A scratch whose element 0 holds no value stops the machine (10_state R39). -/
def Obligations.WriteMicrostep : Prop :=
  ∀ (s : State) (e : EngineRun) (g l : Nat) (wg : Workgroup) (ln : Lane),
    s.engine = some e → e.groups[g]? = some wg → wg.lanes[l]? = some ln → ln.pos = .write →
    moveEnabled s (.lane g l) = true ∧
    (Memory.read wg.shmR 0 = none → performMove (.lane g l) s = .fault (.noValue (.shmR g) 0)) ∧
    ∀ v : F32, Memory.read wg.shmR 0 = some v →
      ∃ out,
        performMove (.lane g l) s =
          .next { putGroup s e g { wg with lanes := wg.lanes.set l { pos := .exit, acc := ln.acc } } with ybuf := out } ∧
        ∀ r, Memory.read out r = if r = g then some v else Memory.read s.ybuf r

/-- 20_memory R65, 43_parallel_kernel R176, R179, R180, R181: the release of a full barrier of `L` waiting lanes is enabled and
takes every lane to the position after its barrier, here written out, counts the generation, empties `arrived` of all lanes but
those whose next position is a barrier again (log 17), and changes nothing else. -/
def Obligations.BarrierReleaseAdvancesAllLanes : Prop :=
  ∀ (s : State) (e : EngineRun) (g : Nat) (wg : Workgroup),
    s.engine = some e → e.groups[g]? = some wg → (∀ l, l < 2 ^ s.cfg.laneLog → l ∈ wg.arrived) →
    let sh := shapeOf s.cfg e
    let L := 2 ^ s.cfg.laneLog
    let finish := fun l : Nat => if l = 0 then Pos.write else .exit
    moveEnabled s (.release g) = true ∧
    ∃ lanes arrived,
      performMove (.release g) s = .next (putGroup s e g
        { wg with lanes := lanes, arrived := arrived, gen := wg.gen + 1 }) ∧
      lanes.length = wg.lanes.length ∧
      (∀ (l : Nat) (ln : Lane), wg.lanes[l]? = some ln → ∃ next, lanes[l]? = some { pos := next, acc := ln.acc } ∧
        (∀ t, ln.pos = .barLoad t →
          next = if l < sh.tileWords ∧ t * sh.tileWords + l < sh.rowWords then .acc t l 0 else .barAcc t) ∧
        (∀ t, ln.pos = .barAcc t →
          next = if t + 1 < sh.tiles then (if l < sh.tile then .load (t + 1) l else .barLoad (t + 1)) else .publish) ∧
        (ln.pos = .barPub → next = if 2 ≤ L then .red (L / 2) else finish l) ∧
        (∀ stride, ln.pos = .barRed stride → next = if 2 ≤ stride then .red (stride / 2) else finish l) ∧
        (ln.pos.atBarrier = false → next = ln.pos)) ∧
      ∀ l, l ∈ arrived ↔ ∃ ln, lanes[l]? = some ln ∧ ln.pos.atBarrier = true

/-- 43_parallel_kernel R183: when every lane of every workgroup is at EXIT the completion step is enabled; it clears BUSY, sets
DONE, ends all dispatch state and changes nothing else. -/
def Obligations.CompletionStep : Prop :=
  ∀ (s : State) (e : EngineRun), s.engine = some e → (∀ wg ∈ e.groups, ∀ ln ∈ wg.lanes, ln.pos = .exit) →
    moveEnabled s .complete = true ∧
    performMove .complete s =
      .next { s with status := { s.status with busy := false, done := true }, engine := none }

/-- 41_decode_select R148: no data-dependent control flow. Two dispatches of one shape whose lanes stand at the same positions,
whatever their buffers, shared memories and accumulators hold, have the same moves enabled, and the same move leaves their lanes
at the same positions and their barriers alike. -/
def Obligations.ControlDoesNotDependOnData : Prop :=
  ∀ (s s' : State) (m : Move), m ≠ .input → s.cfg = s'.cfg → s.controlState = s'.controlState →
    moveEnabled s m = moveEnabled s' m ∧
    ∀ t t' : State, performMove m s = .next t → performMove m s' = .next t' → t.controlState = t'.controlState

/-- 20_memory R61, R62, R64: no move of workgroup `g` changes another workgroup, a control register, STATUS, EINFO, `TBUF`,
`WBUF`, `XBUF`, or an element of YBUF other than `YBUF[g]`. -/
def Obligations.WorkgroupMovesAreLocal : Prop :=
  ∀ (s t : State) (m : Move) (g : Nat), (m = .release g ∨ ∃ l, m = .lane g l) → performMove m s = .next t →
    t = { s with engine := t.engine, ybuf := t.ybuf } ∧
    (∀ r, r ≠ g → Memory.read t.ybuf r = Memory.read s.ybuf r) ∧
    ∀ e, s.engine = some e → ∃ e', t.engine = some e' ∧ e'.rows = e.rows ∧ e'.cols = e.cols ∧ e'.width = e.width ∧
      ∀ g', g' ≠ g → e'.groups[g']? = e.groups[g']?

/-! ### Whole-machine rules -/

/-- 10_state R23, R37: only a WRCR that is taken and the reset event change `CR[0 .. 5]`; no step changes the instance's
parameters. -/
def Obligations.OnlyWrcrAndResetChangeHostRegisters : Prop :=
  ∀ s t : State, step s = .next t →
    t.cfg = s.cfg ∧
    ((∀ k : Word, k.toNat ≤ 5 → readCR t k = readCR s k) ∨
      (nextMove s = some .input ∧ ∃ rest, s.inbox = .reset :: rest) ∨
      (nextMove s = some .input ∧ s.status.busy = false ∧ ∃ i v rest, s.inbox = .wrcr i v :: rest ∧ i.toNat ≤ 5 ∧
        readCR t i = v ∧ ∀ k : Word, k.toNat ≤ 5 → k ≠ i → readCR t k = readCR s k))

/-- 10_state R30, 60_exceptions R250: while ERR is set, ERR, ECODE and EINFO stay as they are until a CLRST or the reset event is
taken; a dispatch in progress has no error (a premise that StatusInv gives). -/
def Obligations.ErrorIsStickyUntilClrstOrReset : Prop :=
  ∀ s t : State, StatusInv s → step s = .next t → s.status.err = true →
    (t.status = s.status ∧ t.einfo = s.einfo) ∨
    (nextMove s = some .input ∧
      ∃ rest, s.inbox = .reset :: rest ∨ s.inbox = .command (encode .clrst) :: rest)

/-- 10_state R38: the state after reset meets the value invariant, and with it the control invariant. -/
def Obligations.ResetMeetsTheInvariant : Prop := ValueInv State.reset

/-- Every step keeps the control invariant: the rules of STATUS and EINFO (10_state R30, R31), canonical buffers within their
capacities (20_memory R60), and for a dispatch the latched dimensions (R37), legal positions (R22), lanes past equally many
barriers as their workgroup has released (43_parallel_kernel R184 a), and `arrived` exactly the waiting lanes (20_memory R65). -/
def Obligations.EveryStepKeepsControlInv : Prop :=
  ∀ s t : State, ControlInv s → step s = .next t → ControlInv t

/-- Every step, whatever the schedule, keeps the value invariant: accumulators, tile, reduction scratch and output hold what the
closed form calls for, NaN patterns apart (43_parallel_kernel R184, R185). -/
def Obligations.EveryStepKeepsValueInv : Prop :=
  ∀ s t : State, ValueInv s → step s = .next t → ValueInv t

/-- 43_parallel_kernel R184, R185, R186: a dispatch that is finished has in every `YBUF[r]`, `r < R`, the value of the closed
form, NaN patterns apart, in whatever order its moves were taken; the completion step leaves them there and sets DONE
(20_memory R66). -/
def Obligations.FinishedDispatchHoldsClosedForm : Prop :=
  ∀ (s : State) (e : EngineRun), ValueInv s → s.engine = some e → e.finished = true →
    ∃ t, performMove .complete s = .next t ∧ t.status.busy = false ∧ t.status.done = true ∧ t.status.err = false ∧
      ∀ r, r < e.rows → ∃ v, Memory.read t.ybuf r = some v ∧
        F32.agrees s.cfg.adder v (expectedOutput s (shapeOf s.cfg e) r)

/-- 43_parallel_kernel R191: there is no deadlock: a dispatch in progress always has an enabled move of its own. -/
def Obligations.DispatchNeverDeadlocks : Prop :=
  ∀ (s : State) (e : EngineRun), ControlInv s → s.engine = some e → ∃ m ∈ enabledMoves s, m ≠ .input

/-- 43_parallel_kernel R191: there is no livelock: every move of a dispatch lowers the work that is left, and no input of the host
or the environment raises it; so a dispatch takes boundedly many moves of its own. -/
def Obligations.EveryEngineMoveLowersTheWork : Prop :=
  ∀ s t : State, ControlInv s → s.engine.isSome = true →
    (∀ m ∈ enabledMoves s, m ≠ .input → performMove m s = .next t → t.workLeft < s.workLeft) ∧
    (performMove .input s = .next t → t.workLeft ≤ s.workLeft)

/-- 10_state R39: the engine never reads an element of the shared memories or an accumulator that holds no value: with the source
buffers filled, no enabled move of a dispatch faults. -/
def Obligations.EngineMovesNeverFault : Prop :=
  ∀ (s : State) (e : EngineRun) (m : Move), ValueInv s → s.engine = some e →
    Memory.filled s.wbuf 0 (e.rows * (shapeOf s.cfg e).rowWords) = true → Memory.filled s.xbuf 0 e.cols = true →
    m ∈ enabledMoves s → m ≠ .input → ∃ t, performMove m s = .next t

/-- 43_parallel_kernel R183 to R187, R191, 70_reset_and_hazards R281: from every state with the launch premises, in which RUNMV is
the host's only coming transaction, whatever the schedule, the machine stops on nothing and after finitely many steps the run has
ended: either with DeviceError and no value in `YBUF[0 .. R)`, or with DONE and every `YBUF[r]`, `r < R`, at the value of the
closed form, NaN patterns apart; the other elements of YBUF, the other buffers and the control registers are as before. -/
def Obligations.LaunchedDispatchComputesClosedForm : Prop :=
  ∀ s : State, ControlInv s → LaunchReady s → s.inbox = [.command (encode .runmv)] →
    let R := s.rows.toNat
    let sh : Shape :=
      { rows := R, cols := s.cols.toNat, width := s.width.toNat, laneLog := s.cfg.laneLog
        tileWords := tileWordCount s.cfg s.width.toNat }
    ∃ n t, runFor n s = .next t ∧ t.ended = true ∧
      t = { s with
        status := t.status, ybuf := t.ybuf, engine := none, inbox := [], pick := t.pick, draws := t.draws } ∧
      (∀ r, R ≤ r → Memory.read t.ybuf r = Memory.read s.ybuf r) ∧
      (t.status = { busy := false, done := false, err := true, ecode := 3 } ∧
          (∀ r, r < R → Memory.read t.ybuf r = none) ∨
        t.status = { busy := false, done := true, err := false, ecode := 0 } ∧
          ∀ r, r < R → ∃ v, Memory.read t.ybuf r = some v ∧ F32.agrees s.cfg.adder v (expectedOutput s sh r))

/-- 43_parallel_kernel R185: with one lane and the default `fadd` the result of every row is the reference kernel's, bit for bit
(NaN patterns are one fixed quiet NaN on both sides). -/
def Obligations.OneLaneComputesTheReference : Prop :=
  ∀ (sh : Shape) (ws : List Word) (xs : List F32) (r : Nat), 2 ≤ sh.width → sh.width ≤ 32 → sh.laneLog = 0 →
    0 < sh.tileWords →
    parRow (plainAdd .ieee) sh (fun j => lowWord sh.width (ws.getD (r * sh.rowWords + j) 0))
        (fun c => if c < sh.cols then xs.getD c f32PosZero else f32PosZero) =
      refRow (plainAdd .ieee) sh.width sh.cols ws xs r

/-- 43_parallel_kernel R178 (the spec's own inference): under the default `fadd` the result of a row does not depend on what its
padding slots hold. -/
def Obligations.PaddingSlotsDoNotMatter : Prop :=
  ∀ (sh : Shape) (row row' : Nat → Word) (x : Nat → F32), 2 ≤ sh.width → sh.width ≤ 32 → 0 < sh.tileWords →
    (∀ c, sh.cols ≤ c → x c = f32PosZero) →
    (∀ c, c < sh.cols → extractCode (row (c / sh.codes)) (c % sh.codes) = extractCode (row' (c / sh.codes)) (c % sh.codes)) →
    parRow (plainAdd .ieee) sh row x = parRow (plainAdd .ieee) sh row' x

/-- 00_scope R8, 93 G2: the default `fadd` of two finite patterns rounds their exact sum to the nearest float, ties to even. `v` is
the exact sum, in units of 2^-149, the least subnormal. A sum of zero is +0.0 unless both operands are -0.0; any other has the
sign of `v`; at or above the middle between the largest finite float and 2^128 it is an infinity; below, it is a finite pattern
that no finite pattern is nearer than, with an even fraction if one of another value is as near. -/
def Obligations.DefaultAddRoundsToNearestEven : Prop :=
  ∀ nan a b : F32,
    let finite := fun x : F32 => isNaN x = false ∧ isInf x = false
    finite a → finite b →
    let v := f32Units a + f32Units b
    let r := fadd .ieee nan a b
    let overflow := (2 ^ 25 - 1) * 2 ^ 252
    isNaN r = false ∧
    (v = 0 → r = if a = f32NegZero ∧ b = f32NegZero then f32NegZero else f32PosZero) ∧
    (v ≠ 0 → f32Sign r = decide (v < 0)) ∧
    (overflow ≤ v.natAbs → isInf r = true) ∧
    (v.natAbs < overflow → isInf r = false ∧
      ∀ y : F32, finite y → (f32Units r - v).natAbs ≤ (f32Units y - v).natAbs ∧
        ((f32Units r - v).natAbs = (f32Units y - v).natAbs → f32Units y ≠ f32Units r → r.getLsbD 0 = false))
end

