-- ==== Sys2Proof/Laws/Codec.lean ====
section
/-! SUPPORT. The laws of the codec functions: what a slot of a packed word holds, how many words there are, which index is the
first invalid one. -/

set_option autoImplicit false

namespace Sys2Proof.Machine

/-! ### `ceil` -/

theorem lt_divCeil_iff {x y j : Nat} (hy : 0 < y) : j < divCeil x y ↔ j * y < x := by
  unfold divCeil
  rw [Nat.lt_iff_add_one_le, Nat.le_div_iff_mul_le hy, Nat.add_mul]
  omega

theorem divCeil_le_iff {x y j : Nat} (hy : 0 < y) : divCeil x y ≤ j ↔ x ≤ j * y := by
  have := lt_divCeil_iff (x := x) (j := j) hy
  omega

theorem div_lt_divCeil {x y i : Nat} (hy : 0 < y) (h : i < x) : i / y < divCeil x y := by
  rw [lt_divCeil_iff hy]
  exact lt_of_le_of_lt (Nat.div_mul_le_self i y) h

@[simp] theorem divCeil_zero_right (x : Nat) : divCeil x 0 = 0 := by simp [divCeil]

theorem divCeil_mul_left {n y : Nat} (hy : 0 < y) : divCeil (y * n) y = n := by
  apply Nat.le_antisymm
  · rw [divCeil_le_iff hy, Nat.mul_comm]
  · by_contra h
    have h2 := (divCeil_le_iff (x := y * n) (j := n - 1) hy).1 (by omega)
    rw [Nat.mul_comm] at h2
    have h3 := Nat.le_of_mul_le_mul_right h2 hy
    omega

theorem codesPerWord_pos {W : Nat} (h : 2 ≤ W) : 0 < codesPerWord W := by unfold codesPerWord; omega

theorem codesPerWord_le {W : Nat} (h : W ≤ 32) : codesPerWord W ≤ 16 := by unfold codesPerWord; omega

/-! ### Codes and slots -/

theorem isTernary_iff (v : Int) : isTernary v = true ↔ v = 0 ∨ v = 1 ∨ v = -1 := by
  simp [isTernary, or_assoc]

theorem dec_enc {v : Int} {c : Code} (h : enc v = some c) : dec c = v := by
  unfold enc at h
  split at h
  · next hv => cases h; subst hv; rfl
  · split at h
    · next hv => cases h; subst hv; rfl
    · split at h
      · next hv => cases h; subst hv; rfl
      · cases h

theorem isTernary_dec (c : Code) : isTernary (dec c) = true := by revert c; decide

theorem enc_eq_some_of_isTernary {v : Int} (h : isTernary v = true) : enc v = some ((enc v).getD 0) := by
  rcases (isTernary_iff v).1 h with rfl | rfl | rfl <;> rfl

theorem extractCode_eq_slotCode (w : Word) (k : Nat) : extractCode w k = slotCode w k := by
  apply BitVec.eq_of_toNat_eq
  simp only [extractCode, slotCode, BitVec.toNat_setWidth, BitVec.toNat_and, BitVec.toNat_ushiftRight, BitVec.toNat_ofNat]
  rw [show (3 % 2 ^ 32 : Nat) = 2 ^ 2 - 1 by norm_num, Nat.and_two_pow_sub_one_eq_mod, Nat.mod_mod]

/-- A slot as a number (30_encoding R85). -/
theorem toNat_slotCode (w : Word) (k : Nat) : (slotCode w k).toNat = w.toNat / 4 ^ k % 4 := by
  simp only [slotCode, BitVec.toNat_setWidth, BitVec.toNat_ushiftRight, Nat.shiftRight_eq_div_pow]
  rw [show (2 : Nat) ^ (2 * k) = 4 ^ k by rw [Nat.pow_mul]]

/-- The word of at most 16 values as a number: `c_0 + 4 * (the rest)` (40_codec R112). -/
theorem toNat_packCodes_cons (v : Int) (vs : List Int) (h : vs.length < 16) (hlt : (packCodes vs).toNat < 4 ^ vs.length) :
    (packCodes (v :: vs)).toNat = ((enc v).getD 0).toNat + 4 * (packCodes vs).toNat := by
  have hc := ((enc v).getD (0 : Code)).isLt
  have hp : 4 ^ vs.length ≤ 4 ^ 15 := Nat.pow_le_pow_right (by norm_num) (by omega)
  have hp2 : (4 : Nat) ^ 15 = 2 ^ 30 := by norm_num
  simp only [packCodes, BitVec.toNat_or, BitVec.toNat_setWidth, BitVec.toNat_shiftLeft, Nat.shiftLeft_eq]
  rw [Nat.mod_eq_of_lt (by omega : ((enc v).getD (0 : Code)).toNat < 2 ^ 32),
    Nat.mod_eq_of_lt (by omega : (packCodes vs).toNat * 2 ^ 2 < 2 ^ 32), Nat.or_comm, Nat.mul_comm,
    ← Nat.two_pow_add_eq_or_of_lt hc]
  omega

theorem packCodes_lt (vs : List Int) (h : vs.length ≤ 16) : (packCodes vs).toNat < 4 ^ vs.length := by
  induction vs with
  | nil => simp [packCodes]
  | cons v vs ih =>
    simp only [List.length_cons] at h
    have ih := ih (by omega)
    have hc := ((enc v).getD (0 : Code)).isLt
    rw [toNat_packCodes_cons v vs (by omega) ih, List.length_cons, Nat.pow_succ]
    omega

/-- Slot `k` of a packed word: the code of value `k`, and 00 beyond the values (40_codec R112, 30_encoding R84). -/
theorem slotCode_packCodes (vs : List Int) (k : Nat) (h : vs.length ≤ 16) :
    slotCode (packCodes vs) k = match vs[k]? with | some v => (enc v).getD 0 | none => 0 := by
  induction vs generalizing k with
  | nil => simp [packCodes, slotCode]
  | cons v vs ih =>
    simp only [List.length_cons] at h
    have hlt := packCodes_lt vs (by omega)
    have hc := ((enc v).getD (0 : Code)).isLt
    apply BitVec.eq_of_toNat_eq
    rw [toNat_slotCode, toNat_packCodes_cons v vs (by omega) hlt]
    cases k with
    | zero => simp; omega
    | succ k =>
      have := congrArg BitVec.toNat (ih k (by omega))
      rw [toNat_slotCode] at this
      rw [List.getElem?_cons_succ, ← this, Nat.pow_succ, Nat.mul_comm (4 ^ k) 4, ← Nat.div_div_eq_div_mul]
      congr 2
      omega

/-- The slots of a word of width `W` do not see the bits above `W` (20_memory R50). -/
theorem slotCode_lowWord (W : Nat) (w : Word) (k : Nat) (hW : W ≤ 32) (hk : k < codesPerWord W) :
    slotCode (lowWord W w) k = slotCode w k := by
  apply BitVec.eq_of_toNat_eq
  have hw := w.isLt
  have h1 : w.toNat % 2 ^ W < 2 ^ 32 :=
    lt_of_lt_of_le (Nat.mod_lt _ (by positivity)) (Nat.pow_le_pow_right (by norm_num) hW)
  rw [toNat_slotCode, toNat_slotCode, lowWord, BitVec.toNat_ofNat, Nat.mod_eq_of_lt h1,
    show (4 : Nat) ^ k = 2 ^ (2 * k) by rw [Nat.pow_mul], show (4 : Nat) = 2 ^ 2 by norm_num]
  unfold codesPerWord at hk
  have : W = 2 * k + (W - 2 * k) := by omega
  rw [this, Nat.pow_add, Nat.mod_mul_right_div_self, Nat.mod_mod_of_dvd _ (Nat.pow_dvd_pow 2 (by omega))]

theorem unpackWord_getElem? (W : Nat) (w : Word) (k : Nat) :
    (unpackWord W w)[k]? = if k < codesPerWord W then some (dec (slotCode w k)) else none := by
  simp only [unpackWord, List.getElem?_map]
  split
  · next h => simp [h]
  · next h => simp [List.getElem?_eq_none (l := List.range _) (by simpa using h)]

/-! ### Sequences -/

theorem length_packChunks (W : Nat) (v : List Int) : (packChunks W v).length = divCeil v.length (codesPerWord W) := by
  simp [packChunks]

theorem packChunks_getElem? (W : Nat) (v : List Int) (j : Nat) (h : j < divCeil v.length (codesPerWord W)) :
    (packChunks W v)[j]? = some (packCodes ((v.drop (j * codesPerWord W)).take (codesPerWord W))) := by
  simp [packChunks, h]

/-- Slot `k` of word `j`: the code of value `j*K + k`, and 00 beyond the sequence (40_codec R113). -/
theorem slotCode_packChunks (W : Nat) (v : List Int) (j k : Nat) (hW : W ≤ 32) (hk : k < codesPerWord W) :
    slotCode (packCodes ((v.drop (j * codesPerWord W)).take (codesPerWord W))) k =
      match v[j * codesPerWord W + k]? with | some x => (enc x).getD 0 | none => 0 := by
  have hK := codesPerWord_le hW
  rw [slotCode_packCodes _ _ (by simp only [List.length_take]; omega), List.getElem?_take_of_lt hk, List.getElem?_drop]

theorem packChunk_lt (W : Nat) (v : List Int) (j : Nat) (hW : W ≤ 32) :
    (packCodes ((v.drop (j * codesPerWord W)).take (codesPerWord W))).toNat < 4 ^ codesPerWord W := by
  have hK := codesPerWord_le hW
  refine lt_of_lt_of_le (packCodes_lt _ (by simp only [List.length_take]; omega)) ?_
  exact Nat.pow_le_pow_right (by norm_num) (by simp only [List.length_take]; omega)

theorem firstInvalid_eq_none {v : List Int} : firstInvalid v = none ↔ ∀ x ∈ v, isTernary x = true := by
  induction v with
  | nil => simp [firstInvalid]
  | cons x v ih =>
    simp only [firstInvalid]
    split
    · next h => simp [ih, h]
    · next h => simp [h]

/-- The first invalid index: its value is not ternary and every earlier one is (40_codec R114). -/
theorem firstInvalid_eq_some {v : List Int} {i : Nat} :
    firstInvalid v = some i ↔
      (∃ x, v[i]? = some x ∧ isTernary x = false) ∧ ∀ i' x, i' < i → v[i']? = some x → isTernary x = true := by
  induction v generalizing i with
  | nil => simp [firstInvalid]
  | cons y v ih =>
    simp only [firstInvalid]
    split
    · next h =>
      cases i with
      | zero => simp [h]
      | succ i =>
        simp only [Option.map_eq_some_iff, Nat.add_right_cancel_iff, exists_eq_right, ih, List.getElem?_cons_succ]
        refine and_congr_right fun _ => ⟨fun hall i' x hi hx => ?_, fun hall i' x hi hx => ?_⟩
        · cases i' with
          | zero => simp only [List.getElem?_cons_zero, Option.some.injEq] at hx; exact hx ▸ h
          | succ i' => exact hall i' x (by omega) (by simpa using hx)
        · exact hall (i' + 1) x (by omega) (by simpa using hx)
    · next h =>
      simp only [Option.some.injEq]
      constructor
      · rintro rfl; simp [h]
      · rintro ⟨-, hall⟩
        by_contra hne
        exact h (hall 0 y (by omega) (by simp))

/-- Word `r*WPR + j` of a packed matrix is word `j` of row `r` (20_memory R51, 40_codec R122). -/
theorem packRows_getElem? (W R C : Nat) (v : List Int) (r j : Nat) (hv : v.length = R * C) (hr : r < R)
    (hj : j < wordsPerRow W C) :
    (packRows W R C v)[r * wordsPerRow W C + j]? = (packChunks W ((v.drop (r * C)).take C))[j]? := by
  have hlen : ∀ r', r' < R → (packChunks W ((v.drop (r' * C)).take C)).length = wordsPerRow W C := by
    intro r' hr'
    rw [length_packChunks, wordsPerRow]
    congr 1
    simp only [List.length_take, List.length_drop, hv]
    have : (r' + 1) * C ≤ R * C := Nat.mul_le_mul_right _ hr'
    rw [Nat.add_mul] at this
    omega
  have key : ∀ (n : Nat), n ≤ R → ∀ r', r' < n →
      ((List.range n).flatMap fun r => packChunks W ((v.drop (r * C)).take C)).length = n * wordsPerRow W C ∧
      ((List.range n).flatMap fun r => packChunks W ((v.drop (r * C)).take C))[r' * wordsPerRow W C + j]? =
        (packChunks W ((v.drop (r' * C)).take C))[j]? := by
    intro n
    induction n with
    | zero => intro _ r' h; omega
    | succ n ih =>
      intro hn r' hr'
      rw [List.range_succ, List.flatMap_append]
      have hl0 : ((List.range n).flatMap fun r => packChunks W ((v.drop (r * C)).take C)).length =
          n * wordsPerRow W C := by
        cases n with
        | zero => simp
        | succ m => exact (ih (by omega) 0 (by omega)).1
      have h1 : (List.flatMap (fun r => packChunks W ((v.drop (r * C)).take C)) [n]) =
          packChunks W ((v.drop (n * C)).take C) := by simp
      rw [h1]
      refine ⟨by rw [List.length_append, hl0, hlen n (by omega), Nat.add_mul, Nat.one_mul], ?_⟩
      rcases Nat.lt_or_ge r' n with h | h
      · have hlt : r' * wordsPerRow W C + j < n * wordsPerRow W C := by
          have : (r' + 1) * wordsPerRow W C ≤ n * wordsPerRow W C := Nat.mul_le_mul_right _ h
          rw [Nat.add_mul] at this
          omega
        rw [List.getElem?_append_left (by omega)]
        exact (ih (by omega) r' h).2
      · have : r' = n := by omega
        subst this
        rw [List.getElem?_append_right (by omega), hl0, Nat.add_sub_cancel_left]
  exact (key R le_rfl r hr).2

theorem length_packRows (W R C : Nat) (v : List Int) (hv : v.length = R * C) :
    (packRows W R C v).length = R * wordsPerRow W C := by
  have key : ∀ n, n ≤ R →
      ((List.range n).flatMap fun r => packChunks W ((v.drop (r * C)).take C)).length = n * wordsPerRow W C := by
    intro n
    induction n with
    | zero => intro _; simp
    | succ n ih =>
      intro hn
      have : (n + 1) * C ≤ R * C := Nat.mul_le_mul_right _ hn
      rw [Nat.add_mul] at this
      have hrow : ((v.drop (n * C)).take C).length = C := by
        simp only [List.length_take, List.length_drop, hv]; omega
      rw [List.range_succ, List.flatMap_append, List.length_append, ih (by omega)]
      simp only [List.flatMap_cons, List.flatMap_nil, List.append_nil, length_packChunks, hrow]
      rw [Nat.add_mul, Nat.one_mul]; rfl
  exact key R le_rfl

/-! ### Raw values -/

theorem isTernary_rawToInt (b : Byte) : isTernary (rawToInt b) = true ↔ b = 0xFF#8 ∨ b = 0x00#8 ∨ b = 0x01#8 := by
  revert b; decide

/-! ### Unpacked sequences and canonical words -/

/-- Value `i` of an unpacked sequence (40_codec R116). -/
theorem unpack_getElem? {W : Nat} {ws : List Word} {n i : Nat} (hi : i < n) (hW : 2 ≤ W) :
    (unpack W ws n)[i]? = some (dec (slotCode (ws.getD (i / codesPerWord W) 0) (i % codesPerWord W))) := by
  have hK := codesPerWord_pos hW
  simp only [unpack, List.getElem?_map]
  rw [List.getElem?_range hi]
  simp only [Option.map_some, Option.some.injEq]
  rw [List.getD_eq_getElem?_getD, unpackWord_getElem?, if_pos (Nat.mod_lt _ hK)]
  rfl


/-- A word without bits above its `K` slots is given by its slots. -/
theorem word_ext {K : Nat} (hK : K ≤ 16) {a b : Word} (ha : a.toNat < 4 ^ K) (hb : b.toNat < 4 ^ K) (h : ∀ k, k < K → slotCode a k = slotCode b k) : a = b := by
  apply BitVec.eq_of_toNat_eq
  have key : ∀ K (x y : Nat), x < 4 ^ K → y < 4 ^ K → (∀ k, k < K → x / 4 ^ k % 4 = y / 4 ^ k % 4) → x = y := by
    intro K
    induction K with
    | zero => intro x y h1 h2 _; simp at h1 h2; omega
    | succ K ih =>
      intro x y h1 h2 h
      have h0 := h 0 (by omega)
      have := ih (x / 4) (y / 4) (by rw [Nat.pow_succ] at h1; omega) (by rw [Nat.pow_succ] at h2; omega) (fun k hk => by
        have := h (k+1) (by omega)
        rw [Nat.pow_succ, Nat.mul_comm] at this
        simpa [Nat.div_div_eq_div_mul] using this)
      simp at h0; omega
  exact key K _ _ ha hb fun k hk => by
    have := congrArg BitVec.toNat (h k hk)
    rwa [toNat_slotCode, toNat_slotCode] at this

/-- `canonical`, spelt out (40_codec R118). -/
theorem canonical_iff {W : Nat} {w : Word} :
    canonicalWord W w = true ↔ w.toNat < 4 ^ codesPerWord W ∧ ∀ i, i < codesPerWord W → slotCode w i ≠ 0b11#2 := by
  simp only [canonicalWord, Bool.and_eq_true, decide_eq_true_eq, List.all_eq_true, List.mem_range, Nat.pow_mul]

end Sys2Proof.Machine
end

