-- ==== Sys2Proof/Laws/Memory.lean ====
section
/-! SUPPORT. The laws of the element memories: a read after a write, what a write leaves alone, and that every memory operation
keeps the canonical form and the capacity. -/

set_option autoImplicit false

namespace Sys2Proof.Machine

variable {w : Nat}

@[simp] theorem Memory.read_nil (i : Nat) : Memory.read ([] : Memory w) i = none := rfl

theorem Memory.read_write_same (m : Memory w) (i : Nat) (v : BitVec w) : Memory.read (Memory.write m i v) i = some v := by
  induction m with
  | nil => simp [Memory.write, Memory.read]
  | cons c m ih =>
    obtain ⟨a, u⟩ := c
    simp only [Memory.write]
    split
    · simp [Memory.read]
    · split
      · simp [Memory.read]
      · next h1 h2 => simp [Memory.read, Ne.symm h2, ih]

theorem Memory.read_write_other (m : Memory w) (i j : Nat) (v : BitVec w) (h : j ≠ i) :
    Memory.read (Memory.write m i v) j = Memory.read m j := by
  induction m with
  | nil => simp [Memory.write, Memory.read, Ne.symm h]
  | cons c m ih =>
    obtain ⟨a, u⟩ := c
    simp only [Memory.write]
    split
    · simp [Memory.read, Ne.symm h]
    · split
      · next h1 h2 => subst h2; simp [Memory.read, Ne.symm h]
      · simp [Memory.read, ih]

theorem Memory.read_write (m : Memory w) (i j : Nat) (v : BitVec w) :
    Memory.read (Memory.write m i v) j = if j = i then some v else Memory.read m j := by
  split
  · next h => subst h; exact Memory.read_write_same ..
  · next h => exact Memory.read_write_other _ _ _ _ h

/-- A span write, element by element. -/
theorem Memory.read_writeSpan (vs : List (BitVec w)) (m : Memory w) (i j : Nat) :
    Memory.read (Memory.writeSpan m i vs) j =
      if i ≤ j ∧ j < i + vs.length then vs[j - i]? else Memory.read m j := by
  induction vs generalizing m i with
  | nil =>
    have : ¬(i ≤ j ∧ j < i + ([] : List (BitVec w)).length) := by simp
    rw [if_neg this]; rfl
  | cons v vs ih =>
    simp only [Memory.writeSpan, ih, Memory.read_write, List.length_cons]
    by_cases h : j = i
    · subst h; simp
    · by_cases h2 : i + 1 ≤ j ∧ j < i + 1 + vs.length
      · have h3 : i ≤ j ∧ j < i + (vs.length + 1) := by omega
        have h4 : j - i = (j - (i + 1)) + 1 := by omega
        simp [h2, h3, h4]
      · have h3 : ¬(i ≤ j ∧ j < i + (vs.length + 1)) := by omega
        rw [if_neg h2, if_neg h3, if_neg h]

theorem Memory.read_dropBelow (m : Memory w) (n i : Nat) :
    Memory.read (Memory.dropBelow m n) i = if n ≤ i then Memory.read m i else none := by
  induction m with
  | nil => simp [Memory.dropBelow, Memory.read]
  | cons c m ih =>
    obtain ⟨a, v⟩ := c
    have hcons : Memory.dropBelow ((a, v) :: m) n = if n ≤ a then (a, v) :: Memory.dropBelow m n else Memory.dropBelow m n := by
      simp [Memory.dropBelow, List.filter_cons]
    rw [hcons]
    by_cases h : n ≤ a
    · simp only [if_pos h, Memory.read, ih]
      by_cases h2 : a = i
      · subst h2; simp [h]
      · simp [h2]
    · rw [if_neg h, ih]
      by_cases h2 : a = i
      · subst h2; simp [h]
      · simp [Memory.read, h2]

/-- The canonical form as a statement about the list of indices. -/
theorem Memory.wf_iff (m : Memory w) : Memory.wf m = true ↔ m.Pairwise (fun a b => a.1 < b.1) := by
  induction m with
  | nil => simp [Memory.wf]
  | cons c m ih =>
    cases m with
    | nil => simp [Memory.wf]
    | cons d m =>
      obtain ⟨a, u⟩ := c
      obtain ⟨b, v⟩ := d
      simp only [Memory.wf, Bool.and_eq_true, decide_eq_true_eq, ih, List.pairwise_cons, List.mem_cons]
      constructor
      · rintro ⟨h, h1, h2⟩
        exact ⟨by rintro x (rfl | hx); exacts [h, h.trans (h1 x hx)], h1, h2⟩
      · rintro ⟨h, h1, h2⟩
        exact ⟨h _ (.inl rfl), h1, h2⟩

theorem Memory.mem_write {m : Memory w} {i : Nat} {v : BitVec w} {c : Nat × BitVec w}
    (h : c ∈ Memory.write m i v) : c = (i, v) ∨ c ∈ m := by
  induction m with
  | nil => simpa [Memory.write] using h
  | cons d m ih =>
    obtain ⟨a, u⟩ := d
    simp only [Memory.write] at h
    split at h
    · simpa using h
    · split at h
      · rcases List.mem_cons.1 h with h | h
        · exact .inl h
        · exact .inr (List.mem_cons_of_mem _ h)
      · rcases List.mem_cons.1 h with h | h
        · exact .inr (h ▸ List.mem_cons_self ..)
        · exact (ih h).imp_right (List.mem_cons_of_mem _)

theorem Memory.wf_write (m : Memory w) (i : Nat) (v : BitVec w) (h : Memory.wf m = true) :
    Memory.wf (Memory.write m i v) = true := by
  rw [Memory.wf_iff] at *
  induction m with
  | nil => simp [Memory.write]
  | cons c m ih =>
    obtain ⟨a, u⟩ := c
    obtain ⟨h1, h2⟩ := List.pairwise_cons.1 h
    simp only [Memory.write]
    split
    · next hlt =>
      refine List.pairwise_cons.2 ⟨?_, h⟩
      intro x hx
      rcases List.mem_cons.1 hx with rfl | hx
      · exact hlt
      · exact hlt.trans (h1 x hx)
    · split
      · next heq => subst heq; exact List.pairwise_cons.2 ⟨h1, h2⟩
      · next h3 h4 =>
        refine List.pairwise_cons.2 ⟨?_, ih h2⟩
        intro x hx
        rcases Memory.mem_write hx with rfl | hx
        · show a < i; omega
        · exact h1 x hx

theorem Memory.below_write (m : Memory w) (i n : Nat) (v : BitVec w) (hi : i < n) (h : Memory.below m n = true) :
    Memory.below (Memory.write m i v) n = true := by
  simp only [Memory.below, List.all_eq_true, decide_eq_true_eq] at *
  intro c hc
  rcases Memory.mem_write hc with rfl | hc
  · exact hi
  · exact h c hc

theorem Memory.wf_writeSpan (vs : List (BitVec w)) (m : Memory w) (i : Nat) (h : Memory.wf m = true) :
    Memory.wf (Memory.writeSpan m i vs) = true := by
  induction vs generalizing m i with
  | nil => exact h
  | cons v vs ih => exact ih _ _ (Memory.wf_write m i v h)

theorem Memory.below_writeSpan (vs : List (BitVec w)) (m : Memory w) (i n : Nat) (hi : i + vs.length ≤ n)
    (h : Memory.below m n = true) : Memory.below (Memory.writeSpan m i vs) n = true := by
  induction vs generalizing m i with
  | nil => exact h
  | cons v vs ih =>
    simp only [List.length_cons] at hi
    exact ih _ _ (by omega) (Memory.below_write m i n v (by omega) h)

theorem Memory.wf_dropBelow (m : Memory w) (n : Nat) (h : Memory.wf m = true) :
    Memory.wf (Memory.dropBelow m n) = true := by
  rw [Memory.wf_iff] at *
  exact h.filter _

theorem Memory.below_dropBelow (m : Memory w) (n k : Nat) (h : Memory.below m k = true) :
    Memory.below (Memory.dropBelow m n) k = true := by
  simp only [Memory.below, Memory.dropBelow, List.all_eq_true] at *
  exact fun c hc => h c (List.mem_of_mem_filter hc)

/-- What a read of one element answers (10_state R39). -/
theorem readElement_eq_ok {sp : Space} {m : Memory w} {i : Nat} {v : BitVec w} :
    readElement sp m i = .ok v ↔ Memory.read m i = some v := by
  unfold readElement; split <;> simp_all

theorem readElement_eq_error {sp : Space} {m : Memory w} {i : Nat} {f : Fault} :
    readElement sp m i = .error f ↔ Memory.read m i = none ∧ f = .noValue sp i := by
  unfold readElement
  split
  · next h => simp [h]
  · next h => simp [h, eq_comm]

/-- A span read answers exactly the elements, all of them with a value. -/
theorem readSpan_eq_ok {sp : Space} {m : Memory w} {start n : Nat} {vs : List (BitVec w)} :
    readSpan sp m start n = .ok vs ↔ vs.length = n ∧ ∀ i, i < n → Memory.read m (start + i) = vs[i]? := by
  induction n generalizing start vs with
  | zero =>
    simp only [readSpan, Except.ok.injEq]
    constructor
    · rintro rfl; simp
    · rintro ⟨h, -⟩; exact (List.length_eq_zero_iff.1 h).symm
  | succ n ih =>
    constructor
    · intro h
      rw [readSpan] at h
      split at h
      · cases h
      · next v hv =>
        split at h
        · cases h
        · next us hus =>
          obtain rfl := Except.ok.inj h
          obtain ⟨hl, hr⟩ := ih.1 hus
          refine ⟨by simp [hl], fun i hi => ?_⟩
          cases i with
          | zero => simpa using readElement_eq_ok.1 hv
          | succ i => simpa [Nat.add_assoc, Nat.add_comm 1] using hr i (by omega)
    · rintro ⟨hl, hr⟩
      cases vs with
      | nil => simp at hl
      | cons v us =>
        have hv : readElement sp m start = .ok v := readElement_eq_ok.2 (by simpa using hr 0 (by omega))
        have hus : readSpan sp m (start + 1) n = .ok us :=
          ih.2 ⟨by simpa using hl, fun i hi => by
            simpa [Nat.add_assoc, Nat.add_comm 1] using hr (i + 1) (by omega)⟩
        rw [readSpan, hv]; simp [hus]

end Sys2Proof.Machine
end

