-- ==== Sys2Proof/Laws/State.lean ====
section
/-! SUPPORT. One lemma per field per named update of the state, so that no proof unfolds a record update. -/

set_option autoImplicit false

namespace Sys2Proof.Machine

/-! ### `raiseError` (60_exceptions R248) -/

@[simp] theorem raiseError_rows (e : ErrorKind) (i : Word) (s : State) : (raiseError e i s).rows = s.rows := rfl
@[simp] theorem raiseError_cols (e : ErrorKind) (i : Word) (s : State) : (raiseError e i s).cols = s.cols := rfl
@[simp] theorem raiseError_width (e : ErrorKind) (i : Word) (s : State) : (raiseError e i s).width = s.width := rfl
@[simp] theorem raiseError_count (e : ErrorKind) (i : Word) (s : State) : (raiseError e i s).count = s.count := rfl
@[simp] theorem raiseError_wlen (e : ErrorKind) (i : Word) (s : State) : (raiseError e i s).wlen = s.wlen := rfl
@[simp] theorem raiseError_xlen (e : ErrorKind) (i : Word) (s : State) : (raiseError e i s).xlen = s.xlen := rfl
@[simp] theorem raiseError_status (e : ErrorKind) (i : Word) (s : State) : (raiseError e i s).status = errorStatus e := rfl
@[simp] theorem raiseError_einfo (e : ErrorKind) (i : Word) (s : State) : (raiseError e i s).einfo = i := rfl
@[simp] theorem raiseError_tbuf (e : ErrorKind) (i : Word) (s : State) : (raiseError e i s).tbuf = s.tbuf := rfl
@[simp] theorem raiseError_wbuf (e : ErrorKind) (i : Word) (s : State) : (raiseError e i s).wbuf = s.wbuf := rfl
@[simp] theorem raiseError_xbuf (e : ErrorKind) (i : Word) (s : State) : (raiseError e i s).xbuf = s.xbuf := rfl
@[simp] theorem raiseError_ybuf (e : ErrorKind) (i : Word) (s : State) : (raiseError e i s).ybuf = s.ybuf := rfl
@[simp] theorem raiseError_engine (e : ErrorKind) (i : Word) (s : State) : (raiseError e i s).engine = s.engine := rfl
@[simp] theorem raiseError_inbox (e : ErrorKind) (i : Word) (s : State) : (raiseError e i s).inbox = s.inbox := rfl
@[simp] theorem raiseError_readData (e : ErrorKind) (i : Word) (s : State) : (raiseError e i s).readData = s.readData := rfl
@[simp] theorem raiseError_pick (e : ErrorKind) (i : Word) (s : State) : (raiseError e i s).pick = s.pick := rfl
@[simp] theorem raiseError_draws (e : ErrorKind) (i : Word) (s : State) : (raiseError e i s).draws = s.draws := rfl
@[simp] theorem raiseError_cfg (e : ErrorKind) (i : Word) (s : State) : (raiseError e i s).cfg = s.cfg := rfl

/-! ### `dimensionMismatch` (60_exceptions R242, R248) -/

@[simp] theorem dimensionMismatch_rows (n : Nat) (s : State) : (dimensionMismatch n s).rows = s.rows := rfl
@[simp] theorem dimensionMismatch_cols (n : Nat) (s : State) : (dimensionMismatch n s).cols = s.cols := rfl
@[simp] theorem dimensionMismatch_width (n : Nat) (s : State) : (dimensionMismatch n s).width = s.width := rfl
@[simp] theorem dimensionMismatch_count (n : Nat) (s : State) : (dimensionMismatch n s).count = s.count := rfl
@[simp] theorem dimensionMismatch_wlen (n : Nat) (s : State) : (dimensionMismatch n s).wlen = s.wlen := rfl
@[simp] theorem dimensionMismatch_xlen (n : Nat) (s : State) : (dimensionMismatch n s).xlen = s.xlen := rfl
@[simp] theorem dimensionMismatch_status (n : Nat) (s : State) : (dimensionMismatch n s).status = errorStatus .dimensionMismatch := rfl
@[simp] theorem dimensionMismatch_einfo (n : Nat) (s : State) : (dimensionMismatch n s).einfo = BitVec.ofNat 32 n := rfl
@[simp] theorem dimensionMismatch_tbuf (n : Nat) (s : State) : (dimensionMismatch n s).tbuf = s.tbuf := rfl
@[simp] theorem dimensionMismatch_wbuf (n : Nat) (s : State) : (dimensionMismatch n s).wbuf = s.wbuf := rfl
@[simp] theorem dimensionMismatch_xbuf (n : Nat) (s : State) : (dimensionMismatch n s).xbuf = s.xbuf := rfl
@[simp] theorem dimensionMismatch_ybuf (n : Nat) (s : State) : (dimensionMismatch n s).ybuf = s.ybuf := rfl
@[simp] theorem dimensionMismatch_engine (n : Nat) (s : State) : (dimensionMismatch n s).engine = s.engine := rfl
@[simp] theorem dimensionMismatch_inbox (n : Nat) (s : State) : (dimensionMismatch n s).inbox = s.inbox := rfl
@[simp] theorem dimensionMismatch_readData (n : Nat) (s : State) : (dimensionMismatch n s).readData = s.readData := rfl
@[simp] theorem dimensionMismatch_pick (n : Nat) (s : State) : (dimensionMismatch n s).pick = s.pick := rfl
@[simp] theorem dimensionMismatch_draws (n : Nat) (s : State) : (dimensionMismatch n s).draws = s.draws := rfl
@[simp] theorem dimensionMismatch_cfg (n : Nat) (s : State) : (dimensionMismatch n s).cfg = s.cfg := rfl

/-! ### `clearError` (44_host_commands R216) -/

@[simp] theorem clearError_rows (s : State) : (clearError s).rows = s.rows := rfl
@[simp] theorem clearError_cols (s : State) : (clearError s).cols = s.cols := rfl
@[simp] theorem clearError_width (s : State) : (clearError s).width = s.width := rfl
@[simp] theorem clearError_count (s : State) : (clearError s).count = s.count := rfl
@[simp] theorem clearError_wlen (s : State) : (clearError s).wlen = s.wlen := rfl
@[simp] theorem clearError_xlen (s : State) : (clearError s).xlen = s.xlen := rfl
@[simp] theorem clearError_status (s : State) : (clearError s).status = s.status.clear := rfl
@[simp] theorem clearError_einfo (s : State) : (clearError s).einfo = 0 := rfl
@[simp] theorem clearError_tbuf (s : State) : (clearError s).tbuf = s.tbuf := rfl
@[simp] theorem clearError_wbuf (s : State) : (clearError s).wbuf = s.wbuf := rfl
@[simp] theorem clearError_xbuf (s : State) : (clearError s).xbuf = s.xbuf := rfl
@[simp] theorem clearError_ybuf (s : State) : (clearError s).ybuf = s.ybuf := rfl
@[simp] theorem clearError_engine (s : State) : (clearError s).engine = s.engine := rfl
@[simp] theorem clearError_inbox (s : State) : (clearError s).inbox = s.inbox := rfl
@[simp] theorem clearError_readData (s : State) : (clearError s).readData = s.readData := rfl
@[simp] theorem clearError_pick (s : State) : (clearError s).pick = s.pick := rfl
@[simp] theorem clearError_draws (s : State) : (clearError s).draws = s.draws := rfl
@[simp] theorem clearError_cfg (s : State) : (clearError s).cfg = s.cfg := rfl

/-! ### `finishOperation` (10_state R32) -/

@[simp] theorem finishOperation_rows (s : State) : (finishOperation s).rows = s.rows := rfl
@[simp] theorem finishOperation_cols (s : State) : (finishOperation s).cols = s.cols := rfl
@[simp] theorem finishOperation_width (s : State) : (finishOperation s).width = s.width := rfl
@[simp] theorem finishOperation_count (s : State) : (finishOperation s).count = s.count := rfl
@[simp] theorem finishOperation_wlen (s : State) : (finishOperation s).wlen = s.wlen := rfl
@[simp] theorem finishOperation_xlen (s : State) : (finishOperation s).xlen = s.xlen := rfl
@[simp] theorem finishOperation_status (s : State) : (finishOperation s).status = s.status.setDone := rfl
@[simp] theorem finishOperation_einfo (s : State) : (finishOperation s).einfo = s.einfo := rfl
@[simp] theorem finishOperation_tbuf (s : State) : (finishOperation s).tbuf = s.tbuf := rfl
@[simp] theorem finishOperation_wbuf (s : State) : (finishOperation s).wbuf = s.wbuf := rfl
@[simp] theorem finishOperation_xbuf (s : State) : (finishOperation s).xbuf = s.xbuf := rfl
@[simp] theorem finishOperation_ybuf (s : State) : (finishOperation s).ybuf = s.ybuf := rfl
@[simp] theorem finishOperation_engine (s : State) : (finishOperation s).engine = s.engine := rfl
@[simp] theorem finishOperation_inbox (s : State) : (finishOperation s).inbox = s.inbox := rfl
@[simp] theorem finishOperation_readData (s : State) : (finishOperation s).readData = s.readData := rfl
@[simp] theorem finishOperation_pick (s : State) : (finishOperation s).pick = s.pick := rfl
@[simp] theorem finishOperation_draws (s : State) : (finishOperation s).draws = s.draws := rfl
@[simp] theorem finishOperation_cfg (s : State) : (finishOperation s).cfg = s.cfg := rfl

/-! ### `storeWords` (40_codec R120, R122) -/

@[simp] theorem storeWords_rows (ws : List Word) (s : State) : (storeWords ws s).rows = s.rows := rfl
@[simp] theorem storeWords_cols (ws : List Word) (s : State) : (storeWords ws s).cols = s.cols := rfl
@[simp] theorem storeWords_width (ws : List Word) (s : State) : (storeWords ws s).width = s.width := rfl
@[simp] theorem storeWords_count (ws : List Word) (s : State) : (storeWords ws s).count = s.count := rfl
@[simp] theorem storeWords_wlen (ws : List Word) (s : State) : (storeWords ws s).wlen = s.wlen := rfl
@[simp] theorem storeWords_xlen (ws : List Word) (s : State) : (storeWords ws s).xlen = s.xlen := rfl
@[simp] theorem storeWords_status (ws : List Word) (s : State) : (storeWords ws s).status = s.status.setDone := rfl
@[simp] theorem storeWords_einfo (ws : List Word) (s : State) : (storeWords ws s).einfo = s.einfo := rfl
@[simp] theorem storeWords_tbuf (ws : List Word) (s : State) : (storeWords ws s).tbuf = s.tbuf := rfl
@[simp] theorem storeWords_wbuf (ws : List Word) (s : State) : (storeWords ws s).wbuf = Memory.writeSpan s.wbuf 0 ws := rfl
@[simp] theorem storeWords_xbuf (ws : List Word) (s : State) : (storeWords ws s).xbuf = s.xbuf := rfl
@[simp] theorem storeWords_ybuf (ws : List Word) (s : State) : (storeWords ws s).ybuf = s.ybuf := rfl
@[simp] theorem storeWords_engine (ws : List Word) (s : State) : (storeWords ws s).engine = s.engine := rfl
@[simp] theorem storeWords_inbox (ws : List Word) (s : State) : (storeWords ws s).inbox = s.inbox := rfl
@[simp] theorem storeWords_readData (ws : List Word) (s : State) : (storeWords ws s).readData = s.readData := rfl
@[simp] theorem storeWords_pick (ws : List Word) (s : State) : (storeWords ws s).pick = s.pick := rfl
@[simp] theorem storeWords_draws (ws : List Word) (s : State) : (storeWords ws s).draws = s.draws := rfl
@[simp] theorem storeWords_cfg (ws : List Word) (s : State) : (storeWords ws s).cfg = s.cfg := rfl

/-! ### `storeValues` (40_codec R121) -/

@[simp] theorem storeValues_rows (vs : List Int) (s : State) : (storeValues vs s).rows = s.rows := rfl
@[simp] theorem storeValues_cols (vs : List Int) (s : State) : (storeValues vs s).cols = s.cols := rfl
@[simp] theorem storeValues_width (vs : List Int) (s : State) : (storeValues vs s).width = s.width := rfl
@[simp] theorem storeValues_count (vs : List Int) (s : State) : (storeValues vs s).count = s.count := rfl
@[simp] theorem storeValues_wlen (vs : List Int) (s : State) : (storeValues vs s).wlen = s.wlen := rfl
@[simp] theorem storeValues_xlen (vs : List Int) (s : State) : (storeValues vs s).xlen = s.xlen := rfl
@[simp] theorem storeValues_status (vs : List Int) (s : State) : (storeValues vs s).status = s.status.setDone := rfl
@[simp] theorem storeValues_einfo (vs : List Int) (s : State) : (storeValues vs s).einfo = s.einfo := rfl
@[simp] theorem storeValues_tbuf (vs : List Int) (s : State) : (storeValues vs s).tbuf = Memory.writeSpan s.tbuf 0 (vs.map intToRaw) := rfl
@[simp] theorem storeValues_wbuf (vs : List Int) (s : State) : (storeValues vs s).wbuf = s.wbuf := rfl
@[simp] theorem storeValues_xbuf (vs : List Int) (s : State) : (storeValues vs s).xbuf = s.xbuf := rfl
@[simp] theorem storeValues_ybuf (vs : List Int) (s : State) : (storeValues vs s).ybuf = s.ybuf := rfl
@[simp] theorem storeValues_engine (vs : List Int) (s : State) : (storeValues vs s).engine = s.engine := rfl
@[simp] theorem storeValues_inbox (vs : List Int) (s : State) : (storeValues vs s).inbox = s.inbox := rfl
@[simp] theorem storeValues_readData (vs : List Int) (s : State) : (storeValues vs s).readData = s.readData := rfl
@[simp] theorem storeValues_pick (vs : List Int) (s : State) : (storeValues vs s).pick = s.pick := rfl
@[simp] theorem storeValues_draws (vs : List Int) (s : State) : (storeValues vs s).draws = s.draws := rfl
@[simp] theorem storeValues_cfg (vs : List Int) (s : State) : (storeValues vs s).cfg = s.cfg := rfl

/-! ### `launch` (43_parallel_kernel R170) -/

@[simp] theorem launch_rows (s : State) : (launch s).rows = s.rows := rfl
@[simp] theorem launch_cols (s : State) : (launch s).cols = s.cols := rfl
@[simp] theorem launch_width (s : State) : (launch s).width = s.width := rfl
@[simp] theorem launch_count (s : State) : (launch s).count = s.count := rfl
@[simp] theorem launch_wlen (s : State) : (launch s).wlen = s.wlen := rfl
@[simp] theorem launch_xlen (s : State) : (launch s).xlen = s.xlen := rfl
@[simp] theorem launch_status (s : State) : (launch s).status = s.status.setBusy := rfl
@[simp] theorem launch_einfo (s : State) : (launch s).einfo = s.einfo := rfl
@[simp] theorem launch_tbuf (s : State) : (launch s).tbuf = s.tbuf := rfl
@[simp] theorem launch_wbuf (s : State) : (launch s).wbuf = s.wbuf := rfl
@[simp] theorem launch_xbuf (s : State) : (launch s).xbuf = s.xbuf := rfl
@[simp] theorem launch_ybuf (s : State) : (launch s).ybuf = s.ybuf := rfl
@[simp] theorem launch_engine (s : State) : (launch s).engine = some (newRun s) := rfl
@[simp] theorem launch_inbox (s : State) : (launch s).inbox = s.inbox := rfl
@[simp] theorem launch_readData (s : State) : (launch s).readData = s.readData := rfl
@[simp] theorem launch_pick (s : State) : (launch s).pick = s.pick := rfl
@[simp] theorem launch_draws (s : State) : (launch s).draws = s.draws := rfl
@[simp] theorem launch_cfg (s : State) : (launch s).cfg = s.cfg := rfl

/-! ### `completeRun` (43_parallel_kernel R183) -/

@[simp] theorem completeRun_rows (s : State) : (completeRun s).rows = s.rows := rfl
@[simp] theorem completeRun_cols (s : State) : (completeRun s).cols = s.cols := rfl
@[simp] theorem completeRun_width (s : State) : (completeRun s).width = s.width := rfl
@[simp] theorem completeRun_count (s : State) : (completeRun s).count = s.count := rfl
@[simp] theorem completeRun_wlen (s : State) : (completeRun s).wlen = s.wlen := rfl
@[simp] theorem completeRun_xlen (s : State) : (completeRun s).xlen = s.xlen := rfl
@[simp] theorem completeRun_status (s : State) : (completeRun s).status = s.status.endDispatch := rfl
@[simp] theorem completeRun_einfo (s : State) : (completeRun s).einfo = s.einfo := rfl
@[simp] theorem completeRun_tbuf (s : State) : (completeRun s).tbuf = s.tbuf := rfl
@[simp] theorem completeRun_wbuf (s : State) : (completeRun s).wbuf = s.wbuf := rfl
@[simp] theorem completeRun_xbuf (s : State) : (completeRun s).xbuf = s.xbuf := rfl
@[simp] theorem completeRun_ybuf (s : State) : (completeRun s).ybuf = s.ybuf := rfl
@[simp] theorem completeRun_engine (s : State) : (completeRun s).engine = none := rfl
@[simp] theorem completeRun_inbox (s : State) : (completeRun s).inbox = s.inbox := rfl
@[simp] theorem completeRun_readData (s : State) : (completeRun s).readData = s.readData := rfl
@[simp] theorem completeRun_pick (s : State) : (completeRun s).pick = s.pick := rfl
@[simp] theorem completeRun_draws (s : State) : (completeRun s).draws = s.draws := rfl
@[simp] theorem completeRun_cfg (s : State) : (completeRun s).cfg = s.cfg := rfl

/-! ### `deviceError` (43_parallel_kernel R187) -/

@[simp] theorem deviceError_rows (s : State) : (deviceError s).rows = s.rows := rfl
@[simp] theorem deviceError_cols (s : State) : (deviceError s).cols = s.cols := rfl
@[simp] theorem deviceError_width (s : State) : (deviceError s).width = s.width := rfl
@[simp] theorem deviceError_count (s : State) : (deviceError s).count = s.count := rfl
@[simp] theorem deviceError_wlen (s : State) : (deviceError s).wlen = s.wlen := rfl
@[simp] theorem deviceError_xlen (s : State) : (deviceError s).xlen = s.xlen := rfl
@[simp] theorem deviceError_status (s : State) : (deviceError s).status = errorStatus .deviceError := rfl
@[simp] theorem deviceError_einfo (s : State) : (deviceError s).einfo = 0 := rfl
@[simp] theorem deviceError_tbuf (s : State) : (deviceError s).tbuf = s.tbuf := rfl
@[simp] theorem deviceError_wbuf (s : State) : (deviceError s).wbuf = s.wbuf := rfl
@[simp] theorem deviceError_xbuf (s : State) : (deviceError s).xbuf = s.xbuf := rfl
@[simp] theorem deviceError_ybuf (s : State) : (deviceError s).ybuf = Memory.dropBelow s.ybuf s.rows.toNat := rfl
@[simp] theorem deviceError_engine (s : State) : (deviceError s).engine = s.engine := rfl
@[simp] theorem deviceError_inbox (s : State) : (deviceError s).inbox = s.inbox := rfl
@[simp] theorem deviceError_readData (s : State) : (deviceError s).readData = s.readData := rfl
@[simp] theorem deviceError_pick (s : State) : (deviceError s).pick = s.pick := rfl
@[simp] theorem deviceError_draws (s : State) : (deviceError s).draws = s.draws := rfl
@[simp] theorem deviceError_cfg (s : State) : (deviceError s).cfg = s.cfg := rfl

/-! ### `putGroup` (the dispatch with one workgroup replaced) -/

@[simp] theorem putGroup_rows (s : State) (e : EngineRun) (g : Nat) (wg : Workgroup) : (putGroup s e g wg).rows = s.rows := rfl
@[simp] theorem putGroup_cols (s : State) (e : EngineRun) (g : Nat) (wg : Workgroup) : (putGroup s e g wg).cols = s.cols := rfl
@[simp] theorem putGroup_width (s : State) (e : EngineRun) (g : Nat) (wg : Workgroup) : (putGroup s e g wg).width = s.width := rfl
@[simp] theorem putGroup_count (s : State) (e : EngineRun) (g : Nat) (wg : Workgroup) : (putGroup s e g wg).count = s.count := rfl
@[simp] theorem putGroup_wlen (s : State) (e : EngineRun) (g : Nat) (wg : Workgroup) : (putGroup s e g wg).wlen = s.wlen := rfl
@[simp] theorem putGroup_xlen (s : State) (e : EngineRun) (g : Nat) (wg : Workgroup) : (putGroup s e g wg).xlen = s.xlen := rfl
@[simp] theorem putGroup_status (s : State) (e : EngineRun) (g : Nat) (wg : Workgroup) : (putGroup s e g wg).status = s.status := rfl
@[simp] theorem putGroup_einfo (s : State) (e : EngineRun) (g : Nat) (wg : Workgroup) : (putGroup s e g wg).einfo = s.einfo := rfl
@[simp] theorem putGroup_tbuf (s : State) (e : EngineRun) (g : Nat) (wg : Workgroup) : (putGroup s e g wg).tbuf = s.tbuf := rfl
@[simp] theorem putGroup_wbuf (s : State) (e : EngineRun) (g : Nat) (wg : Workgroup) : (putGroup s e g wg).wbuf = s.wbuf := rfl
@[simp] theorem putGroup_xbuf (s : State) (e : EngineRun) (g : Nat) (wg : Workgroup) : (putGroup s e g wg).xbuf = s.xbuf := rfl
@[simp] theorem putGroup_ybuf (s : State) (e : EngineRun) (g : Nat) (wg : Workgroup) : (putGroup s e g wg).ybuf = s.ybuf := rfl
@[simp] theorem putGroup_engine (s : State) (e : EngineRun) (g : Nat) (wg : Workgroup) : (putGroup s e g wg).engine = some { e with groups := e.groups.set g wg } := rfl
@[simp] theorem putGroup_inbox (s : State) (e : EngineRun) (g : Nat) (wg : Workgroup) : (putGroup s e g wg).inbox = s.inbox := rfl
@[simp] theorem putGroup_readData (s : State) (e : EngineRun) (g : Nat) (wg : Workgroup) : (putGroup s e g wg).readData = s.readData := rfl
@[simp] theorem putGroup_pick (s : State) (e : EngineRun) (g : Nat) (wg : Workgroup) : (putGroup s e g wg).pick = s.pick := rfl
@[simp] theorem putGroup_draws (s : State) (e : EngineRun) (g : Nat) (wg : Workgroup) : (putGroup s e g wg).draws = s.draws := rfl
@[simp] theorem putGroup_cfg (s : State) (e : EngineRun) (g : Nat) (wg : Workgroup) : (putGroup s e g wg).cfg = s.cfg := rfl

/-! ### `hostRdcr` (44_host_commands R212) -/

@[simp] theorem hostRdcr_rows (i : Word) (s : State) : (hostRdcr i s).rows = s.rows := rfl
@[simp] theorem hostRdcr_cols (i : Word) (s : State) : (hostRdcr i s).cols = s.cols := rfl
@[simp] theorem hostRdcr_width (i : Word) (s : State) : (hostRdcr i s).width = s.width := rfl
@[simp] theorem hostRdcr_count (i : Word) (s : State) : (hostRdcr i s).count = s.count := rfl
@[simp] theorem hostRdcr_wlen (i : Word) (s : State) : (hostRdcr i s).wlen = s.wlen := rfl
@[simp] theorem hostRdcr_xlen (i : Word) (s : State) : (hostRdcr i s).xlen = s.xlen := rfl
@[simp] theorem hostRdcr_status (i : Word) (s : State) : (hostRdcr i s).status = s.status := rfl
@[simp] theorem hostRdcr_einfo (i : Word) (s : State) : (hostRdcr i s).einfo = s.einfo := rfl
@[simp] theorem hostRdcr_tbuf (i : Word) (s : State) : (hostRdcr i s).tbuf = s.tbuf := rfl
@[simp] theorem hostRdcr_wbuf (i : Word) (s : State) : (hostRdcr i s).wbuf = s.wbuf := rfl
@[simp] theorem hostRdcr_xbuf (i : Word) (s : State) : (hostRdcr i s).xbuf = s.xbuf := rfl
@[simp] theorem hostRdcr_ybuf (i : Word) (s : State) : (hostRdcr i s).ybuf = s.ybuf := rfl
@[simp] theorem hostRdcr_engine (i : Word) (s : State) : (hostRdcr i s).engine = s.engine := rfl
@[simp] theorem hostRdcr_inbox (i : Word) (s : State) : (hostRdcr i s).inbox = s.inbox := rfl
@[simp] theorem hostRdcr_readData (i : Word) (s : State) : (hostRdcr i s).readData = some (.w32 (readCR s i)) := rfl
@[simp] theorem hostRdcr_pick (i : Word) (s : State) : (hostRdcr i s).pick = s.pick := rfl
@[simp] theorem hostRdcr_draws (i : Word) (s : State) : (hostRdcr i s).draws = s.draws := rfl
@[simp] theorem hostRdcr_cfg (i : Word) (s : State) : (hostRdcr i s).cfg = s.cfg := rfl

/-! ### `drawNext` (the draws of a step) -/

@[simp] theorem drawNext_rows (s : State) : (drawNext s).rows = s.rows := rfl
@[simp] theorem drawNext_cols (s : State) : (drawNext s).cols = s.cols := rfl
@[simp] theorem drawNext_width (s : State) : (drawNext s).width = s.width := rfl
@[simp] theorem drawNext_count (s : State) : (drawNext s).count = s.count := rfl
@[simp] theorem drawNext_wlen (s : State) : (drawNext s).wlen = s.wlen := rfl
@[simp] theorem drawNext_xlen (s : State) : (drawNext s).xlen = s.xlen := rfl
@[simp] theorem drawNext_status (s : State) : (drawNext s).status = s.status := rfl
@[simp] theorem drawNext_einfo (s : State) : (drawNext s).einfo = s.einfo := rfl
@[simp] theorem drawNext_tbuf (s : State) : (drawNext s).tbuf = s.tbuf := rfl
@[simp] theorem drawNext_wbuf (s : State) : (drawNext s).wbuf = s.wbuf := rfl
@[simp] theorem drawNext_xbuf (s : State) : (drawNext s).xbuf = s.xbuf := rfl
@[simp] theorem drawNext_ybuf (s : State) : (drawNext s).ybuf = s.ybuf := rfl
@[simp] theorem drawNext_engine (s : State) : (drawNext s).engine = s.engine := rfl
@[simp] theorem drawNext_inbox (s : State) : (drawNext s).inbox = s.inbox := rfl
@[simp] theorem drawNext_readData (s : State) : (drawNext s).readData = s.readData := rfl
@[simp] theorem drawNext_pick (s : State) : (drawNext s).pick = Config.schedule s.draws := rfl
@[simp] theorem drawNext_draws (s : State) : (drawNext s).draws = s.draws + 1 := rfl
@[simp] theorem drawNext_cfg (s : State) : (drawNext s).cfg = s.cfg := rfl

/-! ### `placeCommand` (the next transaction) -/

@[simp] theorem placeCommand_rows (w : Word) (s : State) : (placeCommand w s).rows = s.rows := rfl
@[simp] theorem placeCommand_cols (w : Word) (s : State) : (placeCommand w s).cols = s.cols := rfl
@[simp] theorem placeCommand_width (w : Word) (s : State) : (placeCommand w s).width = s.width := rfl
@[simp] theorem placeCommand_count (w : Word) (s : State) : (placeCommand w s).count = s.count := rfl
@[simp] theorem placeCommand_wlen (w : Word) (s : State) : (placeCommand w s).wlen = s.wlen := rfl
@[simp] theorem placeCommand_xlen (w : Word) (s : State) : (placeCommand w s).xlen = s.xlen := rfl
@[simp] theorem placeCommand_status (w : Word) (s : State) : (placeCommand w s).status = s.status := rfl
@[simp] theorem placeCommand_einfo (w : Word) (s : State) : (placeCommand w s).einfo = s.einfo := rfl
@[simp] theorem placeCommand_tbuf (w : Word) (s : State) : (placeCommand w s).tbuf = s.tbuf := rfl
@[simp] theorem placeCommand_wbuf (w : Word) (s : State) : (placeCommand w s).wbuf = s.wbuf := rfl
@[simp] theorem placeCommand_xbuf (w : Word) (s : State) : (placeCommand w s).xbuf = s.xbuf := rfl
@[simp] theorem placeCommand_ybuf (w : Word) (s : State) : (placeCommand w s).ybuf = s.ybuf := rfl
@[simp] theorem placeCommand_engine (w : Word) (s : State) : (placeCommand w s).engine = s.engine := rfl
@[simp] theorem placeCommand_inbox (w : Word) (s : State) : (placeCommand w s).inbox = .command w :: s.inbox := rfl
@[simp] theorem placeCommand_readData (w : Word) (s : State) : (placeCommand w s).readData = s.readData := rfl
@[simp] theorem placeCommand_pick (w : Word) (s : State) : (placeCommand w s).pick = 0 := rfl
@[simp] theorem placeCommand_draws (w : Word) (s : State) : (placeCommand w s).draws = s.draws := rfl
@[simp] theorem placeCommand_cfg (w : Word) (s : State) : (placeCommand w s).cfg = s.cfg := rfl

/-! ### `resetEvent` (70_reset_and_hazards R270) -/

@[simp] theorem resetEvent_rows (s : State) : (resetEvent s).rows = 0 := rfl
@[simp] theorem resetEvent_cols (s : State) : (resetEvent s).cols = 0 := rfl
@[simp] theorem resetEvent_width (s : State) : (resetEvent s).width = 32 := rfl
@[simp] theorem resetEvent_count (s : State) : (resetEvent s).count = 0 := rfl
@[simp] theorem resetEvent_wlen (s : State) : (resetEvent s).wlen = 0 := rfl
@[simp] theorem resetEvent_xlen (s : State) : (resetEvent s).xlen = 0 := rfl
@[simp] theorem resetEvent_status (s : State) : (resetEvent s).status = { busy := false, done := false, err := false, ecode := 0 } := rfl
@[simp] theorem resetEvent_einfo (s : State) : (resetEvent s).einfo = 0 := rfl
@[simp] theorem resetEvent_tbuf (s : State) : (resetEvent s).tbuf = [] := rfl
@[simp] theorem resetEvent_wbuf (s : State) : (resetEvent s).wbuf = [] := rfl
@[simp] theorem resetEvent_xbuf (s : State) : (resetEvent s).xbuf = [] := rfl
@[simp] theorem resetEvent_ybuf (s : State) : (resetEvent s).ybuf = [] := rfl
@[simp] theorem resetEvent_engine (s : State) : (resetEvent s).engine = none := rfl
@[simp] theorem resetEvent_inbox (s : State) : (resetEvent s).inbox = s.inbox := rfl
@[simp] theorem resetEvent_readData (s : State) : (resetEvent s).readData = s.readData := rfl
@[simp] theorem resetEvent_pick (s : State) : (resetEvent s).pick = s.pick := rfl
@[simp] theorem resetEvent_draws (s : State) : (resetEvent s).draws = s.draws := rfl
@[simp] theorem resetEvent_cfg (s : State) : (resetEvent s).cfg = s.cfg := rfl

/-! ### `writeCR`: nothing but `CR[0 .. 5]` (44_host_commands R211) -/

@[simp] theorem writeCR_status (s : State) (i v : Word) : (writeCR s i v).status = s.status := by
  unfold writeCR; split <;> rfl

@[simp] theorem writeCR_einfo (s : State) (i v : Word) : (writeCR s i v).einfo = s.einfo := by
  unfold writeCR; split <;> rfl

@[simp] theorem writeCR_tbuf (s : State) (i v : Word) : (writeCR s i v).tbuf = s.tbuf := by
  unfold writeCR; split <;> rfl

@[simp] theorem writeCR_wbuf (s : State) (i v : Word) : (writeCR s i v).wbuf = s.wbuf := by
  unfold writeCR; split <;> rfl

@[simp] theorem writeCR_xbuf (s : State) (i v : Word) : (writeCR s i v).xbuf = s.xbuf := by
  unfold writeCR; split <;> rfl

@[simp] theorem writeCR_ybuf (s : State) (i v : Word) : (writeCR s i v).ybuf = s.ybuf := by
  unfold writeCR; split <;> rfl

@[simp] theorem writeCR_engine (s : State) (i v : Word) : (writeCR s i v).engine = s.engine := by
  unfold writeCR; split <;> rfl

@[simp] theorem writeCR_inbox (s : State) (i v : Word) : (writeCR s i v).inbox = s.inbox := by
  unfold writeCR; split <;> rfl

@[simp] theorem writeCR_readData (s : State) (i v : Word) : (writeCR s i v).readData = s.readData := by
  unfold writeCR; split <;> rfl

@[simp] theorem writeCR_pick (s : State) (i v : Word) : (writeCR s i v).pick = s.pick := by
  unfold writeCR; split <;> rfl

@[simp] theorem writeCR_draws (s : State) (i v : Word) : (writeCR s i v).draws = s.draws := by
  unfold writeCR; split <;> rfl

@[simp] theorem writeCR_cfg (s : State) (i v : Word) : (writeCR s i v).cfg = s.cfg := by
  unfold writeCR; split <;> rfl

/-! ### STATUS (10_state R30, R32) -/

@[simp] theorem Status.dropDone_busy (st : Status) : st.dropDone.busy = st.busy := rfl
@[simp] theorem Status.dropDone_done (st : Status) : st.dropDone.done = false := rfl
@[simp] theorem Status.dropDone_err (st : Status) : st.dropDone.err = st.err := rfl
@[simp] theorem Status.dropDone_ecode (st : Status) : st.dropDone.ecode = st.ecode := rfl
@[simp] theorem Status.setDone_busy (st : Status) : st.setDone.busy = st.busy := rfl
@[simp] theorem Status.setDone_done (st : Status) : st.setDone.done = true := rfl
@[simp] theorem Status.setDone_err (st : Status) : st.setDone.err = st.err := rfl
@[simp] theorem Status.setDone_ecode (st : Status) : st.setDone.ecode = st.ecode := rfl
@[simp] theorem Status.setBusy_busy (st : Status) : st.setBusy.busy = true := rfl
@[simp] theorem Status.setBusy_done (st : Status) : st.setBusy.done = st.done := rfl
@[simp] theorem Status.setBusy_err (st : Status) : st.setBusy.err = st.err := rfl
@[simp] theorem Status.setBusy_ecode (st : Status) : st.setBusy.ecode = st.ecode := rfl
@[simp] theorem Status.endDispatch_busy (st : Status) : st.endDispatch.busy = false := rfl
@[simp] theorem Status.endDispatch_done (st : Status) : st.endDispatch.done = true := rfl
@[simp] theorem Status.endDispatch_err (st : Status) : st.endDispatch.err = st.err := rfl
@[simp] theorem Status.endDispatch_ecode (st : Status) : st.endDispatch.ecode = st.ecode := rfl
@[simp] theorem Status.clear_busy (st : Status) : st.clear.busy = st.busy := rfl
@[simp] theorem Status.clear_done (st : Status) : st.clear.done = false := rfl
@[simp] theorem Status.clear_err (st : Status) : st.clear.err = false := rfl
@[simp] theorem Status.clear_ecode (st : Status) : st.clear.ecode = 0 := rfl
@[simp] theorem errorStatus_busy (e : ErrorKind) : (errorStatus e).busy = false := rfl
@[simp] theorem errorStatus_done (e : ErrorKind) : (errorStatus e).done = false := rfl
@[simp] theorem errorStatus_err (e : ErrorKind) : (errorStatus e).err = true := rfl
@[simp] theorem errorStatus_ecode (e : ErrorKind) : (errorStatus e).ecode = errorCode e := rfl

/-! ### Workgroups -/

@[simp] theorem Workgroup.applyLane_lanes (wg : Workgroup) (l : Nat) (e : LaneEffect) : (wg.applyLane l e).lanes = wg.lanes.set l { pos := e.pos, acc := e.acc } := rfl
@[simp] theorem Workgroup.applyLane_shmX (wg : Workgroup) (l : Nat) (e : LaneEffect) : (wg.applyLane l e).shmX = e.shmX := rfl
@[simp] theorem Workgroup.applyLane_shmR (wg : Workgroup) (l : Nat) (e : LaneEffect) : (wg.applyLane l e).shmR = e.shmR := rfl
@[simp] theorem Workgroup.applyLane_gen (wg : Workgroup) (l : Nat) (e : LaneEffect) : (wg.applyLane l e).gen = wg.gen := rfl
@[simp] theorem Workgroup.release_lanes (sh : Shape) (wg : Workgroup) : (wg.release sh).lanes = releasedLanes sh wg.lanes := rfl
@[simp] theorem Workgroup.release_shmX (sh : Shape) (wg : Workgroup) : (wg.release sh).shmX = wg.shmX := rfl
@[simp] theorem Workgroup.release_shmR (sh : Shape) (wg : Workgroup) : (wg.release sh).shmR = wg.shmR := rfl
@[simp] theorem Workgroup.release_arrived (sh : Shape) (wg : Workgroup) : (wg.release sh).arrived = lanesAtBarrier (releasedLanes sh wg.lanes) := rfl
@[simp] theorem Workgroup.release_gen (sh : Shape) (wg : Workgroup) : (wg.release sh).gen = wg.gen + 1 := rfl
@[simp] theorem shapeOf_rows (p : Params) (e : EngineRun) : (shapeOf p e).rows = e.rows := rfl
@[simp] theorem shapeOf_cols (p : Params) (e : EngineRun) : (shapeOf p e).cols = e.cols := rfl
@[simp] theorem shapeOf_width (p : Params) (e : EngineRun) : (shapeOf p e).width = e.width := rfl
@[simp] theorem shapeOf_laneLog (p : Params) (e : EngineRun) : (shapeOf p e).laneLog = p.laneLog := rfl
@[simp] theorem shapeOf_tileWords (p : Params) (e : EngineRun) : (shapeOf p e).tileWords = tileWordCount p e.width := rfl

end Sys2Proof.Machine
end

