-- ==== Sys2Proof/Laws/Commands.lean ====
section
/-! SUPPORT. What the shared operations of the commands can do, said once: acceptance, the checks, the span reads and stores; and
one inversion lemma per command ("if it answers a next state, then one of these"). -/

set_option autoImplicit false

namespace Sys2Proof.Machine

variable {s t : State} {op : State → Host.Outcome State Fault Refusal}

/-! ### Acceptance (44_host_commands R214) -/

theorem acceptOperation_of_idle (hb : s.status.busy = false) (he : s.status.err = false) :
    acceptOperation op s = op { s with status := s.status.dropDone } := by
  simp [acceptOperation, hb, he]

theorem acceptOperation_of_busy (hb : s.status.busy = true) : acceptOperation op s = .next s := by
  simp [acceptOperation, hb]

theorem acceptOperation_of_err (he : s.status.err = true) : acceptOperation op s = .next s := by
  simp [acceptOperation, he]

/-- An operation command is dropped, or runs on the state with DONE cleared. -/
theorem acceptOperation_cases (op : State → Host.Outcome State Fault Refusal) (s : State) :
    (acceptOperation op s = .next s ∧ (s.status.busy = true ∨ s.status.err = true)) ∨
    (s.status.busy = false ∧ s.status.err = false ∧
      acceptOperation op s = op { s with status := s.status.dropDone }) := by
  cases hb : s.status.busy
  · cases he : s.status.err
    · exact .inr ⟨rfl, rfl, acceptOperation_of_idle hb he⟩
    · exact .inl ⟨acceptOperation_of_err he, .inr rfl⟩
  · exact .inl ⟨acceptOperation_of_busy hb, .inl rfl⟩

/-! ### Checks (60_exceptions R242) -/

theorem widthBad_eq_true {W : Nat} : widthBad W = true ↔ W < 2 ∨ 32 < W := by
  rw [widthBad, Bool.or_eq_true, decide_eq_true_eq, decide_eq_true_eq]; rfl

theorem widthBad_eq_false {W : Nat} : widthBad W = false ↔ 2 ≤ W ∧ W ≤ 32 := by
  rw [← Bool.not_eq_true, widthBad_eq_true]; omega

/-- No check fails: each of the listed ones is passed. -/
theorem firstFailed_eq_none {l : List (Bool × Nat)} : firstFailed l = none ↔ ∀ c ∈ l, c.1 = false := by
  induction l with
  | nil => simp [firstFailed]
  | cons c l ih =>
    obtain ⟨b, n⟩ := c
    cases b <;> simp [firstFailed, ih]

theorem packCheck_eq_none :
    packCheck s = none ↔
      (2 ≤ s.width.toNat ∧ s.width.toNat ≤ 32) ∧ s.count.toNat ≤ s.cfg.tcap ∧
      divCeil s.count.toNat (s.width.toNat / 2) ≤ s.cfg.wcap := by
  rw [packCheck, firstFailed_eq_none]
  simp only [List.forall_mem_cons, List.not_mem_nil, false_imp_iff, implies_true, and_true, widthBad_eq_false,
    decide_eq_false_iff_not, Nat.not_lt]
  rfl

theorem unpackCheck_eq_none :
    unpackCheck s = none ↔
      (2 ≤ s.width.toNat ∧ s.width.toNat ≤ 32) ∧
      (divCeil s.count.toNat (s.width.toNat / 2) ≤ s.wlen.toNat ∧ s.wlen.toNat ≤ s.cfg.wcap) ∧
      s.count.toNat ≤ s.cfg.tcap := by
  rw [unpackCheck, firstFailed_eq_none]
  simp only [List.forall_mem_cons, List.not_mem_nil, false_imp_iff, implies_true, and_true, widthBad_eq_false,
    Bool.or_eq_false_iff, decide_eq_false_iff_not, Nat.not_lt]
  rfl

theorem packmCheck_eq_none :
    packmCheck s = none ↔
      (2 ≤ s.width.toNat ∧ s.width.toNat ≤ 32) ∧ s.rows.toNat * s.cols.toNat ≤ s.cfg.tcap ∧
      s.rows.toNat * divCeil s.cols.toNat (s.width.toNat / 2) ≤ s.cfg.wcap := by
  rw [packmCheck, firstFailed_eq_none]
  simp only [List.forall_mem_cons, List.not_mem_nil, false_imp_iff, implies_true, and_true, widthBad_eq_false,
    decide_eq_false_iff_not, Nat.not_lt]
  rfl

theorem runmvCheck_eq_none :
    runmvCheck s = none ↔
      (2 ≤ s.width.toNat ∧ s.width.toNat ≤ 32) ∧
      (s.wlen.toNat = s.rows.toNat * divCeil s.cols.toNat (s.width.toNat / 2) ∧ s.wlen.toNat ≤ s.cfg.wcap) ∧
      (s.xlen.toNat = s.cols.toNat ∧ s.xlen.toNat ≤ s.cfg.xcap) ∧ s.rows.toNat ≤ s.cfg.ycap := by
  rw [runmvCheck, firstFailed_eq_none]
  simp only [List.forall_mem_cons, List.not_mem_nil, false_imp_iff, implies_true, and_true, widthBad_eq_false,
    Bool.or_eq_false_iff, decide_eq_false_iff_not, Nat.not_lt, ne_eq, Decidable.not_not]
  rfl

/-- The checks look at the control registers and the parameters only. -/
theorem runmvCheck_congr (h1 : t.rows = s.rows) (h2 : t.cols = s.cols) (h3 : t.width = s.width) (h4 : t.wlen = s.wlen)
    (h5 : t.xlen = s.xlen) (h6 : t.cfg = s.cfg) : runmvCheck t = runmvCheck s := by
  simp [runmvCheck, h1, h2, h3, h4, h5, h6]

/-! ### PACK and PACKM after their checks (40_codec R114) -/

/-- All raw values read are ternary: the words are stored. -/
theorem packValues_of_valid {n : Nat} {toWords : List Int → List Word} {raw : List Byte}
    (hr : readSpan (.buffer .tbuf) s.tbuf 0 n = .ok raw) (hv : firstInvalid (raw.map rawToInt) = none) :
    packValues n toWords s = .next (storeWords (toWords (raw.map rawToInt)) s) := by
  simp [packValues, hr, hv]

/-- A raw value is not ternary: the error, and nothing is stored. -/
theorem packValues_of_invalid {n i : Nat} {toWords : List Int → List Word} {raw : List Byte}
    (hr : readSpan (.buffer .tbuf) s.tbuf 0 n = .ok raw) (hv : firstInvalid (raw.map rawToInt) = some i) :
    packValues n toWords s = .next (raiseError .invalidValue (indexInfo i) s) := by
  simp [packValues, hr, hv]

/-- What PACK and PACKM can do after their checks. -/
theorem packValues_next {n : Nat} {toWords : List Int → List Word} (h : packValues n toWords s = .next t) :
    ∃ raw, readSpan (.buffer .tbuf) s.tbuf 0 n = .ok raw ∧ raw.length = n ∧
      ((∃ i, firstInvalid (raw.map rawToInt) = some i ∧ t = raiseError .invalidValue (indexInfo i) s) ∨
        (firstInvalid (raw.map rawToInt) = none ∧ t = storeWords (toWords (raw.map rawToInt)) s)) := by
  unfold packValues at h
  split at h
  · cases h
  · next raw hr =>
    refine ⟨raw, hr, (readSpan_eq_ok.1 hr).1, ?_⟩
    split at h
    · next i hi => exact .inl ⟨i, hi, (Host.Outcome.next.inj h).symm⟩
    · next hn => exact .inr ⟨hn, (Host.Outcome.next.inj h).symm⟩

theorem readSpan_error {w : Nat} {sp : Space} {m : Memory w} {start n i : Nat} (hi : i < n)
    (hn : Memory.read m (start + i) = none) (hlt : ∀ i', i' < i → (Memory.read m (start + i')).isSome = true) :
    readSpan sp m start n = .error (.noValue sp (start + i)) := by
  induction n generalizing start i with
  | zero => omega
  | succ n ih =>
    rw [readSpan]
    cases i with
    | zero => rw [readElement_eq_error.2 ⟨by simpa using hn, rfl⟩]; simp
    | succ i =>
      obtain ⟨v, hv⟩ := Option.isSome_iff_exists.1 (hlt 0 (by omega))
      rw [readElement_eq_ok.2 (by simpa using hv)]
      have := ih (start := start + 1) (i := i) (by omega) (by rw [← hn]; congr 1; omega) (fun i' h' => by
        have := hlt (i' + 1) (by omega)
        rwa [show start + 1 + i' = start + (i' + 1) by omega])
      simp only [this]
      congr 2; omega

/-- A span all of whose elements hold a value reads as a list of them. -/
theorem readSpan_of_filled {w : Nat} (sp : Space) {m : Memory w} {start n : Nat}
    (h : ∀ i, i < n → (Memory.read m (start + i)).isSome = true) : ∃ vs, readSpan sp m start n = .ok vs := by
  induction n generalizing start with
  | zero => exact ⟨[], rfl⟩
  | succ n ih =>
    obtain ⟨v, hv⟩ := Option.isSome_iff_exists.1 (h 0 (by omega))
    obtain ⟨vs, hvs⟩ := ih (start := start + 1) (fun i hi => by
      have := h (i + 1) (by omega)
      rwa [show start + 1 + i = start + (i + 1) by omega])
    refine ⟨v :: vs, ?_⟩
    rw [readSpan, readElement_eq_ok.2 (by simpa using hv)]
    simp [hvs]

/-! ### One inversion lemma per command -/

theorem execPack_next (h : execPack s = .next t) :
    t = s ∨
    (∃ n, t = dimensionMismatch n { s with status := s.status.dropDone }) ∨
    (s.status.busy = false ∧ s.status.err = false ∧ packCheck s = none ∧ ∃ raw : List Byte, raw.length = s.count.toNat ∧
      ((∃ info, t = raiseError .invalidValue info { s with status := s.status.dropDone }) ∨
        t = storeWords (packChunks s.width.toNat (raw.map rawToInt)) { s with status := s.status.dropDone })) := by
  rcases acceptOperation_cases runPack s with ⟨h1, -⟩ | ⟨hb, he, h1⟩
  · exact .inl (Host.Outcome.next.inj (h.symm.trans h1))
  · rw [execPack, h1] at h
    unfold runPack at h
    split at h
    · next n _ => exact .inr (.inl ⟨n, (Host.Outcome.next.inj h).symm⟩)
    · next hc =>
      obtain ⟨raw, -, hl, h⟩ := packValues_next h
      refine .inr (.inr ⟨hb, he, hc, raw, hl, ?_⟩)
      rcases h with ⟨i, -, rfl⟩ | ⟨-, rfl⟩
      · exact .inl ⟨_, rfl⟩
      · exact .inr rfl

theorem execPackm_next (h : execPackm s = .next t) :
    t = s ∨
    (∃ n, t = dimensionMismatch n { s with status := s.status.dropDone }) ∨
    (s.status.busy = false ∧ s.status.err = false ∧ packmCheck s = none ∧
      ∃ raw : List Byte, raw.length = s.rows.toNat * s.cols.toNat ∧
      ((∃ info, t = raiseError .invalidValue info { s with status := s.status.dropDone }) ∨
        t = storeWords (packRows s.width.toNat s.rows.toNat s.cols.toNat (raw.map rawToInt))
          { s with status := s.status.dropDone })) := by
  rcases acceptOperation_cases runPackm s with ⟨h1, -⟩ | ⟨hb, he, h1⟩
  · exact .inl (Host.Outcome.next.inj (h.symm.trans h1))
  · rw [execPackm, h1] at h
    unfold runPackm at h
    split at h
    · next n _ => exact .inr (.inl ⟨n, (Host.Outcome.next.inj h).symm⟩)
    · next hc =>
      obtain ⟨raw, -, hl, h⟩ := packValues_next h
      refine .inr (.inr ⟨hb, he, hc, raw, hl, ?_⟩)
      rcases h with ⟨i, -, rfl⟩ | ⟨-, rfl⟩
      · exact .inl ⟨_, rfl⟩
      · exact .inr rfl

theorem execUnpack_next (h : execUnpack s = .next t) :
    t = s ∨
    (∃ n, t = dimensionMismatch n { s with status := s.status.dropDone }) ∨
    (s.status.busy = false ∧ s.status.err = false ∧ unpackCheck s = none ∧
      ∃ vs : List Int, vs.length = s.count.toNat ∧ t = storeValues vs { s with status := s.status.dropDone }) := by
  rcases acceptOperation_cases runUnpack s with ⟨h1, -⟩ | ⟨hb, he, h1⟩
  · exact .inl (Host.Outcome.next.inj (h.symm.trans h1))
  · rw [execUnpack, h1] at h
    unfold runUnpack at h
    split at h
    · next n _ => exact .inr (.inl ⟨n, (Host.Outcome.next.inj h).symm⟩)
    · next hc =>
      dsimp only at h
      split at h
      · cases h
      · exact .inr (.inr ⟨hb, he, hc, _, by simp [unpack], (Host.Outcome.next.inj h).symm⟩)

end Sys2Proof.Machine
end

