-- ==== Sys2Proof/Laws/Lanes.lean ====
section
/-! SUPPORT. The laws of the lanes: the set of waiting lanes, the positions after a micro-step and after a barrier release, and
what one lane micro-step can do, said once per position. -/

set_option autoImplicit false

namespace Sys2Proof.Machine

/-! ### The set of waiting lanes (20_memory R65) -/

theorem mem_joinArrived {l a : Nat} {r : List Nat} : a ∈ joinArrived l r ↔ a ∈ r ∨ a = l := by
  induction r with
  | nil => simp [joinArrived]
  | cons b r ih =>
    simp only [joinArrived]
    split
    · simp only [List.mem_cons]; tauto
    · split
      · next h => subst h; simp only [List.mem_cons]; tauto
      · simp only [List.mem_cons, ih]; tauto

theorem pairwise_joinArrived {l : Nat} {r : List Nat} (h : r.Pairwise (· < ·)) : (joinArrived l r).Pairwise (· < ·) := by
  induction r with
  | nil => simp [joinArrived]
  | cons b r ih =>
    obtain ⟨h1, h2⟩ := List.pairwise_cons.1 h
    simp only [joinArrived]
    split
    · next hlt =>
      exact List.pairwise_cons.2 ⟨by rintro x hx; rcases List.mem_cons.1 hx with rfl | hx; exacts [hlt, hlt.trans (h1 x hx)], h⟩
    · split
      · exact h
      · refine List.pairwise_cons.2 ⟨fun x hx => ?_, ih h2⟩
        rcases mem_joinArrived.1 hx with hx | rfl
        · exact h1 x hx
        · omega

theorem mem_lanesAtBarrier {lanes : List Lane} {l : Nat} :
    l ∈ lanesAtBarrier lanes ↔ ∃ ln, lanes[l]? = some ln ∧ ln.pos.atBarrier = true := by
  simp only [lanesAtBarrier, List.mem_filter, List.mem_range]
  constructor
  · rintro ⟨h, h2⟩
    rw [List.getElem?_eq_getElem h] at h2
    exact ⟨_, List.getElem?_eq_getElem h, h2⟩
  · rintro ⟨ln, h, h2⟩
    exact ⟨(List.getElem?_eq_some_iff.1 h).1, by rw [h]; exact h2⟩

theorem pairwise_lanesAtBarrier (lanes : List Lane) : (lanesAtBarrier lanes).Pairwise (· < ·) :=
  List.pairwise_lt_range.filter _

/-- Two strictly rising lists with the same members are equal. -/
theorem eq_of_rising {a b : List Nat} (ha : a.Pairwise (· < ·)) (hb : b.Pairwise (· < ·)) (h : ∀ x, x ∈ a ↔ x ∈ b) : a = b :=
  (List.perm_ext_iff_of_nodup (ha.imp fun h => Nat.ne_of_lt h) (hb.imp fun h => Nat.ne_of_lt h)).2 h |>.eq_of_pairwise
    (fun _ _ _ _ h1 h2 => absurd h1 (Nat.lt_asymm h2)) ha hb

/-- A lane that was at no barrier moves: `arrived` stays exactly the lanes at a barrier. -/
theorem lanesAtBarrier_set {lanes : List Lane} {l : Nat} {ln ln' : Lane} (h : lanes[l]? = some ln)
    (hn : ln.pos.atBarrier = false) :
    lanesAtBarrier (lanes.set l ln') =
      if ln'.pos.atBarrier then joinArrived l (lanesAtBarrier lanes) else lanesAtBarrier lanes := by
  have hl : l < lanes.length := (List.getElem?_eq_some_iff.1 h).1
  have hmem : ∀ x, x ∈ lanesAtBarrier (lanes.set l ln') ↔
      (x = l ∧ ln'.pos.atBarrier = true) ∨ x ∈ lanesAtBarrier lanes := by
    intro x
    simp only [mem_lanesAtBarrier, List.getElem?_set]
    by_cases hx : l = x
    · subst hx
      have h2 : lanes[l].pos.atBarrier = false := by
        rw [List.getElem?_eq_getElem hl] at h; cases h; exact hn
      simp [hl, h2]
    · simp [hx, Ne.symm hx]
  split
  · next hb =>
    refine eq_of_rising (pairwise_lanesAtBarrier _) (pairwise_joinArrived (pairwise_lanesAtBarrier _)) fun x => ?_
    rw [hmem, mem_joinArrived]; simp only [hb, and_true]; tauto
  · next hb =>
    refine eq_of_rising (pairwise_lanesAtBarrier _) (pairwise_lanesAtBarrier _) fun x => ?_
    rw [hmem]; simp [hb]

theorem releasedLanes_getElem? (sh : Shape) (lanes : List Lane) (l : Nat) :
    (releasedLanes sh lanes)[l]? = lanes[l]?.map fun ln => { ln with pos := afterBarrier sh l ln.pos } := by
  simp [releasedLanes]

@[simp] theorem length_releasedLanes (sh : Shape) (lanes : List Lane) : (releasedLanes sh lanes).length = lanes.length := by
  simp [releasedLanes]

theorem allArrived_iff {sh : Shape} {wg : Workgroup} : wg.allArrived sh = true ↔ ∀ l, l < sh.lanes → l ∈ wg.arrived := by
  simp [Workgroup.allArrived]

/-! ### Shapes (00_scope R6, R7, R9) -/

theorem Shape.lanes_pos (sh : Shape) : 0 < sh.lanes := Nat.two_pow_pos _

theorem Shape.codes_pos {sh : Shape} (h : 2 ≤ sh.width) : 0 < sh.codes := codesPerWord_pos h

theorem Shape.tile_pos {sh : Shape} (h : 2 ≤ sh.width) (ht : 0 < sh.tileWords) : 0 < sh.tile :=
  Nat.mul_pos ht (Shape.codes_pos h)

theorem tileWordCount_pos (p : Params) (W : Nat) : 0 < tileWordCount p W := Nat.succ_pos _

/-- The tiles cover the words of a row. -/
theorem Shape.rowWords_le {sh : Shape} (h : 2 ≤ sh.width) (ht : 0 < sh.tileWords) : sh.rowWords ≤ sh.tiles * sh.tileWords := by
  have hK := Shape.codes_pos h
  have h1 : sh.cols ≤ sh.tiles * sh.tile := (divCeil_le_iff (Shape.tile_pos h ht)).1 (Nat.le_refl _)
  exact (divCeil_le_iff hK).2 (by rw [Nat.mul_assoc]; exact h1)

/-! ### The strides of the tree (43_parallel_kernel R181) -/

theorem legal_stride {sh : Shape} {s : Nat} :
    ((List.range sh.laneLog).any fun j => decide (2 ^ j = s)) = true ↔ ∃ j, j < sh.laneLog ∧ s = 2 ^ j := by
  rw [List.any_eq_true]
  simp only [List.mem_range, decide_eq_true_eq, @eq_comm Nat s]

/-- The first stride: `L / 2`, when there is more than one lane. -/
theorem lanes_half {sh : Shape} (h : 2 ≤ sh.lanes) : 0 < sh.laneLog ∧ sh.lanes / 2 = 2 ^ (sh.laneLog - 1) := by
  have hpos : 0 < sh.laneLog := by
    rcases Nat.eq_zero_or_pos sh.laneLog with h0 | h0
    · rw [Shape.lanes, h0] at h; omega
    · exact h0
  refine ⟨hpos, ?_⟩
  rw [Shape.lanes, show (2 : Nat) ^ sh.laneLog = 2 ^ (sh.laneLog - 1) * 2 by rw [← Nat.pow_succ]; congr 1; omega]
  omega

theorem laneLog_of_one_lane {sh : Shape} (h : ¬2 ≤ sh.lanes) : sh.laneLog = 0 := by
  by_contra h0
  exact h (by
    have : 2 ^ 1 ≤ 2 ^ sh.laneLog := Nat.pow_le_pow_right (by omega) (by omega)
    simpa [Shape.lanes] using this)

theorem stride_half {j : Nat} (h : 2 ≤ 2 ^ j) : 0 < j ∧ 2 ^ j / 2 = 2 ^ (j - 1) := by
  have hpos : 0 < j := by
    rcases Nat.eq_zero_or_pos j with h0 | h0
    · rw [h0] at h; omega
    · exact h0
  refine ⟨hpos, ?_⟩
  rw [show (2 : Nat) ^ j = 2 ^ (j - 1) * 2 by rw [← Nat.pow_succ]; congr 1; omega]
  omega

theorem stride_one {j : Nat} (h : ¬2 ≤ 2 ^ j) : j = 0 := by
  by_contra h0
  exact h (by simpa using Nat.pow_le_pow_right (n := 2) (by omega) (show 1 ≤ j by omega))

/-! ### Legal positions, spelt out (10_state R22) -/

theorem Pos.legal_load {sh : Shape} {l t i : Nat} :
    (Pos.load t i).legal sh l = true ↔ t < sh.tiles ∧ i < sh.tile ∧ i % sh.lanes = l := by
  simp [Pos.legal, and_assoc]

theorem Pos.legal_acc {sh : Shape} {l t jw k : Nat} :
    (Pos.acc t jw k).legal sh l = true ↔
      t < sh.tiles ∧ jw < sh.tileWords ∧ jw % sh.lanes = l ∧ t * sh.tileWords + jw < sh.rowWords ∧ k < sh.codes := by
  simp [Pos.legal, and_assoc]

/-! ### One barrier at a time (43_parallel_kernel R184 a) -/

/-- A legal barrier position is the only one with its count of barriers passed. -/
theorem barrier_unique {sh : Shape} {l l' : Nat} {p q : Pos} (hp : p.legal sh l = true) (hq : q.legal sh l' = true)
    (bp : p.atBarrier = true) (bq : q.atBarrier = true) (h : p.barriersPassed sh = q.barriersPassed sh) : p = q := by
  cases p <;> simp [Pos.atBarrier] at bp <;> cases q <;> simp [Pos.atBarrier] at bq <;>
    simp only [Pos.legal, Pos.barriersPassed, decide_eq_true_eq, legal_stride] at hp hq h
  all_goals first
    | (congr 1; omega)
    | omega
    | (obtain ⟨j, hj, rfl⟩ := hp; obtain ⟨j', hj', rfl⟩ := hq; simp only [Nat.log2_two_pow] at h; congr 2; omega)
    | rfl

/-! ### The positions after a micro-step and after a release (43_parallel_kernel R173 to R182) -/

theorem loadStart_legal {sh : Shape} {l t : Nat} (hl : l < sh.lanes) (ht : t < sh.tiles) :
    (loadStart sh l t).legal sh l = true ∧ (loadStart sh l t).barriersPassed sh = 2 * t := by
  unfold loadStart
  split
  · next h => simp [Pos.legal, Pos.barriersPassed, h, ht, Nat.mod_eq_of_lt hl]
  · simp [Pos.legal, Pos.barriersPassed, ht]

theorem afterInit_legal {sh : Shape} {l : Nat} (hl : l < sh.lanes) :
    (afterInit sh l).legal sh l = true ∧ (afterInit sh l).barriersPassed sh = 0 := by
  unfold afterInit
  split
  · next h => simp [Pos.legal, Pos.barriersPassed, h]
  · next h => exact loadStart_legal hl (by omega)

theorem afterLoad_legal {sh : Shape} {l t i : Nat} (h : (Pos.load t i).legal sh l = true) :
    (afterLoad sh t i).legal sh l = true ∧ (afterLoad sh t i).barriersPassed sh = 2 * t := by
  simp only [Pos.legal, Bool.and_eq_true, decide_eq_true_eq] at h
  unfold afterLoad
  split
  · next h2 => simp [Pos.legal, Pos.barriersPassed, h, h2]
  · simp [Pos.legal, Pos.barriersPassed, h]

theorem accFrom_legal {sh : Shape} {l t jw : Nat} (hK : 0 < sh.codes) (ht : t < sh.tiles) (hj : jw % sh.lanes = l) :
    (accFrom sh t jw).legal sh l = true ∧ (accFrom sh t jw).barriersPassed sh = 2 * t + 1 := by
  unfold accFrom
  split
  · next h => simp [Pos.legal, Pos.barriersPassed, h, ht, hj, hK]
  · simp [Pos.legal, Pos.barriersPassed, ht]

theorem afterAcc_legal {sh : Shape} {l t jw k : Nat} (h : (Pos.acc t jw k).legal sh l = true) :
    (afterAcc sh t jw k).legal sh l = true ∧ (afterAcc sh t jw k).barriersPassed sh = 2 * t + 1 := by
  simp only [Pos.legal, Bool.and_eq_true, decide_eq_true_eq] at h
  unfold afterAcc
  split
  · next h2 => simp [Pos.legal, Pos.barriersPassed, h, h2]
  · exact accFrom_legal (by omega) h.1.1.1.1 (by rw [Nat.add_mod_right]; exact h.1.1.2)

theorem afterReduction_legal (sh : Shape) (l : Nat) :
    (afterReduction l).legal sh l = true ∧ (afterReduction l).barriersPassed sh = 2 * sh.tiles + 1 + sh.laneLog := by
  unfold afterReduction
  split
  · next h => simp [Pos.legal, Pos.barriersPassed, h]
  · simp [Pos.legal, Pos.barriersPassed]

/-- A release takes a lane past exactly one barrier, to a legal position. -/
theorem afterBarrier_legal {sh : Shape} {l : Nat} {p : Pos} (hK : 0 < sh.codes) (hl : l < sh.lanes)
    (hp : p.legal sh l = true) (hb : p.atBarrier = true) :
    (afterBarrier sh l p).legal sh l = true ∧ (afterBarrier sh l p).barriersPassed sh = p.barriersPassed sh + 1 := by
  cases p <;> simp [Pos.atBarrier] at hb
  case barLoad t =>
    exact accFrom_legal hK (by simpa [Pos.legal] using hp) (Nat.mod_eq_of_lt hl)
  case barAcc t =>
    have ht : t < sh.tiles := by simpa [Pos.legal] using hp
    simp only [afterBarrier, Pos.barriersPassed]
    split
    · next h => exact loadStart_legal hl h
    · simp only [Pos.legal, true_and]; omega
  case barPub =>
    simp only [afterBarrier, Pos.barriersPassed]
    split
    · next h =>
      obtain ⟨h0, h1⟩ := lanes_half h
      rw [h1]
      refine ⟨legal_stride.2 ⟨_, by omega, rfl⟩, ?_⟩
      simp only [Nat.log2_two_pow]; omega
    · next h =>
      have := afterReduction_legal sh l
      rw [laneLog_of_one_lane h] at this
      exact this
  case barRed st =>
    obtain ⟨j, hj, rfl⟩ := legal_stride.1 (show _ = true from hp)
    have e : (Pos.barRed (2 ^ j)).barriersPassed sh = 2 * sh.tiles + (sh.laneLog - j) := by simp [Pos.barriersPassed]
    rw [e, afterBarrier]
    split
    · next h =>
      obtain ⟨h0, h1⟩ := stride_half h
      rw [h1]
      refine ⟨legal_stride.2 ⟨_, by omega, rfl⟩, ?_⟩
      simp only [Pos.barriersPassed, Nat.log2_two_pow]; omega
    · next h =>
      have h0 := stride_one h
      refine ⟨(afterReduction_legal sh l).1, ?_⟩
      rw [(afterReduction_legal sh l).2]; omega

/-! ### What one micro-step can do -/

/-- The micro-step of a lane, position by position. -/
theorem laneEffect_ok {sh : Shape} {nan : F32} {s : State} {g l : Nat} {wg : Workgroup} {ln : Lane} {eff : LaneEffect}
    (hc : ln.pos.canStep = true) (h : laneEffect sh nan s g l wg ln = .ok eff) :
    (ln.pos = .init ∧
      eff = { pos := afterInit sh l, acc := some f32PosZero, shmX := wg.shmX, shmR := wg.shmR, ybuf := s.ybuf }) ∨
    (∃ t i v, ln.pos = .load t i ∧ tileElement sh s.xbuf t i = .ok v ∧
      eff = { pos := afterLoad sh t i, acc := ln.acc, shmX := Memory.write wg.shmX i v, shmR := wg.shmR, ybuf := s.ybuf }) ∨
    (∃ t jw k w x a, ln.pos = .acc t jw k ∧
      Memory.read s.wbuf (g * sh.rowWords + (t * sh.tileWords + jw)) = some w ∧
      Memory.read wg.shmX (jw * sh.codes + k) = some x ∧ ln.acc = some a ∧
      eff = { pos := afterAcc sh t jw k, acc := some (accStep (fadd s.cfg.adder nan) a (lowWord sh.width w) k x)
              shmX := wg.shmX, shmR := wg.shmR, ybuf := s.ybuf }) ∨
    (∃ a, ln.pos = .publish ∧ ln.acc = some a ∧
      eff = { pos := .barPub, acc := ln.acc, shmX := wg.shmX, shmR := Memory.write wg.shmR l a, ybuf := s.ybuf }) ∨
    (∃ st a b, ln.pos = .red st ∧ l < st ∧ Memory.read wg.shmR l = some a ∧ Memory.read wg.shmR (l + st) = some b ∧
      eff = { pos := .barRed st, acc := ln.acc, shmX := wg.shmX
              shmR := Memory.write wg.shmR l (fadd s.cfg.adder nan a b), ybuf := s.ybuf }) ∨
    (∃ st, ln.pos = .red st ∧ st ≤ l ∧
      eff = { pos := .barRed st, acc := ln.acc, shmX := wg.shmX, shmR := wg.shmR, ybuf := s.ybuf }) ∨
    (∃ v, ln.pos = .write ∧ Memory.read wg.shmR 0 = some v ∧
      eff = { pos := .exit, acc := ln.acc, shmX := wg.shmX, shmR := wg.shmR, ybuf := Memory.write s.ybuf g v }) := by
  unfold laneEffect at h
  split at h
  case h_1 hp => exact .inl ⟨hp, (Except.ok.inj h).symm⟩
  case h_2 t i hp =>
    unfold laneLoad at h
    split at h
    · cases h
    · next v hv => exact .inr (.inl ⟨t, i, v, hp, hv, (Except.ok.inj h).symm⟩)
  case h_3 t jw k hp =>
    unfold laneAcc readAcc at h
    repeat' split at h
    all_goals try (cases h; done)
    next w hw _ x hx _ a ha =>
    split at ha
    · next a' ha' =>
      cases ha
      exact .inr (.inr (.inl ⟨t, jw, k, w, x, a, hp, readElement_eq_ok.1 hw, readElement_eq_ok.1 hx, ha', (Except.ok.inj h).symm⟩))
    · cases ha
  case h_4 hp =>
    unfold lanePublish readAcc at h
    split at h
    · cases h
    · next a ha =>
      split at ha
      · next a' ha' =>
        cases ha
        exact .inr (.inr (.inr (.inl ⟨a, hp, ha', (Except.ok.inj h).symm⟩)))
      · cases ha
  case h_5 st hp =>
    unfold laneReduce at h
    split at h
    · next hlt =>
      split at h
      · cases h
      · next a ha =>
        split at h
        · cases h
        · next b hb =>
          exact .inr (.inr (.inr (.inr (.inl
            ⟨st, a, b, hp, hlt, readElement_eq_ok.1 ha, readElement_eq_ok.1 hb, (Except.ok.inj h).symm⟩))))
    · next hge => exact .inr (.inr (.inr (.inr (.inr (.inl ⟨st, hp, by omega, (Except.ok.inj h).symm⟩)))))
  case h_6 hp =>
    unfold laneWrite at h
    split at h
    · cases h
    · next v hv => exact .inr (.inr (.inr (.inr (.inr (.inr ⟨v, hp, readElement_eq_ok.1 hv, (Except.ok.inj h).symm⟩)))))
  all_goals (next hp => rw [hp] at hc; simp [Pos.canStep, Pos.atBarrier] at hc)

end Sys2Proof.Machine
end

