-- ==== Sys2Proof/Laws/Runmv.lean ====
section
/-! SUPPORT. What RUNMV can do, said once. -/

set_option autoImplicit false

namespace Sys2Proof.Machine

variable {s t : State}

/-- RUNMV is dropped, raises the mismatch, raises DeviceError, ends an empty dispatch, or launches one (43_parallel_kernel R170). -/
theorem execRunmv_next (h : execRunmv s = .next t) :
    t = s ∨
    (s.status.busy = false ∧ s.status.err = false ∧
      ((∃ n, t = dimensionMismatch n { s with status := s.status.dropDone }) ∨
        (runmvCheck s = none ∧
          (t = deviceError { s with status := s.status.dropDone } ∨
            (s.rows.toNat = 0 ∧ t = completeRun (launch { s with status := s.status.dropDone })) ∨
            (s.rows.toNat ≠ 0 ∧ t = launch { s with status := s.status.dropDone }))))) := by
  rcases acceptOperation_cases runRunmv s with ⟨h1, -⟩ | ⟨hb, he, h1⟩
  · exact .inl (Host.Outcome.next.inj (h.symm.trans h1))
  · rw [execRunmv, h1] at h
    refine .inr ⟨hb, he, ?_⟩
    unfold runRunmv at h
    split at h
    · next n _ => exact .inl ⟨n, (Host.Outcome.next.inj h).symm⟩
    · next hc =>
      refine .inr ⟨hc, ?_⟩
      obtain rfl := Host.Outcome.next.inj h
      unfold startRun
      split
      · exact .inl rfl
      · split
        · next hr => exact .inr (.inl ⟨hr, rfl⟩)
        · next hr => exact .inr (.inr ⟨hr, rfl⟩)

end Sys2Proof.Machine
end

