-- ==== Sys2Proof/Laws/Engine.lean ====
section
/-! SUPPORT. The laws of a workgroup: a micro-step and a barrier release keep its control state (20_memory R65,
43_parallel_kernel R184 a), and what a lane move, a release and a launch leave. -/

set_option autoImplicit false

namespace Sys2Proof.Machine

theorem Memory.within_iff {w : Nat} {m : Memory w} {n : Nat} :
    Memory.within m n = true ↔ Memory.wf m = true ∧ Memory.below m n = true := by
  simp [Memory.within]

theorem Memory.within_write {w : Nat} {m : Memory w} {i n : Nat} {v : BitVec w} (hi : i < n)
    (h : Memory.within m n = true) : Memory.within (Memory.write m i v) n = true := by
  obtain ⟨h1, h2⟩ := Memory.within_iff.1 h
  exact Memory.within_iff.2 ⟨Memory.wf_write _ _ _ h1, Memory.below_write _ _ _ _ hi h2⟩

theorem Memory.within_writeSpan {w : Nat} {m : Memory w} {i n : Nat} {vs : List (BitVec w)} (hi : i + vs.length ≤ n)
    (h : Memory.within m n = true) : Memory.within (Memory.writeSpan m i vs) n = true := by
  obtain ⟨h1, h2⟩ := Memory.within_iff.1 h
  exact Memory.within_iff.2 ⟨Memory.wf_writeSpan _ _ _ h1, Memory.below_writeSpan _ _ _ _ hi h2⟩

theorem Memory.within_dropBelow {w : Nat} {m : Memory w} {n k : Nat} (h : Memory.within m k = true) :
    Memory.within (Memory.dropBelow m n) k = true := by
  obtain ⟨h1, h2⟩ := Memory.within_iff.1 h
  exact Memory.within_iff.2 ⟨Memory.wf_dropBelow _ _ h1, Memory.below_dropBelow _ _ _ h2⟩

variable {sh : Shape} {wg : Workgroup} {s t : State} {g l : Nat} {ln : Lane} {eff : LaneEffect} {nan : F32} {e : EngineRun}

/-! ### Lanes of a workgroup -/

theorem GroupControl.lane_lt (h : GroupControl sh wg) (hl : wg.lanes[l]? = some ln) : l < sh.lanes := by
  rw [← h.lanes]; exact (List.getElem?_eq_some_iff.1 hl).1

theorem GroupControl.lane_exists (h : GroupControl sh wg) (hl : l < sh.lanes) : ∃ ln, wg.lanes[l]? = some ln := by
  rw [← h.lanes] at hl; exact ⟨_, List.getElem?_eq_getElem hl⟩

theorem applyLane_lane (wg : Workgroup) (l l' : Nat) (eff : LaneEffect) :
    (wg.applyLane l eff).lanes[l']? =
      if l = l' then (if l < wg.lanes.length then some { pos := eff.pos, acc := eff.acc } else none) else wg.lanes[l']? := by
  simp only [Workgroup.applyLane, List.getElem?_set]

theorem release_lane (sh : Shape) (wg : Workgroup) (l : Nat) :
    (wg.release sh).lanes[l]? = wg.lanes[l]?.map fun ln => { ln with pos := afterBarrier sh l ln.pos } :=
  releasedLanes_getElem? sh wg.lanes l

theorem not_atBarrier_of_canStep {p : Pos} (h : p.canStep = true) : p.atBarrier = false := by
  cases p <;> simp_all [Pos.canStep, Pos.atBarrier]

/-! ### A micro-step keeps the control state -/

/-- A micro-step takes a lane to a legal position before the same barrier, and gives or keeps its accumulator. -/
theorem laneEffect_control (hc : ln.pos.canStep = true) (h : laneEffect sh nan s g l wg ln = .ok eff) (hl : l < sh.lanes)
    (hL : LaneControl sh wg.gen l ln) : LaneControl sh wg.gen l { pos := eff.pos, acc := eff.acc } := by
  obtain ⟨hlegal, hphase, hstart⟩ := hL
  rcases laneEffect_ok hc h with ⟨hp, rfl⟩ | ⟨t, i, v, hp, -, rfl⟩ | ⟨t, jw, k, w, x, a, hp, -, -, -, rfl⟩ | ⟨a, hp, ha, rfl⟩ |
    ⟨st, a, b, hp, -, -, -, rfl⟩ | ⟨st, hp, -, rfl⟩ | ⟨v, hp, -, rfl⟩ <;>
    rw [hp] at hlegal hphase hstart <;> simp only [reduceCtorEq, false_or] at hstart
  · exact ⟨(afterInit_legal hl).1, by rw [← hphase]; exact (afterInit_legal hl).2, .inr rfl⟩
  · exact ⟨(afterLoad_legal hlegal).1, by rw [← hphase]; exact (afterLoad_legal hlegal).2, .inr hstart⟩
  · exact ⟨(afterAcc_legal hlegal).1, by rw [← hphase]; exact (afterAcc_legal hlegal).2, .inr rfl⟩
  · exact ⟨rfl, by rw [← hphase]; rfl, .inr hstart⟩
  · exact ⟨hlegal, by rw [← hphase]; rfl, .inr hstart⟩
  · exact ⟨hlegal, by rw [← hphase]; rfl, .inr hstart⟩
  · exact ⟨rfl, by rw [← hphase]; rfl, .inr hstart⟩

/-- A micro-step stores within the tile and the scratch, and in YBUF at most the row's element. -/
theorem laneEffect_memories (hc : ln.pos.canStep = true) (h : laneEffect sh nan s g l wg ln = .ok eff) (hl : l < sh.lanes)
    (hlegal : ln.pos.legal sh l = true) :
    (Memory.within wg.shmX sh.tile = true → Memory.within eff.shmX sh.tile = true) ∧
    (Memory.within wg.shmR sh.lanes = true → Memory.within eff.shmR sh.lanes = true) ∧
    (∀ n, g < n → Memory.within s.ybuf n = true → Memory.within eff.ybuf n = true) ∧
    ∀ r, r ≠ g → Memory.read eff.ybuf r = Memory.read s.ybuf r := by
  rcases laneEffect_ok hc h with ⟨hp, rfl⟩ | ⟨t, i, v, hp, -, rfl⟩ | ⟨t, jw, k, w, x, a, hp, -, -, -, rfl⟩ | ⟨a, hp, ha, rfl⟩ |
    ⟨st, a, b, hp, -, -, -, rfl⟩ | ⟨st, hp, -, rfl⟩ | ⟨v, hp, -, rfl⟩ <;> rw [hp] at hlegal
  · exact ⟨id, id, fun _ _ h => h, fun _ _ => rfl⟩
  · simp only [Pos.legal, Bool.and_eq_true, decide_eq_true_eq] at hlegal
    exact ⟨Memory.within_write hlegal.1.2, id, fun _ _ h => h, fun _ _ => rfl⟩
  · exact ⟨id, id, fun _ _ h => h, fun _ _ => rfl⟩
  · exact ⟨id, Memory.within_write hl, fun _ _ h => h, fun _ _ => rfl⟩
  · exact ⟨id, Memory.within_write hl, fun _ _ h => h, fun _ _ => rfl⟩
  · exact ⟨id, id, fun _ _ h => h, fun _ _ => rfl⟩
  · exact ⟨id, id, fun _ hg h => Memory.within_write hg h, fun r hr => Memory.read_write_other _ _ _ _ hr⟩

theorem applyLane_control (hG : GroupControl sh wg) (hl : wg.lanes[l]? = some ln) (hc : ln.pos.canStep = true)
    (h : laneEffect sh nan s g l wg ln = .ok eff) : GroupControl sh (wg.applyLane l eff) := by
  have hlt := hG.lane_lt hl
  have hm := laneEffect_memories hc h hlt (hG.each l ln hl).legal
  refine ⟨by simp [Workgroup.applyLane, hG.lanes], ?_, hm.1 hG.tile, hm.2.1 hG.scratch, fun l' ln' h' => ?_⟩
  · show (if eff.pos.atBarrier then joinArrived l wg.arrived else wg.arrived) = _
    rw [hG.arrived]
    exact (lanesAtBarrier_set (ln' := { pos := eff.pos, acc := eff.acc }) hl (not_atBarrier_of_canStep hc)).symm
  · rw [applyLane_lane] at h'
    split at h'
    · next heq =>
      subst heq
      rw [if_pos (by rw [hG.lanes]; exact hlt)] at h'
      cases h'
      exact laneEffect_control (wg := wg) hc h hlt (hG.each l ln hl)
    · exact hG.each l' ln' h'

/-! ### A release keeps the control state -/

/-- When all lanes have arrived, every lane is at a barrier. -/
theorem GroupControl.atBarrier_of_allArrived (hG : GroupControl sh wg) (ha : wg.allArrived sh = true)
    (hl : wg.lanes[l]? = some ln) : ln.pos.atBarrier = true := by
  have := allArrived_iff.1 ha l (hG.lane_lt hl)
  rw [hG.arrived, mem_lanesAtBarrier] at this
  obtain ⟨ln', h1, h2⟩ := this
  rw [hl] at h1; cases h1; exact h2

/-- When all lanes have arrived, they wait at the same barrier. -/
theorem GroupControl.same_barrier (hG : GroupControl sh wg) (ha : wg.allArrived sh = true) {l' : Nat} {ln' : Lane}
    (hl : wg.lanes[l]? = some ln) (hl' : wg.lanes[l']? = some ln') : ln.pos = ln'.pos :=
  barrier_unique (hG.each l ln hl).legal (hG.each l' ln' hl').legal (hG.atBarrier_of_allArrived ha hl)
    (hG.atBarrier_of_allArrived ha hl') ((hG.each l ln hl).phase.trans (hG.each l' ln' hl').phase.symm)

theorem release_control (hK : 0 < sh.codes) (hG : GroupControl sh wg) (ha : wg.allArrived sh = true) :
    GroupControl sh (wg.release sh) := by
  refine ⟨by simp [Workgroup.release, hG.lanes], rfl, hG.tile, hG.scratch, fun l ln h => ?_⟩
  rw [release_lane] at h
  cases hl : wg.lanes[l]? with
  | none => rw [hl] at h; cases h
  | some ln0 =>
    rw [hl] at h
    cases h
    have hb := hG.atBarrier_of_allArrived ha hl
    obtain ⟨h1, h2, h3⟩ := hG.each l ln0 hl
    obtain ⟨h4, h5⟩ := afterBarrier_legal hK (hG.lane_lt hl) h1 hb
    refine ⟨h4, ?_, .inr ?_⟩
    · show (afterBarrier sh l ln0.pos).barriersPassed sh = wg.gen + 1
      rw [h5, h2]
    · rcases h3 with h3 | h3
      · rw [h3] at hb; cases hb
      · exact h3

/-! ### A new workgroup -/

theorem newGroup_lane {p : Params} (h : (newGroup p).lanes[l]? = some ln) : ln = { pos := .init, acc := none } := by
  simp only [newGroup, List.getElem?_replicate] at h
  split at h <;> cases h
  rfl

theorem newGroup_control (p : Params) (e : EngineRun) : GroupControl (shapeOf p e) (newGroup p) := by
  refine ⟨by simp [newGroup, laneCount, Shape.lanes, shapeOf], ?_, rfl, rfl, fun l ln h => ?_⟩
  · refine eq_of_rising (by simp [newGroup]) (pairwise_lanesAtBarrier _) fun x => ?_
    rw [mem_lanesAtBarrier]
    constructor
    · intro h; cases h
    · rintro ⟨ln, h1, h2⟩; rw [newGroup_lane h1] at h2; cases h2
  · rw [newGroup_lane h]; exact ⟨rfl, rfl, .inl rfl⟩

end Sys2Proof.Machine
end

