-- ==== Sys2Proof/Laws/Float.lean ====
section
/-! SUPPORT. The laws of the float operations that the engine's proofs use: NaN results, and agreement of two patterns up to the
payload of a NaN (42_reference_kernel R166). -/

set_option autoImplicit false

namespace Sys2Proof.Machine

theorem isNaN_quietNaN (b : F32) : isNaN (quietNaN b) = true := by
  have h1 : f32Exp (quietNaN b) = 255 := by
    simp only [f32Exp, quietNaN, BitVec.toNat_or, BitVec.toNat_ofNat, Nat.or_div_two_pow, Nat.or_mod_two_pow]
    have h : ∀ y : BitVec 8, y ||| 255#8 = 255#8 := fun y => BitVec.or_allOnes
    have h2 := congrArg BitVec.toNat (h (BitVec.ofNat 8 (b.toNat / 2 ^ 23)))
    simpa only [BitVec.toNat_or, BitVec.toNat_ofNat] using h2
  have h2 : f32Frac (quietNaN b) ≠ 0 := by
    simp only [f32Frac, quietNaN, BitVec.toNat_or, BitVec.toNat_ofNat, Nat.or_mod_two_pow]
    intro h
    exact absurd (Nat.or_eq_zero_iff.1 h).2 (by norm_num)
  simp [isNaN, h1, h2]

/-- A drawn NaN is quiet (93 U3). -/
theorem isQuietNaN_drawnNaN (n : Nat) : isQuietNaN (drawnNaN n) = true := by
  simp only [isQuietNaN, drawnNaN, isNaN_quietNaN, Bool.true_and]
  simp [quietNaN]

theorem isNaN_drawnNaN (n : Nat) : isNaN (drawnNaN n) = true := isNaN_quietNaN _

theorem F32.agrees_refl (ad : Adder) (a : F32) : F32.agrees ad a a := .inl rfl

/-- Under the default `fadd` a sum with a NaN is the NaN it draws. -/
theorem ieeeAdd_of_isNaN {nan a b : F32} (h : isNaN a = true ∨ isNaN b = true) : ieeeAdd nan a b = nan := by
  unfold ieeeAdd; rcases h with h | h <;> simp [h]

/-- The default `fadd` on two drawn NaNs: the same sum, or a NaN on both sides. -/
theorem ieeeAdd_draws (nan nan' a b : F32) :
    ieeeAdd nan a b = ieeeAdd nan' a b ∨ (ieeeAdd nan a b = nan ∧ ieeeAdd nan' a b = nan') := by
  unfold ieeeAdd
  split
  · exact .inr ⟨rfl, rfl⟩
  · split
    · split
      · exact .inr ⟨rfl, rfl⟩
      · exact .inl rfl
    · exact .inl rfl

/-- Sums of agreeing operands agree, whatever NaNs are drawn. -/
theorem F32.agrees_fadd {ad : Adder} {nan nan' a a' b b' : F32} (hn : isNaN nan = true) (hn' : isNaN nan' = true)
    (ha : F32.agrees ad a a') (hb : F32.agrees ad b b') : F32.agrees ad (fadd ad nan a b) (fadd ad nan' a' b') := by
  cases ad with
  | custom =>
    rcases ha with rfl | ⟨h, -⟩
    · rcases hb with rfl | ⟨h, -⟩
      · exact .inl rfl
      · cases h
    · cases h
  | ieee =>
    simp only [fadd]
    have hnan : (isNaN a = true ∨ isNaN b = true) → (isNaN a' = true ∨ isNaN b' = true) →
        F32.agrees .ieee (ieeeAdd nan a b) (ieeeAdd nan' a' b') := fun h h' =>
      .inr ⟨rfl, by rw [ieeeAdd_of_isNaN h]; exact hn, by rw [ieeeAdd_of_isNaN h']; exact hn'⟩
    rcases ha with rfl | ⟨-, h1, h2⟩
    · rcases hb with rfl | ⟨-, h1, h2⟩
      · rcases ieeeAdd_draws nan nan' a b with h | ⟨h1, h2⟩
        · exact .inl h
        · exact .inr ⟨rfl, by rw [h1]; exact hn, by rw [h2]; exact hn'⟩
      · exact hnan (.inr h1) (.inr h2)
    · exact hnan (.inl h1) (.inl h2)

theorem F32.agrees_plainAdd {ad : Adder} {nan a a' b b' : F32} (hn : isNaN nan = true) (ha : F32.agrees ad a a')
    (hb : F32.agrees ad b b') : F32.agrees ad (fadd ad nan a b) (plainAdd ad a' b') :=
  F32.agrees_fadd hn (by decide) ha hb

/-! ### Patterns and magnitudes -/

/-- A pattern as a number: sign, exponent field, fraction field (30_encoding R86). -/
theorem f32_split (x : F32) :
    x.toNat = (if f32Sign x then 2 ^ 31 else 0) + f32Exp x * 2 ^ 23 + f32Frac x ∧ f32Exp x < 256 ∧ f32Frac x < 2 ^ 23 := by
  have := x.isLt
  have hs : f32Sign x = decide (2 ^ 31 ≤ x.toNat) := by simp [f32Sign, BitVec.msb_eq_decide]
  rw [hs]
  unfold f32Exp f32Frac
  by_cases h : 2 ^ 31 ≤ x.toNat
  · simp only [h, decide_true, if_true]; omega
  · simp only [h, decide_false]
    refine ⟨?_, ?_, ?_⟩ <;> simp <;> omega

/-- A magnitude that is a float rounds to its own pattern. -/
theorem round_mag (x : F32) (he : f32Exp x < 255) :
    roundMagnitude (f32Magnitude x) = f32Exp x * 2 ^ 23 + f32Frac x := by
  obtain ⟨-, -, hf⟩ := f32_split x
  unfold f32Magnitude
  generalize f32Exp x = e at *
  generalize f32Frac x = f at *
  split
  · next h => subst h; unfold roundMagnitude; rw [if_pos (by omega)]; omega
  · next h =>
    obtain ⟨d, rfl⟩ : ∃ d, e = d + 1 := ⟨e - 1, by omega⟩
    simp only [Nat.add_sub_cancel]
    unfold roundMagnitude
    split
    · next h2 =>
      rcases Nat.eq_zero_or_pos d with h3 | h3
      · subst h3; omega
      · have : (2 ^ 23 + f) * 2 ^ 1 ≤ (2 ^ 23 + f) * 2 ^ d := Nat.mul_le_mul_left _ (Nat.pow_le_pow_right (by norm_num) h3)
        omega
    · next h2 =>
      have hlog : Nat.log2 ((2 ^ 23 + f) * 2 ^ d) = 23 + d := by
        rw [Nat.log2_eq_iff (by positivity)]
        constructor
        · rw [Nat.pow_add]; exact Nat.mul_le_mul_right _ (by omega)
        · rw [show 23 + d + 1 = 24 + d by ring, Nat.pow_add]; exact Nat.mul_lt_mul_of_pos_right (by omega) (by positivity)
      rw [hlog]
      simp only [show 23 + d - 23 = d by omega]
      rw [Nat.mul_div_cancel _ (by positivity), Nat.mul_mod_left]
      have : ¬ (2 ^ d < 2 * 0 ∨ (2 * 0 = 2 ^ d ∧ (2^23+f) % 2 = 1)) := by
        have : 0 < 2 ^ d := by positivity
        omega
      simp only [this, if_false]
      omega

theorem magnitude_zero (x : F32) : f32Magnitude x = 0 ↔ f32Exp x = 0 ∧ f32Frac x = 0 := by
  unfold f32Magnitude
  split
  · next h => simp [h]
  · next h => simp [h]

/-- A finite non-zero pattern is the pattern of its value. -/
theorem pack_units (x : F32) (he : f32Exp x < 255) (h0 : f32Magnitude x ≠ 0) :
    f32Units x ≠ 0 ∧ f32Pack (decide (f32Units x < 0)) (roundMagnitude (f32Units x).natAbs) = x := by
  have habs : (f32Units x).natAbs = f32Magnitude x := by unfold f32Units; split <;> simp
  have hneg : decide (f32Units x < 0) = f32Sign x := by
    unfold f32Units; split
    · next h => simp [h]; omega
    · next h => simp [h]
  refine ⟨by rw [← Int.natAbs_ne_zero, habs]; exact h0, ?_⟩
  rw [habs, hneg, round_mag x he]
  obtain ⟨h1, h2, h3⟩ := f32_split x
  apply BitVec.eq_of_toNat_eq
  unfold f32Pack
  rw [BitVec.toNat_ofNat, ← Nat.add_assoc, ← h1]
  exact Nat.mod_eq_of_lt x.isLt

/-- The two zeros. -/
theorem zero_of_mag (x : F32) (h : f32Magnitude x = 0) : x = f32PosZero ∨ x = f32NegZero := by
  obtain ⟨h1, h2⟩ := (magnitude_zero x).1 h
  obtain ⟨h3, -, -⟩ := f32_split x
  rw [h1, h2] at h3
  split at h3
  · right; apply BitVec.eq_of_toNat_eq; rw [h3]; rfl
  · left; apply BitVec.eq_of_toNat_eq; rw [h3]; rfl

theorem exp_lt (x : F32) (h1 : isNaN x = false) (h2 : isInf x = false) : f32Exp x < 255 := by
  have := (f32_split x).2.1
  simp only [isNaN, isInf, Bool.and_eq_false_iff, decide_eq_false_iff_not] at h1 h2
  rcases h1 with h1 | h1
  · omega
  · rcases h2 with h2 | h2
    · omega
    · simp at h1; exact absurd h1 h2

theorem round_pos (m : Nat) (h : m ≠ 0) : 0 < roundMagnitude m := by
  unfold roundMagnitude
  split
  · omega
  · next h2 =>
    simp only
    have : 2 ^ (Nat.log2 m - 23) ≤ m := le_trans (Nat.pow_le_pow_right (by norm_num) (by omega)) (Nat.log2_self_le h)
    have : 0 < m / 2 ^ (Nat.log2 m - 23) := Nat.div_pos this (by positivity)
    omega

/-- No magnitude rounds beyond infinity. -/
theorem round_le (m : Nat) : roundMagnitude m ≤ 0x7F800000 := by
  unfold roundMagnitude
  split
  · omega
  · exact Nat.min_le_right _ _

/-! ### Rounding, said once: the nearer of two neighbouring patterns, the even one on a tie (93 G2) -/

/-- The magnitude, in units of 2^-149, of the pattern number `p` (sign bit aside). -/
def patternMagnitude (p : Nat) : Nat := if p / 2 ^ 23 = 0 then p % 2 ^ 23 else (2 ^ 23 + p % 2 ^ 23) * 2 ^ (p / 2 ^ 23 - 1)

/-- The pattern `e * 2^23 + q`, for `q` with its leading bit at 23 or the next power. -/
theorem patternMagnitude_eq {e q : Nat} (h1 : 2 ^ 23 ≤ q) (h2 : q ≤ 2 ^ 24) :
    patternMagnitude (e * 2 ^ 23 + q) = q * 2 ^ e := by
  unfold patternMagnitude
  rcases Nat.lt_or_eq_of_le h2 with h | h
  · have a : (e * 2 ^ 23 + q) / 2 ^ 23 = e + 1 := by omega
    have b : (e * 2 ^ 23 + q) % 2 ^ 23 = q - 2 ^ 23 := by omega
    rw [a, b, if_neg (by omega), Nat.add_sub_cancel' h1, Nat.add_sub_cancel]
  · have a : (e * 2 ^ 23 + q) / 2 ^ 23 = e + 2 := by omega
    have b : (e * 2 ^ 23 + q) % 2 ^ 23 = 0 := by omega
    rw [a, b, if_neg (by omega), h, show e + 2 - 1 = e + 1 by omega, Nat.pow_succ]; ring

/-- Below 2^24 a pattern is its own magnitude. -/
theorem patternMagnitude_small {p : Nat} (h : p ≤ 2 ^ 24) : patternMagnitude p = p := by
  by_cases h2 : 2 ^ 23 ≤ p
  · simpa using patternMagnitude_eq (e := 0) h2 h
  · unfold patternMagnitude; rw [if_pos (by omega)]; omega

theorem patternMagnitude_succ (p : Nat) : patternMagnitude p < patternMagnitude (p + 1) := by
  by_cases h : p < 2 ^ 24
  · rw [patternMagnitude_small (by omega), patternMagnitude_small (by omega)]; omega
  · obtain ⟨e, q, hp, h1, h2⟩ : ∃ e q, p = e * 2 ^ 23 + q ∧ 2 ^ 23 ≤ q ∧ q < 2 ^ 24 := ⟨p / 2 ^ 23 - 1, p % 2 ^ 23 + 2 ^ 23, by omega, by omega, by omega⟩
    rw [hp, patternMagnitude_eq h1 (by omega), Nat.add_assoc, patternMagnitude_eq (by omega) (by omega)]
    exact Nat.mul_lt_mul_of_pos_right (by omega) (by positivity)

theorem patternMagnitude_lt {p q : Nat} (h : p < q) : patternMagnitude p < patternMagnitude q :=
  strictMono_nat_of_lt_succ patternMagnitude_succ h

theorem two_pow_252 (k : Nat) : 2 ^ (252 + k) = 2 ^ k * 2 ^ 252 := by rw [Nat.pow_add, Nat.mul_comm]

/-- What rounding a magnitude below the overflow bound can do. -/
theorem roundMagnitude_cases {m : Nat} (hm : m < (2 ^ 25 - 1) * 2 ^ 252) :
    roundMagnitude m < 255 * 2 ^ 23 ∧ ∃ p, patternMagnitude p ≤ m ∧ m < patternMagnitude (p + 1) ∧
      ((roundMagnitude m = p ∧ (2 * m < patternMagnitude p + patternMagnitude (p + 1) ∨
          2 * m = patternMagnitude p + patternMagnitude (p + 1) ∧ p % 2 = 0)) ∨
        (roundMagnitude m = p + 1 ∧ (patternMagnitude p + patternMagnitude (p + 1) < 2 * m ∨
          2 * m = patternMagnitude p + patternMagnitude (p + 1) ∧ p % 2 = 1))) := by
  by_cases h : m < 2 ^ 24
  · have hr : roundMagnitude m = m := by unfold roundMagnitude; rw [if_pos h]
    refine ⟨by omega, m, ?_⟩
    rw [patternMagnitude_small (by omega), patternMagnitude_small (by omega), hr]
    omega
  · have h0 : m ≠ 0 := by omega
    obtain ⟨e, he⟩ : ∃ e, Nat.log2 m = e + 23 := ⟨Nat.log2 m - 23, by
      have : 23 ≤ Nat.log2 m := (Nat.le_log2 h0).2 (by omega)
      omega⟩
    have hlo : 2 ^ (e + 23) ≤ m := by rw [← he]; exact Nat.log2_self_le h0
    have hhi : m < 2 ^ (e + 24) := by rw [show e + 24 = Nat.log2 m + 1 by omega]; exact Nat.lt_log2_self
    have hpos : 0 < 2 ^ e := by positivity
    have hq1 : 2 ^ 23 ≤ m / 2 ^ e := (Nat.le_div_iff_mul_le hpos).2 (by rw [← Nat.pow_add, Nat.add_comm]; exact hlo)
    have hq2 : m / 2 ^ e < 2 ^ 24 := (Nat.div_lt_iff_lt_mul hpos).2 (by rw [← Nat.pow_add, Nat.add_comm]; exact hhi)
    have hdm := Nat.div_add_mod m (2 ^ e)
    have hr := Nat.mod_lt m hpos
    have h1 : patternMagnitude (e * 2 ^ 23 + m / 2 ^ e) = m / 2 ^ e * 2 ^ e := patternMagnitude_eq hq1 (by omega)
    have h2 : patternMagnitude (e * 2 ^ 23 + m / 2 ^ e + 1) = m / 2 ^ e * 2 ^ e + 2 ^ e := by
      rw [Nat.add_assoc, patternMagnitude_eq (by omega) (by omega)]; ring
    have hround : roundMagnitude m = min (e * 2 ^ 23 + m / 2 ^ e + (if 2 ^ e < 2 * (m % 2 ^ e) ∨ (2 * (m % 2 ^ e) = 2 ^ e ∧ m / 2 ^ e % 2 = 1) then 1 else 0)) 0x7F800000 := by
      unfold roundMagnitude
      rw [if_neg h]
      simp only [he, Nat.add_sub_cancel]
    have hbound : e * 2 ^ 23 + m / 2 ^ e + (if 2 ^ e < 2 * (m % 2 ^ e) ∨ (2 * (m % 2 ^ e) = 2 ^ e ∧ m / 2 ^ e % 2 = 1) then 1 else 0) < 255 * 2 ^ 23 := by
      have hee : e ≤ 253 := by
        by_contra h3
        have h4 : 2 ^ (252 + 25) ≤ m := le_trans (Nat.pow_le_pow_right (by norm_num) (by omega)) hlo
        rw [two_pow_252] at h4
        generalize (2 ^ 252 : Nat) = A at *
        omega
      rcases Nat.lt_or_eq_of_le hee with h3 | h3
      · split <;> omega
      · subst h3
        split
        · next hup =>
          have : m / 2 ^ 253 ≠ 2 ^ 24 - 1 := by
            intro h4
            clear h1 h2 hround hhi hlo hq1 hq2 he
            rw [h4] at hdm hup
            generalize m % 2 ^ 253 = r at *
            clear h4
            rw [show 253 = 252 + 1 from rfl, two_pow_252 1] at hdm hup hr
            generalize (2 ^ 252 : Nat) = A at *
            omega
          omega
        · omega
    clear hm
    refine ⟨by rw [hround]; exact lt_of_le_of_lt (Nat.min_le_left _ _) hbound, e * 2 ^ 23 + m / 2 ^ e, ?_⟩
    rw [hround, Nat.min_eq_left (by omega), h1, h2]
    have hpar : (e * 2 ^ 23 + m / 2 ^ e) % 2 = m / 2 ^ e % 2 := by omega
    rw [hpar]
    rw [Nat.mul_comm] at hdm
    generalize m / 2 ^ e * 2 ^ e = B at *
    generalize 2 ^ e = A at *
    split <;> omega

/-- At the overflow bound and above, rounding gives infinity. -/
theorem roundMagnitude_overflow {m : Nat} (hm : (2 ^ 25 - 1) * 2 ^ 252 ≤ m) : roundMagnitude m = 0x7F800000 := by
  have hA : 0 < 2 ^ 252 := by positivity
  have hbig : 2 ^ (252 + 24) ≤ m := by rw [two_pow_252]; generalize (2 ^ 252 : Nat) = A at *; omega
  have h : ¬m < 2 ^ 24 := by rw [two_pow_252] at hbig; generalize (2 ^ 252 : Nat) = A at *; omega
  have h0 : m ≠ 0 := by omega
  obtain ⟨e, he⟩ : ∃ e, Nat.log2 m = e + 23 := ⟨Nat.log2 m - 23, by
      have : 23 ≤ Nat.log2 m := (Nat.le_log2 h0).2 (by omega)
      omega⟩
  have he2 : 253 ≤ e := by
    have : 252 + 24 ≤ Nat.log2 m := (Nat.le_log2 h0).2 hbig
    omega
  have hlo : 2 ^ (e + 23) ≤ m := by rw [← he]; exact Nat.log2_self_le h0
  have hpos : 0 < 2 ^ e := by positivity
  have hq1 : 2 ^ 23 ≤ m / 2 ^ e := (Nat.le_div_iff_mul_le hpos).2 (by rw [← Nat.pow_add, Nat.add_comm]; exact hlo)
  unfold roundMagnitude
  rw [if_neg h]
  simp only [he, Nat.add_sub_cancel]
  apply Nat.min_eq_right
  rcases Nat.lt_or_eq_of_le he2 with h3 | h3
  · omega
  · subst h3
    have hdm := Nat.div_add_mod m (2 ^ 253)
    have hr := Nat.mod_lt m hpos
    clear he hlo hbig
    have e2 : (2 ^ 253 : Nat) = 2 * 2 ^ 252 := two_pow_252 1
    have hq2 : 2 ^ 24 - 1 ≤ m / 2 ^ 253 := (Nat.le_div_iff_mul_le hpos).2 (by
      rw [e2]; clear hdm hr hq1; generalize (2 ^ 252 : Nat) = A at *; omega)
    generalize m / 2 ^ 253 = q at *
    generalize m % 2 ^ 253 = r at *
    rw [e2] at *
    clear e2
    generalize (2 ^ 252 : Nat) = A at *
    rcases Nat.lt_or_eq_of_le hq2 with h4 | h4
    · omega
    · subst h4
      rw [if_pos]
      · omega
      · omega

/-- A magnitude is that of the pattern without its sign. -/
theorem f32Magnitude_eq (x : F32) : f32Magnitude x = patternMagnitude (f32Exp x * 2 ^ 23 + f32Frac x) := by
  obtain ⟨-, -, hf⟩ := f32_split x
  unfold f32Magnitude patternMagnitude
  rw [show (f32Exp x * 2 ^ 23 + f32Frac x) / 2 ^ 23 = f32Exp x by omega, show (f32Exp x * 2 ^ 23 + f32Frac x) % 2 ^ 23 = f32Frac x by omega]

/-- The fields of a packed pattern. -/
theorem f32Pack_fields (neg : Bool) {p : Nat} (h : p < 2 ^ 31) :
    f32Sign (f32Pack neg p) = neg ∧ f32Exp (f32Pack neg p) = p / 2 ^ 23 ∧ f32Frac (f32Pack neg p) = p % 2 ^ 23 := by
  have h1 : (f32Pack neg p).toNat = (if neg then 2 ^ 31 else 0) + p := by
    unfold f32Pack; rw [BitVec.toNat_ofNat]; split <;> omega
  refine ⟨?_, ?_, ?_⟩
  · simp only [f32Sign, BitVec.msb_eq_decide, h1]
    cases neg <;> simp <;> omega
  · unfold f32Exp; rw [h1]; split <;> omega
  · unfold f32Frac; rw [h1]; split <;> omega

theorem f32Pack_bit0 (neg : Bool) {p : Nat} (h : p < 2 ^ 31) : (f32Pack neg p).getLsbD 0 = decide (p % 2 = 1) := by
  have h1 : (f32Pack neg p).toNat = (if neg then 2 ^ 31 else 0) + p := by
    unfold f32Pack; rw [BitVec.toNat_ofNat]; split <;> omega
  rw [BitVec.getLsbD, h1, Nat.testBit_zero]
  congr 1
  apply propext
  split <;> omega

theorem f32Units_cases (x : F32) :
    f32Units x = f32Magnitude x ∧ f32Sign x = false ∨ f32Units x = -(f32Magnitude x : Int) ∧ f32Sign x = true := by
  unfold f32Units; cases h : f32Sign x <;> simp

end Sys2Proof.Machine
end

