-- ==== Sys2Proof/Laws/Step.lean ====
section
/-! SUPPORT. The laws of the moves: which moves are enabled, which is taken, and what each can do, said once. -/

set_option autoImplicit false

namespace Sys2Proof.Machine

variable {s t : State} {g l : Nat}

/-! ### Enabled moves (10_state R20) -/

theorem moveEnabled_of_mem {m : Move} (h : m ∈ enabledMoves s) : moveEnabled s m = true := (List.mem_filter.1 h).2

theorem mem_enabledMoves_input : Move.input ∈ enabledMoves s ↔ s.inbox ≠ [] := by
  simp [enabledMoves, candidateMoves, moveEnabled]

/-- A lane's move is enabled: there is such a lane, and it can step. -/
theorem moveEnabled_lane :
    moveEnabled s (.lane g l) = true ↔
      ∃ e wg ln, s.engine = some e ∧ e.groups[g]? = some wg ∧ wg.lanes[l]? = some ln ∧ ln.pos.canStep = true := by
  simp only [moveEnabled]
  split
  · next h => simp [h]
  · next e h =>
    split
    · next h1 => simp [h, h1]
    · next wg h1 =>
      split
      · next h2 => simp [h, h1, h2]
      · next ln h2 => simp [h, h1, h2]

/-- A release is enabled: there is such a workgroup, and all its lanes have arrived. -/
theorem moveEnabled_release :
    moveEnabled s (.release g) = true ↔
      ∃ e wg, s.engine = some e ∧ e.groups[g]? = some wg ∧ wg.allArrived (shapeOf s.cfg e) = true := by
  simp only [moveEnabled]
  split
  · next h => simp [h]
  · next e h =>
    split
    · next h1 => simp [h, h1]
    · next wg h1 => simp [h, h1]

theorem moveEnabled_complete : moveEnabled s .complete = true ↔ ∃ e, s.engine = some e ∧ e.finished = true := by
  simp only [moveEnabled]
  split
  · next h => simp [h]
  · next e h => simp [h]

theorem finished_iff {e : EngineRun} :
    e.finished = true ↔ ∀ wg ∈ e.groups, ∀ ln ∈ wg.lanes, ln.pos = .exit := by
  simp [EngineRun.finished]

/-- An enabled move of the dispatch is among the candidates. -/
theorem mem_enabledMoves_lane (h : moveEnabled s (.lane g l) = true) (hl : l < laneCount s.cfg) :
    Move.lane g l ∈ enabledMoves s := by
  obtain ⟨e, wg, ln, he, hg, -, -⟩ := moveEnabled_lane.1 h
  refine List.mem_filter.2 ⟨?_, h⟩
  simp only [candidateMoves, he, List.mem_cons, List.mem_append, List.mem_flatMap, List.mem_range, List.mem_map]
  exact .inr (.inl ⟨g, (List.getElem?_eq_some_iff.1 hg).1, .inr ⟨l, hl, rfl⟩⟩)

theorem mem_enabledMoves_release (h : moveEnabled s (.release g) = true) : Move.release g ∈ enabledMoves s := by
  obtain ⟨e, wg, he, hg, -⟩ := moveEnabled_release.1 h
  refine List.mem_filter.2 ⟨?_, h⟩
  simp only [candidateMoves, he, List.mem_cons, List.mem_append, List.mem_flatMap, List.mem_range, List.mem_map]
  exact .inr (.inl ⟨g, (List.getElem?_eq_some_iff.1 hg).1, .inl rfl⟩)

theorem mem_enabledMoves_complete (h : moveEnabled s .complete = true) : Move.complete ∈ enabledMoves s := by
  obtain ⟨e, he, -⟩ := moveEnabled_complete.1 h
  exact List.mem_filter.2 ⟨by simp [candidateMoves, he], h⟩

theorem mem_of_nextMove {m : Move} (h : nextMove s = some m) : m ∈ enabledMoves s := List.mem_of_getElem? h

/-- Some enabled move is taken whenever there is one. -/
theorem nextMove_isSome (h : enabledMoves s ≠ []) : ∃ m, nextMove s = some m :=
  ⟨_, List.getElem?_eq_getElem (Nat.mod_lt _ (List.length_pos_iff.2 h))⟩

/-- Fresh draws enable and disable nothing. -/
theorem moveEnabled_drawNext (m : Move) : moveEnabled (drawNext s) m = moveEnabled s m := by cases m <;> rfl

/-- A command placed as the next transaction is taken by the next step. -/
theorem nextMove_placeCommand (w : Word) (s : State) : nextMove (placeCommand w s) = some .input := by
  have h : enabledMoves (placeCommand w s) = .input :: (enabledMoves (placeCommand w s)).tail := by
    simp [enabledMoves, candidateMoves, moveEnabled, placeCommand]
  rw [nextMove, h]; simp

/-- What a step can do: nothing, when nothing is enabled; else the move that is taken, on fresh draws. -/
theorem step_next (h : step s = .next t) :
    (nextMove s = none ∧ t = s) ∨
    ∃ m, nextMove s = some m ∧ moveEnabled (drawNext s) m = true ∧ performMove m (drawNext s) = .next t := by
  unfold step at h
  split at h
  · next hn => exact .inl ⟨hn, (Host.Outcome.next.inj h).symm⟩
  · next m hm =>
    exact .inr ⟨m, hm, by rw [moveEnabled_drawNext]; exact moveEnabled_of_mem (mem_of_nextMove hm), h⟩

/-! ### What a move of the dispatch can do -/

theorem laneMove_eq {e : EngineRun} {wg : Workgroup} {ln : Lane} (he : s.engine = some e) (hg : e.groups[g]? = some wg)
    (hl : wg.lanes[l]? = some ln) :
    laneMove g l s =
      match laneEffect (shapeOf s.cfg e) (drawnNaN s.draws) s g l wg ln with
      | .error f => .fault f
      | .ok eff => .next { putGroup s e g (wg.applyLane l eff) with ybuf := eff.ybuf } := by
  simp only [laneMove, he, hg, hl]
  all_goals cases laneEffect (shapeOf s.cfg e) (drawnNaN s.draws) s g l wg ln <;> rfl

theorem laneMove_next (h : laneMove g l s = .next t) (he : moveEnabled s (.lane g l) = true) :
    ∃ e wg ln eff, s.engine = some e ∧ e.groups[g]? = some wg ∧ wg.lanes[l]? = some ln ∧ ln.pos.canStep = true ∧
      laneEffect (shapeOf s.cfg e) (drawnNaN s.draws) s g l wg ln = .ok eff ∧
      t = { putGroup s e g (wg.applyLane l eff) with ybuf := eff.ybuf } := by
  obtain ⟨e, wg, ln, he, hg, hl, hc⟩ := moveEnabled_lane.1 he
  rw [laneMove_eq he hg hl] at h
  split at h
  · cases h
  · next eff heff => exact ⟨e, wg, ln, eff, he, hg, hl, hc, heff, (Host.Outcome.next.inj h).symm⟩

theorem releaseMove_eq {e : EngineRun} {wg : Workgroup} (he : s.engine = some e) (hg : e.groups[g]? = some wg) :
    releaseMove g s = putGroup s e g (wg.release (shapeOf s.cfg e)) := by
  simp only [releaseMove, he, hg]

/-! ### What a host transaction can do (44_host_commands R210 to R216) -/

theorem takeInput_next (h : takeInput s = .next t) :
    (s.inbox = [] ∧ t = s) ∨
    ∃ inp rest, s.inbox = inp :: rest ∧ moveOffered inp s = true ∧ runInput inp { s with inbox := rest } = .next t := by
  unfold takeInput at h
  split at h
  · next hn => exact .inl ⟨hn, (Host.Outcome.next.inj h).symm⟩
  · next inp rest hi =>
    split at h
    · next ho => exact .inr ⟨inp, rest, hi, ho, h⟩
    · cases h

/-- A move that the interface offers is run on the state whose list no longer holds it. -/
theorem takeInput_of_offered {inp : Input} {rest : List Input} (hi : s.inbox = inp :: rest) (h : moveOffered inp s = true) :
    takeInput s = runInput inp { s with inbox := rest } := by
  simp [takeInput, hi, h]

/-- A move that the interface does not offer stops the machine (44_host_commands R219). -/
theorem takeInput_of_not_offered {inp : Input} {rest : List Input} (hi : s.inbox = inp :: rest)
    (h : moveOffered inp s = false) : takeInput s = .fault .hostMoveWhileBusy := by
  simp [takeInput, hi, h]

@[simp] theorem moveOffered_of_idle (inp : Input) (h : s.status.busy = false) : moveOffered inp s = true := by
  simp [moveOffered, h]

@[simp] theorem moveOffered_of_busy (inp : Input) (h : s.status.busy = true) :
    moveOffered inp s = inp.allowedWhileBusy := by
  simp [moveOffered, h]

theorem exec_of_busy (i : Instr) (hb : s.status.busy = true) : exec i s = .next s := by
  cases i
  · rfl
  · exact acceptOperation_of_busy hb
  · exact acceptOperation_of_busy hb
  · exact acceptOperation_of_busy hb
  · exact acceptOperation_of_busy hb
  · simp [exec, execClrst, hb]

/-- While BUSY only the reset event changes anything of the block. -/
theorem runInput_busy {inp : Input} (hb : s.status.busy = true) (h : runInput inp s = .next t) :
    (inp = .reset ∧ t = resetEvent s) ∨ t = { s with readData := t.readData, inbox := t.inbox } := by
  cases inp
  case wrcr i v => obtain rfl := Host.Outcome.next.inj h; right; simp [hostWrcr, hb]
  case rdcr i => obtain rfl := Host.Outcome.next.inj h; right; rfl
  case stT i v => simp [runInput, hostStore, hb] at h
  case stW i v => simp [runInput, hostStore, hb] at h
  case stX i v => simp [runInput, hostStore, hb] at h
  case stY i v => simp [runInput, hostStore, hb] at h
  case ld b i => simp [runInput, hostLoad, hb] at h
  case command w =>
    right
    simp only [runInput, runCommand] at h
    split at h
    · rw [exec_of_busy _ hb] at h; obtain rfl := Host.Outcome.next.inj h; rfl
    · obtain rfl := Host.Outcome.next.inj h; simp [illegalCommand, hb]
  case wait =>
    right
    simp only [runInput, hb, if_true] at h
    obtain rfl := Host.Outcome.next.inj h; rfl
  case reset => exact .inl ⟨rfl, (Host.Outcome.next.inj h).symm⟩

/-- What a store can do while the block is idle. -/
theorem hostStore_next {b : Buf} {i : Nat} {u : State} (h : hostStore b i u s = .next t) :
    t = s ∨ (i < capacity s.cfg b ∧ t = u) := by
  unfold hostStore at h
  split at h
  · cases h
  · split at h
    · next hi => exact .inr ⟨hi, (Host.Outcome.next.inj h).symm⟩
    · exact .inl (Host.Outcome.next.inj h).symm

theorem hostLoad_next {b : Buf} {i : Nat} (h : hostLoad b i s = .next t) : ∃ d, t = { s with readData := some d } := by
  unfold hostLoad at h
  split at h
  · cases h
  · split at h
    · split at h
      · cases h
      · next d _ => exact ⟨d, (Host.Outcome.next.inj h).symm⟩
    · cases h

/-- WRCR writes nothing but control registers. -/
theorem writeCR_others (s : State) (i v : Word) :
    writeCR s i v = { s with rows := (writeCR s i v).rows, cols := (writeCR s i v).cols, width := (writeCR s i v).width
                             count := (writeCR s i v).count, wlen := (writeCR s i v).wlen, xlen := (writeCR s i v).xlen } := by
  unfold writeCR; split <;> rfl

end Sys2Proof.Machine
end

