-- ==== Sys2Proof/Laws/Values.lean ====
section
/-! SUPPORT. The laws of a lane's sum over code slots: slots of other lanes add nothing, a slot of its own adds one contribution,
and over the whole row it is `P(r, l)` of the closed form (43_parallel_kernel R185). -/

set_option autoImplicit false

namespace Sys2Proof.Machine

variable {add : F32 → F32 → F32} {sh : Shape} {row : Nat → Word} {x : Nat → F32} {l : Nat}

/-- Slot `n` is lane `l`'s: it lies in a word of the row that the lane takes. -/
def Shape.ownSlot (sh : Shape) (l n : Nat) : Prop :=
  n / sh.codes < sh.rowWords ∧ n / sh.codes % sh.tileWords % sh.lanes = l

theorem slotSum_own {n : Nat} (h : sh.ownSlot l n) :
    slotSum add sh row x l (n + 1) =
      accStep add (slotSum add sh row x l n) (row (n / sh.codes)) (n % sh.codes) (x n) := by
  unfold Shape.ownSlot at h; simp [slotSum, h]

theorem slotSum_other {n : Nat} (h : ¬sh.ownSlot l n) :
    slotSum add sh row x l (n + 1) = slotSum add sh row x l n := by
  unfold Shape.ownSlot at h; simp [slotSum, h]

/-- Slots that are all other lanes' leave the sum as it is. -/
theorem slotSum_skip {n m : Nat} (hnm : n ≤ m) (h : ∀ q, n ≤ q → q < m → ¬sh.ownSlot l q) :
    slotSum add sh row x l m = slotSum add sh row x l n := by
  induction m with
  | zero => rw [Nat.le_zero.1 hnm]
  | succ m ih =>
    rcases Nat.lt_or_ge m n with h1 | h1
    · rw [show n = m + 1 by omega]
    · rw [slotSum_other (h m h1 (by omega)), ih h1 fun q h2 h3 => h q h2 (by omega)]

/-- The slots of word `t*TW + jw` of the row are those of lane `jw % L`, when the row has that word. -/
theorem ownSlot_word {t jw k : Nat} (hK : k < sh.codes) (hj : jw < sh.tileWords) :
    sh.ownSlot l ((t * sh.tileWords + jw) * sh.codes + k) ↔ t * sh.tileWords + jw < sh.rowWords ∧ jw % sh.lanes = l := by
  unfold Shape.ownSlot
  rw [Nat.mul_comm _ sh.codes, Nat.mul_add_div (by omega), Nat.div_eq_of_lt hK, Nat.add_zero, Nat.mul_comm t,
    Nat.mul_add_mod, Nat.mod_eq_of_lt hj]

/-- From tile word `jw` on, up to the next word of lane `l` or the end of the tile, no slot is lane `l`'s. -/
theorem slotSum_words {t jw jw' : Nat} (hK : 0 < sh.codes) (h : jw ≤ jw') (hT : jw' ≤ sh.tileWords)
    (hno : ∀ q, jw ≤ q → q < jw' → t * sh.tileWords + q < sh.rowWords → q % sh.lanes ≠ l) :
    slotSum add sh row x l ((t * sh.tileWords + jw') * sh.codes) =
      slotSum add sh row x l ((t * sh.tileWords + jw) * sh.codes) := by
  refine slotSum_skip (Nat.mul_le_mul_right _ (by omega)) fun q h1 h2 hown => ?_
  have h3 : t * sh.tileWords + jw ≤ q / sh.codes := (Nat.le_div_iff_mul_le hK).2 h1
  have h4 : q / sh.codes < t * sh.tileWords + jw' := (Nat.div_lt_iff_lt_mul hK).2 h2
  have h5 : q = (t * sh.tileWords + (q / sh.codes - t * sh.tileWords)) * sh.codes + q % sh.codes := by
    rw [show t * sh.tileWords + (q / sh.codes - t * sh.tileWords) = q / sh.codes by omega, Nat.mul_comm]
    exact (Nat.div_add_mod _ _).symm
  rw [h5, ownSlot_word (Nat.mod_lt _ hK) (by omega)] at hown
  exact hno _ (by omega) (by omega) hown.1 hown.2

/-- Slots beyond the row's words add nothing. -/
theorem slotSum_beyond {n : Nat} (hK : 0 < sh.codes) (h : sh.rowWords * sh.codes ≤ n) :
    slotSum add sh row x l n = slotSum add sh row x l (sh.rowWords * sh.codes) := by
  refine slotSum_skip h fun q h1 _ hown => ?_
  have : sh.rowWords ≤ q / sh.codes := (Nat.le_div_iff_mul_le hK).2 h1
  exact absurd hown.1 (by omega)

/-- One word of the lane: its slots in ascending order. -/
theorem slotSum_word {j : Nat} (hK : 0 < sh.codes) :
    slotSum add sh row x l ((j + 1) * sh.codes) =
      if j < sh.rowWords ∧ j % sh.tileWords % sh.lanes = l then
        (List.range sh.codes).foldl (fun a k => accStep add a (row j) k (x (j * sh.codes + k)))
          (slotSum add sh row x l (j * sh.codes))
      else slotSum add sh row x l (j * sh.codes) := by
  have hdiv : ∀ k, k < sh.codes → (j * sh.codes + k) / sh.codes = j ∧ (j * sh.codes + k) % sh.codes = k := fun k hk => by
    rw [Nat.mul_comm, Nat.mul_add_div hK, Nat.div_eq_of_lt hk, Nat.mul_add_mod, Nat.mod_eq_of_lt hk]; simp
  split
  · next h =>
    have key : ∀ n, n ≤ sh.codes → slotSum add sh row x l (j * sh.codes + n) =
        (List.range n).foldl (fun a k => accStep add a (row j) k (x (j * sh.codes + k)))
          (slotSum add sh row x l (j * sh.codes)) := by
      intro n
      induction n with
      | zero => intro _; rfl
      | succ n ih =>
        intro hn
        obtain ⟨h1, h2⟩ := hdiv n (by omega)
        rw [← Nat.add_assoc, slotSum_own (by unfold Shape.ownSlot; rw [h1]; exact h), h1, h2, ih (by omega),
          List.range_succ, List.foldl_append]
        rfl
    rw [Nat.add_mul, Nat.one_mul]
    exact key _ (Nat.le_refl _)
  · next h =>
    refine slotSum_skip (Nat.mul_le_mul_right _ (by omega)) fun q h1 h2 hown => h ?_
    have h3 : q / sh.codes = j := by
      have := (Nat.le_div_iff_mul_le hK).2 h1
      have := (Nat.div_lt_iff_lt_mul hK).2 h2
      omega
    unfold Shape.ownSlot at hown
    rwa [h3] at hown

/-- Over the whole row the sum is `P(r, l)`. -/
theorem slotSum_eq_lanePartial (hK : 0 < sh.codes) :
    slotSum add sh row x l (sh.rowWords * sh.codes) = lanePartial add sh row x l := by
  have key : ∀ n, n ≤ sh.rowWords → slotSum add sh row x l (n * sh.codes) =
      ((List.range n).filter fun j => decide (j % sh.tileWords % sh.lanes = l)).foldl
        (fun acc j => (List.range sh.codes).foldl (fun a k => accStep add a (row j) k (x (j * sh.codes + k))) acc)
        f32PosZero := by
    intro n
    induction n with
    | zero => intro _; simp [slotSum]
    | succ n ih =>
      intro hn
      rw [slotSum_word hK, ih (by omega), List.range_succ, List.filter_append, List.foldl_append]
      by_cases h : n % sh.tileWords % sh.lanes = l
      · rw [if_pos ⟨by omega, h⟩]; simp [h]
      · rw [if_neg (by tauto)]; simp [h]
  exact key _ (Nat.le_refl _)

/-- Tree levels of equal leaves are equal. -/
theorem treeLevel_congr {P Q : Nat → F32} {n : Nat} (h : ∀ l, P l = Q l) (m l : Nat) :
    treeLevel add n P m l = treeLevel add n Q m l := by
  have : P = Q := funext h
  rw [this]

end Sys2Proof.Machine
end

