-- ==== Sys2Proof/Laws/Invariant.lean ====
section
/-! SUPPORT. What one micro-step and one barrier release do to the values a lane answers for (43_parallel_kernel R175 to R185): the
lane's own, the other lanes', and every lane's at a release. -/

set_option autoImplicit false

namespace Sys2Proof.Machine

variable {s : State} {g l : Nat}

/-- The dimensions of a dispatch that passed its checks. -/
theorem dims_ok {e : EngineRun} (h : RunControl s e) : 2 ≤ (shapeOf s.cfg e).width ∧ e.rows ≤ s.cfg.ycap := by
  obtain ⟨⟨h1, -⟩, -, -, h2⟩ := runmvCheck_eq_none.1 h.checks
  exact ⟨by rw [shapeOf_width, h.width]; exact h1, by rw [h.rows]; exact h2⟩

/-- Replacing one workgroup by a legal one keeps the dispatch legal. -/
theorem putGroup_run {e : EngineRun} {wg' : Workgroup} (hr : RunControl s e) (h : GroupControl (shapeOf s.cfg e) wg') (hg : g < e.groups.length) :
    RunControl (putGroup s e g wg') { e with groups := e.groups.set g wg' } := by
  obtain ⟨d1,d2,d3,d4,d5,d6⟩ := hr
  refine ⟨d1,d2,d3,?_,by simpa using d5,?_⟩
  · rw [← d4]; exact runmvCheck_congr rfl rfl rfl rfl rfl rfl
  · intro g' wg hgg
    show GroupControl (shapeOf s.cfg e) wg
    simp only [List.getElem?_set] at hgg
    split at hgg
    · cases hgg; exact h
    · exact d6 _ _ hgg

section
variable {ad : Adder} {sh : Shape} {row : Nat → Word} {x : Nat → F32} {wg : Workgroup} {ln : Lane}

theorem tile_zero {shmX : Memory 32} {t : Nat} (h : l < sh.lanes): TileHolds sh x shmX l (loadStart sh l t) := by
  unfold loadStart
  split
  · intro i' h1 h2; rw [Nat.mod_eq_of_lt (by omega)] at h2; omega
  · intro i' h1 h2; rw [Nat.mod_eq_of_lt (by omega)] at h2; omega

theorem slots_accFrom {add : F32 → F32 → F32} {t jw0 jw : Nat} (hK : 0 < sh.codes) (h0 : jw0 ≤ jw) (h0' : jw0 ≤ sh.tileWords) (hj : jw % sh.lanes = l)
    (hno : ∀ q, jw0 ≤ q → q < jw → q % sh.lanes ≠ l) :
    slotSum add sh row x l ((accFrom sh t jw).slotsDone sh) = slotSum add sh row x l ((t * sh.tileWords + jw0) * sh.codes) := by
  unfold accFrom
  split
  · next h =>
    simp only [Pos.slotsDone, Nat.add_zero]
    exact slotSum_words hK h0 (by omega) fun q h1 h2 _ => hno q h1 h2
  · next h =>
    simp only [Pos.slotsDone]
    have : (t+1) * sh.tile = (t * sh.tileWords + sh.tileWords) * sh.codes := by unfold Shape.tile; ring
    rw [this]
    refine slotSum_words hK h0' (by omega) fun q h1 h2 h3 h4 => ?_
    by_cases hq : q < jw
    · exact hno q h1 hq h4
    · omega

theorem lt_of_mod_between {a i L : Nat} (h1 : a ≤ i) (h2 : i < a + L) (h3 : i % L = a % L) : i = a := by
  have hL : 0 < L := by omega
  obtain ⟨d, rfl⟩ := Nat.exists_eq_add_of_le h1
  have : (a + d) % L = (a + 0) % L := by simpa using h3
  have := Nat.ModEq.add_left_cancel' a (show a + d ≡ a + 0 [MOD L] from this)
  have h4 : d % L = 0 := by simpa [Nat.ModEq] using this
  rw [Nat.mod_eq_of_lt (by omega)] at h4
  omega
end

theorem tile_eq (sh : Shape) (t : Nat) : t * sh.tile = t * sh.tileWords * sh.codes := by unfold Shape.tile; ring

theorem inputElement_of {sh : Shape} {xb : Memory 32} {t i : Nat} {v : F32} (h : tileElement sh xb t i = .ok v) :
    inputElement sh xb (t * sh.tile + i) = v := by
  unfold tileElement at h; unfold inputElement
  simp only at h
  split at h
  · next hc => rw [if_pos hc, readElement_eq_ok.1 h]; rfl
  · next hc => rw [if_neg hc]; cases h; rfl

theorem agrees_accStep {ad : Adder} {nan a a' : F32} {w : Word} {k : Nat} {x : F32} (hn : isNaN nan = true) (h : F32.agrees ad a a') :
    F32.agrees ad (accStep (fadd ad nan) a w k x) (accStep (plainAdd ad) a' w k x) :=
  F32.agrees_plainAdd hn h (F32.agrees_refl _ _)

theorem stride_level {sh : Shape} {j : Nat} (hj : j < sh.laneLog) :
    2 ^ sh.laneLog / 2 ^ (sh.laneLog - 1 - j + 1) = 2 ^ j := by
  rw [show sh.laneLog - 1 - j + 1 = sh.laneLog - j by omega, Nat.pow_div (by omega) (by omega)]
  congr 1; omega

/-- What a micro-step leaves the moved lane to answer for. -/
theorem moved_values {ad : Adder} {sh : Shape} {nan : F32} {wg : Workgroup} {ln : Lane} {eff : LaneEffect}
    (hK : 2 ≤ sh.width) (hT : 0 < sh.tileWords)
    (had : s.cfg.adder = ad) (hn : isNaN nan = true)
    (hG : GroupControl sh wg) (hl : wg.lanes[l]? = some ln) (hc : ln.pos.canStep = true)
    (hV : ∀ (l : Nat) (ln : Lane), wg.lanes[l]? = some ln → LaneValues ad sh (rowWord sh s.wbuf g) (inputElement sh s.xbuf) wg l ln)
    (h : laneEffect sh nan s g l wg ln = .ok eff) :
    LaneValues ad sh (rowWord sh s.wbuf g) (inputElement sh s.xbuf) (wg.applyLane l eff) l { pos := eff.pos, acc := eff.acc } := by
  have hlt := hG.lane_lt hl
  obtain ⟨ha, ht, hs⟩ := hV l ln hl
  obtain ⟨hlegal, hphase, hstart⟩ := hG.each l ln hl
  have hKp := Shape.codes_pos hK
  have hTp := Shape.tile_pos hK hT
  rcases laneEffect_ok hc h with ⟨hp, rfl⟩ | ⟨t, i, v, hp, hv, rfl⟩ | ⟨t, jw, k, w, xv, a, hp, hw, hx, hacc, rfl⟩ | ⟨a, hp, hacc, rfl⟩ |
    ⟨st, a, b, hp, hlst, hra, hrb, rfl⟩ | ⟨st, hp, hge, rfl⟩ | ⟨v, hp, hv, rfl⟩ <;> rw [hp] at ha ht hs hlegal hphase hstart
  · refine ⟨?_, ?_, ?_⟩
    · rintro a h
      cases h
      refine .inl ?_
      show f32PosZero = slotSum _ sh _ _ l ((afterInit sh l).slotsDone sh)
      unfold afterInit loadStart
      split
      · next h0 =>
        have : sh.rowWords = 0 := by have := Shape.rowWords_le hK hT; rw [h0] at this; omega
        simp [Pos.slotsDone, this, slotSum]
      · split <;> simp [Pos.slotsDone, slotSum]
    · show TileHolds _ _ _ _ (afterInit sh l)
      unfold afterInit
      split
      · trivial
      · exact tile_zero hlt
    · intro m hm
      change (afterInit sh l).treeSteps sh = some m at hm
      unfold afterInit loadStart at hm
      split at hm
      · cases hm
      · split at hm <;> cases hm
  · obtain ⟨h1, h2, h3⟩ := Pos.legal_load.1 hlegal
    refine ⟨?_, ?_, ?_⟩
    · rintro a h
      have := ha a h
      show F32.agrees _ _ (slotSum _ _ _ _ _ ((afterLoad sh t i).slotsDone sh))
      unfold afterLoad
      split <;> exact this
    · show TileHolds _ _ (Memory.write wg.shmX i v) _ (afterLoad sh t i)
      have key : ∀ i', i' < i + sh.lanes → i' % sh.lanes = l → i' < sh.tile → Memory.read (Memory.write wg.shmX i v) i' = some (inputElement sh s.xbuf (t * sh.tile + i')) := by
        intro i' h4 h5 h6
        rw [Memory.read_write]
        split
        · next h7 => rw [h7, inputElement_of hv]
        · next h7 =>
          refine ht i' ?_ h5
          by_contra h8
          exact h7 (lt_of_mod_between (by omega) h4 (by omega))
      unfold afterLoad
      split
      · next h4 => exact fun i' h5 h6 => key i' h5 h6 (by omega)
      · next h4 => exact fun i' h5 h6 => key i' (by omega) h6 h5
    · intro m hm
      change (afterLoad sh t i).treeSteps sh = some m at hm
      unfold afterLoad at hm
      split at hm <;> cases hm
  · obtain ⟨h1, h2, h3, h4, h5⟩ := Pos.legal_acc.1 hlegal
    have hslot : F32.agrees ad (accStep (fadd s.cfg.adder nan) a (lowWord sh.width w) k xv)
        (slotSum (plainAdd ad) sh (rowWord sh s.wbuf g) (inputElement sh s.xbuf) l ((t * sh.tileWords + jw) * sh.codes + k + 1)) := by
      rw [slotSum_own ((ownSlot_word h5 h2).2 ⟨h4, h3⟩)]
      have e1 : ((t * sh.tileWords + jw) * sh.codes + k) / sh.codes = t * sh.tileWords + jw := by
        rw [Nat.mul_comm, Nat.mul_add_div hKp, Nat.div_eq_of_lt h5]; rfl
      have e2 : ((t * sh.tileWords + jw) * sh.codes + k) % sh.codes = k := by
        rw [Nat.mul_comm, Nat.mul_add_mod, Nat.mod_eq_of_lt h5]
      have e3 : rowWord sh s.wbuf g (t * sh.tileWords + jw) = lowWord sh.width w := by
        unfold rowWord; rw [hw]; rfl
      have hi : jw * sh.codes + k < sh.tile := by
        unfold Shape.tile
        have : (jw + 1) * sh.codes ≤ sh.tileWords * sh.codes := Nat.mul_le_mul_right _ h2
        rw [Nat.add_mul] at this; omega
      have e4 : xv = inputElement sh s.xbuf ((t * sh.tileWords + jw) * sh.codes + k) := by
        have := ht _ hi
        rw [hx] at this
        have e : t * sh.tile + (jw * sh.codes + k) = (t * sh.tileWords + jw) * sh.codes + k := by unfold Shape.tile; ring
        rw [e] at this
        exact Option.some.inj this
      rw [e1, e2, e3, ← e4, had]
      exact agrees_accStep hn (ha a hacc)
    refine ⟨?_, ?_, ?_⟩
    · rintro a' h'
      cases h'
      show F32.agrees _ _ (slotSum _ _ _ _ _ ((afterAcc sh t jw k).slotsDone sh))
      unfold afterAcc
      split
      · exact hslot
      · next h6 =>
        have hk : k + 1 = sh.codes := by omega
        rw [slots_accFrom (jw0 := jw + 1) hKp (by have := sh.lanes_pos; omega) (by omega) (by rw [Nat.add_mod_right]; exact h3)]
        · have : (t * sh.tileWords + (jw + 1)) * sh.codes = (t * sh.tileWords + jw) * sh.codes + k + 1 := by
            rw [Nat.add_assoc _ k, hk]; ring
          rw [this]; exact hslot
        · intro q h7 h8 h9
          have := lt_of_mod_between (a := jw) (by omega) h8 (by rw [h9, h3])
          omega
    · show TileHolds _ _ _ _ (afterAcc sh t jw k)
      unfold afterAcc accFrom
      split
      · exact ht
      · split <;> exact ht
    · intro m hm
      change (afterAcc sh t jw k).treeSteps sh = some m at hm
      unfold afterAcc accFrom at hm
      split at hm
      · cases hm
      · split at hm <;> cases hm
  · refine ⟨ha, trivial, ?_⟩
    intro m hm
    cases hm
    exact ⟨a, Memory.read_write_same _ _ _, ha a hacc⟩
  · obtain ⟨j, hj, rfl⟩ := legal_stride.1 (show _ = true from hlegal)
    refine ⟨ha, trivial, ?_⟩
    intro m hm
    simp only [Pos.treeSteps, Nat.log2_two_pow, Option.some.injEq] at hm
    subst hm
    obtain ⟨v1, hr1, hv1⟩ := hs _ rfl
    rw [hra] at hr1; cases hr1
    -- the other lane
    have hl2 : l + 2 ^ j < sh.lanes := by
      have : 2 ^ (j+1) ≤ 2 ^ sh.laneLog := Nat.pow_le_pow_right (by omega) (by omega)
      rw [Nat.pow_succ] at this
      unfold Shape.lanes; omega
    obtain ⟨ln2, hln2⟩ := hG.lane_exists hl2
    obtain ⟨hlegal2, hphase2, -⟩ := hG.each _ ln2 hln2
    obtain ⟨-, -, hs2⟩ := hV _ ln2 hln2
    have hb2 : F32.agrees ad b (treeLevel (plainAdd ad) sh.laneLog (fun l' => slotSum (plainAdd ad) sh (rowWord sh s.wbuf g) (inputElement sh s.xbuf) l' (sh.rowWords * sh.codes)) (sh.laneLog - 1 - j) (l + 2 ^ j)) := by
      rw [← hphase] at hphase2
      cases hq : ln2.pos <;> rw [hq] at hlegal2 hphase2 hs2 <;> simp only [Pos.barriersPassed, Nat.log2_two_pow] at hphase2
      case red st2 =>
        obtain ⟨j2, hj2, rfl⟩ := legal_stride.1 (show _ = true from hlegal2)
        rw [Nat.log2_two_pow] at hphase2
        have : j2 = j := by omega
        subst this
        obtain ⟨v2, hr2, hv2⟩ := hs2 _ rfl
        rw [hrb] at hr2; cases hr2
        simpa only [Nat.log2_two_pow] using hv2
      case barRed st2 =>
        obtain ⟨j2, hj2, rfl⟩ := legal_stride.1 (show _ = true from hlegal2)
        rw [Nat.log2_two_pow] at hphase2
        have : j2 = j := by omega
        subst this
        obtain ⟨v2, hr2, hv2⟩ := hs2 _ rfl
        rw [hrb] at hr2; cases hr2
        rw [Nat.log2_two_pow, show sh.laneLog - j2 = (sh.laneLog - 1 - j2) + 1 by omega] at hv2
        simp only [treeLevel] at hv2
        rw [stride_level hj, if_neg (by omega)] at hv2
        exact hv2
      case load t2 i2 => have := (Pos.legal_load.1 hlegal2).1; omega
      case barLoad t2 => have : t2 < sh.tiles := by simpa [Pos.legal] using hlegal2
                         omega
      case acc t2 i2 k2 => have := (Pos.legal_acc.1 hlegal2).1; omega
      case barAcc t2 => have : t2 < sh.tiles := by simpa [Pos.legal] using hlegal2
                        omega
      all_goals omega
    refine ⟨_, Memory.read_write_same _ _ _, ?_⟩
    rw [show sh.laneLog - j = (sh.laneLog - 1 - j) + 1 by omega]
    simp only [treeLevel]
    rw [stride_level hj, if_pos hlst, had]
    simp only [Nat.log2_two_pow] at hv1
    exact F32.agrees_plainAdd hn hv1 hb2
  · obtain ⟨j, hj, rfl⟩ := legal_stride.1 (show _ = true from hlegal)
    refine ⟨ha, trivial, ?_⟩
    intro m hm
    simp only [Pos.treeSteps, Nat.log2_two_pow, Option.some.injEq] at hm
    subst hm
    obtain ⟨v1, hr1, hv1⟩ := hs _ rfl
    refine ⟨v1, hr1, ?_⟩
    rw [show sh.laneLog - j = (sh.laneLog - 1 - j) + 1 by omega]
    simp only [treeLevel]
    rw [stride_level hj, if_neg (by omega)]
    simpa only [Nat.log2_two_pow] using hv1
  · exact ⟨ha, trivial, hs⟩

/-- A micro-step leaves what every other lane of the workgroup answers for. -/
theorem other_values {ad : Adder} {sh : Shape} {nan : F32} {wg : Workgroup} {ln : Lane} {eff : LaneEffect}
    (hG : GroupControl sh wg) (hl : wg.lanes[l]? = some ln) (hc : ln.pos.canStep = true) {row : Nat → Word} {x : Nat → F32}
    (h : laneEffect sh nan s g l wg ln = .ok eff) {l' : Nat} {ln' : Lane} (hl' : wg.lanes[l']? = some ln') (hne : l ≠ l')
    (hV : LaneValues ad sh row x wg l' ln') :
    LaneValues ad sh row x (wg.applyLane l eff) l' ln' := by
  obtain ⟨ha, ht, hs⟩ := hV
  obtain ⟨hlegal, hphase, hstart⟩ := hG.each l ln hl
  obtain ⟨hlegal', hphase', hstart'⟩ := hG.each l' ln' hl'
  refine ⟨ha, ?_, ?_⟩
  · show TileHolds sh x eff.shmX l' ln'.pos
    rcases laneEffect_ok hc h with ⟨hp, rfl⟩ | ⟨t, i, v, hp, hv, rfl⟩ | ⟨t, jw, k, w, xv, a, hp, hw, hx, hacc, rfl⟩ | ⟨a, hp, hacc, rfl⟩ |
      ⟨st, a, b, hp, hlst, hra, hrb, rfl⟩ | ⟨st, hp, hge, rfl⟩ | ⟨v, hp, hv, rfl⟩
    case inr.inl =>
      rw [hp] at hlegal hphase
      obtain ⟨h1, h2, h3⟩ := Pos.legal_load.1 hlegal
      have hoth : ∀ i', i' % sh.lanes = l' → Memory.read (Memory.write wg.shmX i v) i' = Memory.read wg.shmX i' := fun i' h4 =>
        Memory.read_write_other _ _ _ _ (by rintro rfl; exact hne (h3.symm.trans h4))
      cases hq : ln'.pos <;> rw [hq] at ht hlegal' hphase' <;> simp only [Pos.barriersPassed] at hphase hphase'
      case load t2 i2 => exact fun i' h4 h5 => by rw [hoth i' h5]; exact ht i' h4 h5
      case barLoad t2 => exact fun i' h4 h5 => by rw [hoth i' h5]; exact ht i' h4 h5
      case acc => omega
      case barAcc => omega
      all_goals trivial
    all_goals exact ht
  · intro m hm
    obtain ⟨v0, h1, h2⟩ := hs m hm
    refine ⟨v0, ?_, h2⟩
    show Memory.read eff.shmR l' = some v0
    rcases laneEffect_ok hc h with ⟨hp, rfl⟩ | ⟨t, i, v, hp, hv, rfl⟩ | ⟨t, jw, k, w, xv, a, hp, hw, hx, hacc, rfl⟩ | ⟨a, hp, hacc, rfl⟩ |
      ⟨st, a, b, hp, hlst, hra, hrb, rfl⟩ | ⟨st, hp, hge, rfl⟩ | ⟨v, hp, hv, rfl⟩
    all_goals try exact h1
    all_goals exact (Memory.read_write_other _ _ _ _ (Ne.symm hne)).trans h1

/-- A release takes every lane's values to its next position. -/
theorem release_values {ad : Adder} {sh : Shape} {wg : Workgroup} {ln : Lane} {row : Nat → Word} {x : Nat → F32}
    (hK : 2 ≤ sh.width) (hT : 0 < sh.tileWords)
    (hG : GroupControl sh wg) (hall : wg.allArrived sh = true) (hl : wg.lanes[l]? = some ln)
    (hV : ∀ (l : Nat) (ln : Lane), wg.lanes[l]? = some ln → LaneValues ad sh row x wg l ln) :
    LaneValues ad sh row x (wg.release sh) l { ln with pos := afterBarrier sh l ln.pos } := by
  have hlt := hG.lane_lt hl
  obtain ⟨ha, ht, hs⟩ := hV l ln hl
  obtain ⟨hlegal, hphase, hstart⟩ := hG.each l ln hl
  have hb := hG.atBarrier_of_allArrived hall hl
  have hKp := Shape.codes_pos hK
  have hTp := Shape.tile_pos hK hT
  have hsame := fun l' ln' (h : wg.lanes[l']? = some ln') => hG.same_barrier hall h hl
  cases hq : ln.pos <;> rw [hq] at hb <;> simp [Pos.atBarrier] at hb <;> rw [hq] at ha ht hs hlegal <;> simp only [hq] at hsame
  case barLoad tt =>
    have htile : ∀ i', i' < sh.tile → Memory.read wg.shmX i' = some (x (tt * sh.tile + i')) := by
      intro i' hi'
      obtain ⟨ln2, hln2⟩ := hG.lane_exists (Nat.mod_lt i' sh.lanes_pos)
      have := (hV _ _ hln2).tile
      rw [hsame _ _ hln2] at this
      exact this i' hi' rfl
    refine ⟨?_, ?_, ?_⟩
    · intro a h
      show F32.agrees _ _ (slotSum _ _ _ _ _ ((accFrom sh tt l).slotsDone sh))
      rw [slots_accFrom (jw0 := 0) hKp (by omega) (by omega) (Nat.mod_eq_of_lt hlt)]
      · have := ha a h
        simp only [Pos.slotsDone, tile_eq] at this
        exact this
      · intro q _ h1 h2
        rw [Nat.mod_eq_of_lt (by omega)] at h2; omega
    · show TileHolds _ _ wg.shmX _ (accFrom sh tt l)
      unfold accFrom; split <;> exact htile
    · intro m hm
      change (accFrom sh tt l).treeSteps sh = some m at hm
      unfold accFrom at hm
      split at hm <;> cases hm
  case barAcc tt =>
    have htt : tt < sh.tiles := by simpa [Pos.legal] using hlegal
    refine ⟨?_, ?_, ?_⟩
    · intro a h
      have h0 := ha a h
      show F32.agrees _ _ (slotSum _ _ _ _ _ ((afterBarrier sh l (.barAcc tt)).slotsDone sh))
      simp only [afterBarrier]
      split
      · unfold loadStart; split <;> exact h0
      · next h1 =>
        simp only [Pos.slotsDone] at h0 ⊢
        rwa [show tt + 1 = sh.tiles by omega, tile_eq, slotSum_beyond hKp (Nat.mul_le_mul_right _ (Shape.rowWords_le hK hT))] at h0
    · show TileHolds _ _ _ _ (afterBarrier sh l (.barAcc tt))
      simp only [afterBarrier]
      split
      · exact tile_zero hlt
      · trivial
    · intro m hm
      change (afterBarrier sh l (.barAcc tt)).treeSteps sh = some m at hm
      simp only [afterBarrier, loadStart] at hm
      repeat' split at hm
      all_goals cases hm
  case barPub =>
    have hpos : (afterBarrier sh l .barPub).treeSteps sh = some 0 ∧ (afterBarrier sh l .barPub).slotsDone sh = sh.rowWords * sh.codes ∧ TileHolds sh x wg.shmX l (afterBarrier sh l .barPub) := by
      simp only [afterBarrier]
      split
      · next h =>
        obtain ⟨h0, h1⟩ := lanes_half h
        rw [h1]
        refine ⟨?_, rfl, trivial⟩
        simp [Pos.treeSteps]
      · next h =>
        have := laneLog_of_one_lane h
        unfold afterReduction
        split <;> exact ⟨by simp [Pos.treeSteps, this], rfl, trivial⟩
    refine ⟨fun a h => by show F32.agrees _ _ (slotSum _ _ _ _ _ ((afterBarrier sh l .barPub).slotsDone sh)); rw [hpos.2.1]; exact ha a h, hpos.2.2, fun m hm => ?_⟩
    have : some m = some 0 := hm.symm.trans hpos.1
    cases this
    exact hs 0 rfl
  case barRed st =>
    obtain ⟨j, hj, rfl⟩ := legal_stride.1 (show _ = true from hlegal)
    have hpos : (afterBarrier sh l (.barRed (2^j))).treeSteps sh = some (sh.laneLog - j) ∧ (afterBarrier sh l (.barRed (2^j))).slotsDone sh = sh.rowWords * sh.codes ∧ TileHolds sh x wg.shmX l (afterBarrier sh l (.barRed (2^j))) := by
      simp only [afterBarrier]
      split
      · next h =>
        obtain ⟨h0, h1⟩ := stride_half h
        rw [h1]
        refine ⟨?_, rfl, trivial⟩
        simp only [Pos.treeSteps, Nat.log2_two_pow]; congr 1; omega
      · next h =>
        have := stride_one h
        unfold afterReduction
        split <;> exact ⟨by simp [Pos.treeSteps, this], rfl, trivial⟩
    refine ⟨fun a h => by show F32.agrees _ _ (slotSum _ _ _ _ _ ((afterBarrier sh l (.barRed (2^j))).slotsDone sh)); rw [hpos.2.1]; exact ha a h, hpos.2.2, fun m hm => ?_⟩
    have : some m = some (sh.laneLog - j) := hm.symm.trans hpos.1
    cases this
    exact hs _ (by simp [Pos.treeSteps])

theorem afterBarrier_ne_exit {sh : Shape} {p : Pos} (h : p.atBarrier = true) : afterBarrier sh 0 p ≠ .exit := by
  cases p <;> simp [Pos.atBarrier] at h <;> simp only [afterBarrier, accFrom, loadStart, afterReduction] <;> (repeat' split) <;> simp

end Sys2Proof.Machine
end

