-- ==== Sys2Proof/Laws/PerInstr.lean ====
section
/-! SUPPORT. Statements per command, about the command as syntax. -/

set_option autoImplicit false

namespace Sys2Proof.Laws.Encoding

/-- The command is well formed, its word is a legal command word with `ZERO` clear, and the decoder reads the command back from
it (30_encoding R88, R89). -/
def Statement (i : Instr) : Prop :=
  i.wellFormed = true ∧ commandWordOk (encode i) = true ∧ zeroField (encode i) = 0 ∧ decode (encode i) = .ok i

theorem nop : Statement .nop := ⟨rfl, rfl, rfl, rfl⟩
theorem pack : Statement .pack := ⟨rfl, rfl, rfl, rfl⟩
theorem unpack : Statement .unpack := ⟨rfl, rfl, rfl, rfl⟩
theorem packm : Statement .packm := ⟨rfl, rfl, rfl, rfl⟩
theorem runmv : Statement .runmv := ⟨rfl, rfl, rfl, rfl⟩
theorem clrst : Statement .clrst := ⟨rfl, rfl, rfl, rfl⟩

end Sys2Proof.Laws.Encoding
end

