-- ==== Sys2Proof/Tests/Slice0.lean ====
section
/-! SUPPORT. Small tests of the model against the spec's worked examples (95_test_vectors), and a witness for the hypotheses of
every statement. -/

set_option autoImplicit false

namespace Sys2Proof.Tests

open Sys2Proof Sys2Proof.Machine

/-! ### Helpers -/

/-- A small instance: two lanes, tiles of two words at widths up to 8 and of one word above. -/
def smallCfg : Params :=
  { laneLog := 1, extraTileWords := List.replicate 9 1, tcap := 8, wcap := 4, xcap := 4, ycap := 2
    byteOrder := .little, adder := .ieee }

/-- An idle block of the small instance. -/
def idle : State := { State.reset with cfg := smallCfg }

/-- What a step leaves, seen through `f`; none when it stops. -/
def after {α : Type} (o : Host.Outcome State Fault Refusal) (f : State → α) : Option α :=
  match o with
  | .next t => some (f t)
  | _ => none

/-- The fault of a step. -/
def faultOf (o : Host.Outcome State Fault Refusal) : Option Fault :=
  match o with
  | .fault f => some f
  | _ => none

/-- An error standing, as after V34. -/
def inError : State := { idle with status := { busy := false, done := false, err := true, ecode := 15 }, einfo := 6 }

/-! ### Well-formedness and decoding (30_encoding R88 to R90) -/

theorem test_zero_field_refused : zeroFieldOk 0x00000011#32 = false := by decide
theorem test_op_field_refused : opFieldOk 0x00000006#32 = false := by decide
theorem test_command_words_ok : [0, 1, 2, 3, 4, 5].all (fun n => commandWordOk (BitVec.ofNat 32 n)) = true := by decide

/-- The words of 30_encoding R89, bits 31:4 zero and OP in bits 3:0. -/
theorem test_decode_nop : decode (0b00000000000000000000000000000000#32) = .ok .nop := by decide
theorem test_decode_pack : decode (0b00000000000000000000000000000001#32) = .ok .pack := by decide
theorem test_decode_unpack : decode (0b00000000000000000000000000000010#32) = .ok .unpack := by decide
theorem test_decode_packm : decode (0b00000000000000000000000000000011#32) = .ok .packm := by decide
theorem test_decode_runmv : decode (0b00000000000000000000000000000100#32) = .ok .runmv := by decide
theorem test_decode_clrst : decode (0b00000000000000000000000000000101#32) = .ok .clrst := by decide
theorem test_decode_reserved_op : decode 0x0000000F#32 = .error .reservedOp := by decide
theorem test_decode_zero_field : decode 0x80000001#32 = .error .zeroFieldSet := by decide
theorem test_table_words : [0, 1, 2, 3, 4, 5, 6, 17].map (decodeTableWord 32) =
    [some .nop, some .pack, some .unpack, some .packm, some .runmv, some .clrst, none, none] := by decide

/-- Every row runs as the first command after reset. -/
theorem test_first_command_after_reset : [0, 1, 2, 3, 4, 5].all (fun w =>
    (after (step (State.reset.withFetchWord 32 w)) fun _ => ()).isSome) = true := by decide

/-! ### Codec vectors (95_test_vectors V6 to V23) -/

theorem test_v7_pack : packWord [1, -1, 0, 1] = some 0x00000049#32 := by decide
theorem test_v11_pack : packChunks 16 [-1, -1, 0, 1, 1, 0, 0, -1, 1] = [0x814A#32, 0x0001#32] := by decide
theorem test_v12_pack_odd : packChunks 7 [1, -1, 1, -1] = [0x19#32, 0x02#32] := by decide
theorem test_v20_unpack_odd : unpackWord 7 0x5B#32 = [0, -1, 1] := by decide
theorem test_v23_unpack : unpack 8 [0x49#32, 0xFE#32] 5 = [1, -1, 0, 1, -1] := by decide
theorem test_s4_invalid : (match pack 8 [1, 1, 1, 1, 5] with | .error i => i | .ok _ => 99) = 4 := by decide

/-! ### Datapath and float vectors (95_test_vectors V25 to V30) -/

theorem test_v26b_negate_zero : selectContribution 0b10#2 0x00000000#32 = 0x80000000#32 := by decide
theorem test_v27a_zero_hides_nan : selectContribution 0b00#2 0x7FC00000#32 = 0x00000000#32 := by decide
theorem test_v28_decacc : decAcc (plainAdd .ieee) 4 f32PosZero 0x49#32
    [0x40000000#32, 0x40400000#32, 0x40A00000#32, 0x40E00000#32] = 0x40C00000#32 := by decide
theorem test_v30_rounding : plainAdd .ieee 0x4CBEBC20#32 0x3F800000#32 = 0x4CBEBC20#32 := by decide
/-- Ties to even: 1 + 2^-24 = 1, and (1 + 2^-23) + 2^-24 = 1 + 2^-22. -/
theorem test_ties_to_even : (plainAdd .ieee 0x3F800000#32 0x33800000#32, plainAdd .ieee 0x3F800001#32 0x33800000#32) =
    (0x3F800000#32, 0x3F800002#32) := by decide

/-- The largest finite float doubled is too large. -/
theorem test_overflow : plainAdd .ieee 0xFF7FFFFF#32 0xFF7FFFFF#32 = 0xFF800000#32 := by decide
theorem test_inf_minus_inf : isNaN (plainAdd .ieee 0x7F800000#32 0xFF800000#32) = true := by decide
theorem test_stream_bytes : streamBytes .little 32 0x12345678#32 = [0x78#8, 0x56#8, 0x34#8, 0x12#8] := by decide
theorem test_harness_nan_fails : harnessPass 0 1 [0x7FC00000#32] [0x7FC00000#32] = false := by decide

/-- V31: foreign data, the reference kernel. -/
theorem test_v31_reference : refRow (plainAdd .ieee) 8 6 [0xFF#32, 0x9B#32]
    [0x3F800000#32, 0x40000000#32, 0x40400000#32, 0x40800000#32, 0x40A00000#32, 0x40C00000#32] 0 = 0xC0C00000#32 := by
  decide

/-! ### Commands (95_test_vectors P1, P4, V34 to V44) -/

/-- P1 before PACK. -/
def packReady : State :=
  { idle with width := 8, count := 5, tbuf := [(0, 0x01#8), (1, 0xFF#8), (2, 0x00#8), (3, 0x01#8), (4, 0xFF#8)] }

/-- P1 before UNPACK, over other raw values. -/
def unpackReady : State :=
  { packReady with wlen := 2, wbuf := [(0, 0x49#32), (1, 0x02#32)], tbuf := [(4, 0x00#8), (5, 0x01#8)] }

/-- The example of 40_codec R122, cut to the small instance: two rows of four at width 6. -/
def packmReady : State :=
  { idle with
    width := 6, rows := 2, cols := 4
    tbuf := [(0, 1#8), (1, 0xFF#8), (2, 0#8), (3, 1#8), (4, 0xFF#8), (5, 0#8), (6, 0#8), (7, 1#8)] }

/-- The scenario of 95_test_vectors S1 at width 8. -/
def runReady : State :=
  { idle with
    width := 8, rows := 1, cols := 4, wlen := 1, xlen := 4
    wbuf := [(0, 0x49#32)]
    xbuf := [(0, 0x40000000#32), (1, 0x40400000#32), (2, 0x40A00000#32), (3, 0x40E00000#32)] }

/-- P4: a value that is not ternary. -/
def badValue : State := { packReady with tbuf := [(0, 1#8), (1, 0#8), (2, 2#8), (3, 0xFF#8), (4, 1#8)] }

theorem test_nop : after (exec .nop inError) (fun t => decide (t = inError)) = some true := by decide
theorem test_pack_words : after (exec .pack packReady) (fun t => (t.wbuf, t.status.toWord)) =
    some ([(0, 0x49#32), (1, 0x02#32)], 0x00000002#32) := by decide
theorem test_pack_invalid : after (exec .pack badValue) (fun t => (t.wbuf, t.status.toWord, t.einfo)) =
    some ([], 0x00000014#32, 2#32) := by decide
theorem test_unpack_values : after (exec .unpack unpackReady) (fun t => t.tbuf) =
    some [(0, 0x01#8), (1, 0xFF#8), (2, 0x00#8), (3, 0x01#8), (4, 0xFF#8), (5, 0x01#8)] := by decide
theorem test_v40_unpack_too_short : after (exec .unpack { idle with count := 17, wlen := 1 })
    (fun t => (t.status.toWord, t.einfo)) = some (0x00000024#32, 2#32) := by decide
theorem test_packm_rows : after (exec .packm packmReady) (fun t => t.wbuf) =
    some [(0, 0x09#32), (1, 0x01#32), (2, 0x02#32), (3, 0x01#32)] := by decide
theorem test_v41_runmv_mismatch : after (exec .runmv { idle with rows := 2, cols := 20, wlen := 4, xlen := 19 })
    (fun t => (t.status.toWord, t.einfo)) = some (0x00000024#32, 3#32) := by decide
theorem test_v37_clrst : after (exec .clrst inError) (fun t => (t.status.toWord, t.einfo, t.irq)) =
    some (0#32, 0#32, false) := by decide
theorem test_v35_illegal : after (runCommand 0x00000011#32 idle) (fun t => (t.status.toWord, t.einfo)) =
    some (0x000000F4#32, 0x00000011#32) := by decide
theorem test_v44_write_status : after (runInput (.wrcr 6 0xFFFFFFFF#32) idle) (fun t => decide (t = idle)) = some true := by decide
theorem test_v33_read_width : after (runInput (.rdcr 2) State.reset) (fun t => t.readData) =
    some (some (.w32 0x00000020#32)) := by decide

/-! ### Lane micro-steps (95_test_vectors P3, row 0) -/

/-- One lane of workgroup 0 in a dispatch of `runReady`. -/
def midRun (pos0 pos1 : Pos) (arrived : List Nat) : State :=
  { runReady with
    status := { busy := true, done := false, err := false, ecode := 0 }
    engine := some
      { rows := 1, cols := 4, width := 8
        groups :=
          [{ lanes := [{ pos := pos0, acc := some 0x40000000#32 }, { pos := pos1, acc := some 0x00000000#32 }]
             shmX := [(0, 0x40000000#32), (1, 0x40400000#32)], shmR := [(0, 0x40C00000#32), (1, 0x00000000#32)]
             arrived := arrived, gen := 0 }] } }

/-- The position of lane `l` of workgroup 0. -/
def posOf (l : Nat) (s : State) : Option Pos :=
  match s.engine with
  | some e => ((e.groups[0]?).bind fun wg => wg.lanes[l]?).map Lane.pos
  | none => none

/-- Slot 1 of `0x49` is 10: 2 - 3 = -1 (V28). -/
theorem test_acc_step : after (laneMove 0 0 (midRun (.acc 0 0 1) (.barAcc 0) [1])) (fun t =>
    (posOf 0 t, (t.engine.bind fun e => (e.groups[0]?).bind fun wg => (wg.lanes[0]?).bind Lane.acc))) =
    some (some (.acc 0 0 2), some 0xBF800000#32) := by decide

/-- A lane that has loaded its last element waits at the barrier (43_parallel_kernel R175). -/
theorem test_load_last : after (laneMove 0 1 (midRun (.load 0 6) (.load 0 7) [])) (fun t =>
    (posOf 1 t, t.engine.map fun e => e.groups.map fun wg => (wg.arrived, Memory.read wg.shmX 7))) =
    some (some (.barLoad 0), some [([1], some 0x00000000#32)]) := by decide

/-- A packed word that the host did not store: no zero in its place (10_state R39). -/
theorem test_missing_word : faultOf (laneMove 0 0 { midRun (.acc 0 0 1) (.barAcc 0) [1] with wbuf := [] }) =
    some (.noValue (.buffer .wbuf) 0) := by decide

theorem test_missing_input : faultOf (laneMove 0 0 { midRun (.load 0 3) (.load 0 4) [] with xbuf := [] }) =
    some (.noValue (.buffer .xbuf) 3) := by decide

theorem test_red_step : after (laneMove 0 0 (midRun (.red 1) (.red 1) [])) (posOf 0) = some (some (.barRed 1)) := by decide
theorem test_write_step : after (laneMove 0 0 (midRun .write .exit [])) (fun t => t.ybuf) =
    some [(0, 0x40C00000#32)] := by decide

/-- After the load barrier lane 1 has no word of the row and goes straight to the next barrier (43_parallel_kernel R176). -/
theorem test_release : (posOf 0 (releaseMove 0 (midRun (.barLoad 0) (.barLoad 0) [0, 1])),
    posOf 1 (releaseMove 0 (midRun (.barLoad 0) (.barLoad 0) [0, 1]))) = (some (.acc 0 0 0), some (.barAcc 0)) := by decide

/-! ### Witnesses: states and operands that meet the hypotheses of each statement, named after it

A dispatch in progress is `midRun` or `launched`; a statement about every state or every word without hypotheses needs none. -/

/-- The block right after RUNMV has been accepted in `runReady`. -/
def launched : State := launch runReady

/-- The dispatch of `runReady` (95_test_vectors S1) with every lane at EXIT. -/
def finishedRun : State :=
  { runReady with
    status := { busy := true, done := false, err := false, ecode := 0 }
    ybuf := [(0, 0x40C00000#32)]
    engine := some
      { rows := 1, cols := 4, width := 8
        groups :=
          [{ lanes := [{ pos := .exit, acc := some 0x40C00000#32 }, { pos := .exit, acc := some 0x00000000#32 }]
             shmX := [(0, 0x40000000#32), (1, 0x40400000#32)], shmR := [(0, 0x40C00000#32), (1, 0x00000000#32)]
             arrived := [], gen := 4 }] } }

/-- `TBUF[0 .. n)` holds raw ternary values. -/
def ternaryBelow (m : Memory 8) (n : Nat) : Bool :=
  (List.range n).all fun i =>
    match Memory.read m i with
    | some b => b == 0xFF#8 || b == 0x00#8 || b == 0x01#8
    | none => false

theorem ternary_of_check {m : Memory 8} {n : Nat} (h : ternaryBelow m n = true) :
    ∀ i, i < n → ∃ b, Memory.read m i = some b ∧ rawOk b := by
  intro i hi
  have h1 := (List.all_eq_true.1 h) i (List.mem_range.2 hi)
  split at h1
  · next b hb => exact ⟨b, hb, by simpa [rawOk, or_assoc] using h1⟩
  · cases h1

/-- A dispatch of `runReady` whose lanes hold no accumulator, with the given shared memories. -/
def bareRun (p : Pos) (shmX shmR : Memory 32) : State :=
  { runReady with
    status := { busy := true, done := false, err := false, ecode := 0 }
    engine := some
      { rows := 1, cols := 4, width := 8
        groups := [{ lanes := [{ pos := p, acc := none }, { pos := p, acc := none }], shmX := shmX, shmR := shmR
                     arrived := [], gen := 0 }] } }

/-- Statements about a not busy block without an error: the dimension checks, the codec commands, RUNMV. -/
theorem witness_no_error : idle.status.busy = false ∧ idle.status.err = false := by decide

theorem witness_DecodeAcceptsExactlySixWords :
    decode 0x00000005#32 = .ok .clrst ∧ 6 ≤ (0x00000006#32).toNat % 16 ∧ (0x00000010#32).toNat / 16 ≠ 0 := by decide

theorem witness_StepRunsDecodedCommand :
    let s := { idle with inbox := [.command 0x00000001#32, .wait] }
    s.inbox = .command 0x00000001#32 :: [.wait] ∧ nextMove s = some .input ∧ decode 0x00000001#32 = .ok .pack ∧
      s.status.busy = false := by decide

theorem witness_StepRunsDecodedCommand_busy :
    let s := { launched with inbox := [.command 0x00000001#32] }
    nextMove s = some .input ∧ s.status.busy = true := by decide

theorem witness_CommandAcceptance :
    (midRun .write .exit []).status.busy = true ∧ idle.status.busy = false ∧ idle.status.err = false ∧
    inError.status.busy = false ∧ inError.status.err = true ∧
    6 ≤ (0x00000006#32).toNat % 16 ∧ (0x80000000#32).toNat / 16 ≠ 0 ∧ 0x00000004#32 = encode .runmv := by decide

theorem witness_ClrstClearsStatus : inError.status.busy = false ∧ (midRun .write .exit []).status.busy = true := by decide

/-- Check 1, below and above the legal widths. -/
theorem witness_DimensionChecks_width :
    ¬(2 ≤ ({ idle with width := 1 } : State).width.toNat) ∧ ¬(({ idle with width := 33 } : State).width.toNat ≤ 32) ∧
    2 ≤ ({ idle with width := 2 } : State).width.toNat ∧ idle.width.toNat ≤ 32 := by decide

/-- PACK, checks 2 and 4: nine values for eight elements; five words for four. -/
theorem witness_DimensionChecks_pack :
    (let s := { idle with count := 9 }; s.cfg.tcap < s.count.toNat) ∧
    (let s := { idle with width := 2, count := 5 }
     s.count.toNat ≤ s.cfg.tcap ∧ s.cfg.wcap < divCeil s.count.toNat (s.width.toNat / 2)) := by decide

/-- UNPACK, checks 2 (both ways) and 4. -/
theorem witness_DimensionChecks_unpack :
    (let s := { idle with count := 17, wlen := 1 }; s.wlen.toNat < divCeil s.count.toNat (s.width.toNat / 2)) ∧
    (let s := { idle with wlen := 5 }; s.cfg.wcap < s.wlen.toNat) ∧
    (let s := { idle with count := 9, wlen := 1 }
     divCeil s.count.toNat (s.width.toNat / 2) ≤ s.wlen.toNat ∧ s.wlen.toNat ≤ s.cfg.wcap ∧ s.cfg.tcap < s.count.toNat) := by
  decide

/-- PACKM, checks 2 and 4. -/
theorem witness_DimensionChecks_packm :
    (let s := { idle with rows := 3, cols := 3 }; s.cfg.tcap < s.rows.toNat * s.cols.toNat) ∧
    (let s := { idle with rows := 5, cols := 1 }
     s.rows.toNat * s.cols.toNat ≤ s.cfg.tcap ∧
       s.cfg.wcap < s.rows.toNat * divCeil s.cols.toNat (s.width.toNat / 2)) := by decide

/-- RUNMV, checks 2, 3 and 4, the first two both ways. -/
theorem witness_DimensionChecks_runmv :
    (let s := { idle with rows := 1, cols := 4 }
     s.wlen.toNat ≠ s.rows.toNat * divCeil s.cols.toNat (s.width.toNat / 2)) ∧
    (let s := { idle with rows := 5, cols := 1, wlen := 5 }; s.cfg.wcap < s.wlen.toNat) ∧
    (let s := { idle with rows := 1, cols := 4, wlen := 1, xlen := 3 }
     s.wlen.toNat = s.rows.toNat * divCeil s.cols.toNat (s.width.toNat / 2) ∧ s.wlen.toNat ≤ s.cfg.wcap ∧
       s.xlen.toNat ≠ s.cols.toNat) ∧
    (let s := { idle with rows := 1, cols := 5, wlen := 1, xlen := 5 }
     s.wlen.toNat = s.rows.toNat * divCeil s.cols.toNat (s.width.toNat / 2) ∧ s.wlen.toNat ≤ s.cfg.wcap ∧
       s.cfg.xcap < s.xlen.toNat) ∧
    (let s := { idle with rows := 3, cols := 1, wlen := 3, xlen := 1 }
     s.wlen.toNat = s.rows.toNat * divCeil s.cols.toNat (s.width.toNat / 2) ∧ s.wlen.toNat ≤ s.cfg.wcap ∧
       s.xlen.toNat = s.cols.toNat ∧ s.xlen.toNat ≤ s.cfg.xcap ∧ s.cfg.ycap < s.rows.toNat) := by decide

theorem witness_PackStoresTheWords :
    packReady.status.busy = false ∧ packReady.status.err = false ∧ 2 ≤ packReady.width.toNat ∧ packReady.width.toNat ≤ 32 ∧
    packReady.count.toNat ≤ packReady.cfg.tcap ∧
    divCeil packReady.count.toNat (packReady.width.toNat / 2) ≤ packReady.cfg.wcap ∧
    ∀ i, i < packReady.count.toNat → ∃ b, Memory.read packReady.tbuf i = some b ∧ rawOk b :=
  ⟨by decide, by decide, by decide, by decide, by decide, by decide, ternary_of_check (by decide)⟩

theorem witness_UnpackStoresTheValues :
    unpackReady.status.busy = false ∧ unpackReady.status.err = false ∧ 2 ≤ unpackReady.width.toNat ∧
    unpackReady.width.toNat ≤ 32 ∧
    divCeil unpackReady.count.toNat (unpackReady.width.toNat / 2) ≤ unpackReady.wlen.toNat ∧
    unpackReady.wlen.toNat ≤ unpackReady.cfg.wcap ∧ unpackReady.count.toNat ≤ unpackReady.cfg.tcap ∧
    ∀ j, j < divCeil unpackReady.count.toNat (unpackReady.width.toNat / 2) →
      ∃ w, Memory.read unpackReady.wbuf j = some w := by
  refine ⟨by decide, by decide, by decide, by decide, by decide, by decide, by decide, fun j hj => ?_⟩
  have h : ∀ j, j < 2 → (Memory.read unpackReady.wbuf j).isSome = true := by decide
  exact Option.isSome_iff_exists.1 (h j hj)

theorem witness_PackmStoresTheRows :
    packmReady.status.busy = false ∧ packmReady.status.err = false ∧ 2 ≤ packmReady.width.toNat ∧
    packmReady.width.toNat ≤ 32 ∧ packmReady.rows.toNat * packmReady.cols.toNat ≤ packmReady.cfg.tcap ∧
    packmReady.rows.toNat * divCeil packmReady.cols.toNat (packmReady.width.toNat / 2) ≤ packmReady.cfg.wcap ∧
    ∀ i, i < packmReady.rows.toNat * packmReady.cols.toNat → ∃ b, Memory.read packmReady.tbuf i = some b ∧ rawOk b :=
  ⟨by decide, by decide, by decide, by decide, by decide, by decide, ternary_of_check (by decide)⟩

/-- `badValue` as a 1 x 5 matrix meets the hypotheses of both clauses with `i = 2`, `b = 2`. -/
theorem witness_InvalidValueStoresNothing :
    let s := { badValue with rows := 1, cols := 5 }
    s.status.busy = false ∧ s.status.err = false ∧ 2 ≤ s.width.toNat ∧ s.width.toNat ≤ 32 ∧
    Memory.read s.tbuf 2 = some 2#8 ∧ ¬rawOk 2#8 ∧
    (∀ i', i' < 2 → ∃ b', Memory.read s.tbuf i' = some b' ∧ rawOk b') ∧
    2 < s.count.toNat ∧ s.count.toNat ≤ s.cfg.tcap ∧ divCeil s.count.toNat (s.width.toNat / 2) ≤ s.cfg.wcap ∧
    (∀ i', i' < s.count.toNat → (Memory.read s.tbuf i').isSome = true) ∧
    2 < s.rows.toNat * s.cols.toNat ∧ s.rows.toNat * s.cols.toNat ≤ s.cfg.tcap ∧
    s.rows.toNat * divCeil s.cols.toNat (s.width.toNat / 2) ≤ s.cfg.wcap ∧
    (∀ i', i' < s.rows.toNat * s.cols.toNat → (Memory.read s.tbuf i').isSome = true) := by
  refine ⟨by decide, by decide, by decide, by decide, by decide, by unfold rawOk; decide, ternary_of_check (by decide), ?_⟩
  decide

/-- The lowest element without a value: the last one that PACK and PACKM read; the second word that UNPACK reads. -/
theorem witness_MissingSourceElementFaults :
    (let s := { packReady with count := 6, rows := 2, cols := 3 }
     Memory.read s.tbuf 5 = none ∧ (∀ i', i' < 5 → (Memory.read s.tbuf i').isSome = true) ∧
     5 < s.count.toNat ∧ s.count.toNat ≤ s.cfg.tcap ∧ divCeil s.count.toNat (s.width.toNat / 2) ≤ s.cfg.wcap ∧
     5 < s.rows.toNat * s.cols.toNat ∧ s.rows.toNat * s.cols.toNat ≤ s.cfg.tcap ∧
     s.rows.toNat * divCeil s.cols.toNat (s.width.toNat / 2) ≤ s.cfg.wcap) ∧
    (let s := { unpackReady with wbuf := [(0, 0x49#32)] }
     Memory.read s.wbuf 1 = none ∧ (∀ i', i' < 1 → (Memory.read s.wbuf i').isSome = true) ∧
     1 < divCeil s.count.toNat (s.width.toNat / 2) ∧ divCeil s.count.toNat (s.width.toNat / 2) ≤ s.wlen.toNat ∧
     s.wlen.toNat ≤ s.cfg.wcap ∧ s.count.toNat ≤ s.cfg.tcap) := by decide

/-- With one row, and with none. -/
theorem witness_RunmvStartsTheDispatch :
    ∀ s ∈ [runReady, { idle with cols := 4, xlen := 4 }],
      s.status.busy = false ∧ s.status.err = false ∧ 2 ≤ s.width.toNat ∧ s.width.toNat ≤ 32 ∧
      s.wlen.toNat = s.rows.toNat * divCeil s.cols.toNat (s.width.toNat / 2) ∧ s.wlen.toNat ≤ s.cfg.wcap ∧
      s.xlen.toNat = s.cols.toNat ∧ s.xlen.toNat ≤ s.cfg.xcap ∧ s.rows.toNat ≤ s.cfg.ycap := by decide

theorem witness_FrameOfCodecCommands :
    (∃ t, exec .pack packReady = .next t) ∧ (∃ t, exec .unpack unpackReady = .next t) ∧
    ∃ t, exec .packm packmReady = .next t := ⟨⟨_, rfl⟩, ⟨_, rfl⟩, ⟨_, rfl⟩⟩

theorem witness_FrameOfStatusCommands :
    exec .nop idle = .next idle ∧ (∃ t, exec .clrst inError = .next t) ∧ ∃ t, exec .runmv runReady = .next t :=
  ⟨rfl, ⟨_, rfl⟩, ⟨_, rfl⟩⟩

theorem witness_WrcrWritesOneRegister :
    idle.status.busy = false ∧ (5#32).toNat ≤ 5 ∧ 6 ≤ (6#32).toNat ∧ launched.status.busy = true := by decide

theorem witness_RdcrReturnsTheRegister : 8 ≤ (8#32).toNat := by decide

/-- The last element of TBUF and the first beyond it, and the same of the other buffers. -/
theorem witness_StoreReplacesOneElement :
    idle.status.busy = false ∧ 7 < idle.cfg.tcap ∧ ¬8 < idle.cfg.tcap ∧ 3 < idle.cfg.wcap ∧ ¬4 < idle.cfg.wcap ∧
    3 < idle.cfg.xcap ∧ ¬4 < idle.cfg.xcap ∧ 1 < idle.cfg.ycap ∧ ¬2 < idle.cfg.ycap := by decide

/-- In and beyond the capacity, with and without a value, for each buffer. -/
theorem witness_LoadReturnsTheElement :
    let s := { runReady with tbuf := [(7, 1#8)], ybuf := [(1, 0#32)] }
    s.status.busy = false ∧ s.cfg.tcap ≤ 8 ∧ 7 < s.cfg.tcap ∧ Memory.read s.tbuf 7 = some 1#8 ∧
    Memory.read s.tbuf 0 = none ∧ s.cfg.ycap ≤ 2 ∧ 1 < s.cfg.ycap ∧ Memory.read s.ybuf 1 = some 0#32 ∧
    Memory.read s.ybuf 0 = none ∧ s.cfg.wcap ≤ 4 ∧ 0 < s.cfg.wcap ∧ Memory.read s.wbuf 0 = some 0x49#32 ∧
    Memory.read s.wbuf 3 = none ∧ s.cfg.xcap ≤ 4 ∧ 3 < s.cfg.xcap ∧ Memory.read s.xbuf 3 = some 0x40E00000#32 ∧
    Memory.read idle.xbuf 3 = none := by decide

/-- A move of each kind, the ones that the interface does not offer while BUSY first. -/
theorem witness_HostMoveWhileBusyFaults :
    launched.status.busy = true ∧
    ∀ inp ∈ [Input.wrcr 0 1, .stT 0 0, .stW 0 0, .stX 0 0, .stY 0 0, .ld .ybuf 0, .command 5, .rdcr 6, .wait, .reset],
      nextMove { launched with inbox := [inp] } = some .input := by decide

theorem witness_WaitPollsUntilIdle : launched.status.busy = true ∧ idle.status.busy = false := by decide

theorem witness_ErrorEntryWritesStatusOnly : 0 < runReady.rows.toNat ∧ ¬1 < runReady.rows.toNat := by decide

/-- DONE set and no error, as before the acceptance of the next operation command. -/
theorem witness_IrqFollowsStatus :
    (doneState [] [] idle).status.err = false ∧ (doneState [] [] idle).irq = true := by decide

theorem witness_EncDecTables : (2 : Int) ≠ 0 ∧ (2 : Int) ≠ 1 ∧ (2 : Int) ≠ -1 := by decide

/-- V14 cut short: the lowest offending index is 4; and a sequence that packs. -/
theorem witness_PackFailsOnLowestInvalid :
    2 ≤ 8 ∧ 8 ≤ 32 ∧ ([1, 1, 1, 1, 5, 7] : List Int)[4]? = some 5 ∧ isTernary 5 = false ∧
    (∀ x ∈ [1, 1, 1, 1], isTernary x = true) ∧ ∀ x ∈ [1, -1, 0, 1, -1], isTernary x = true := by decide

theorem witness_UnpackOfPackIsIdentity :
    2 ≤ 2 ∧ 32 ≤ 32 ∧ ∀ x ∈ [1, -1, 0, 1, -1], x = (-1 : Int) ∨ x = 0 ∨ x = 1 := by decide

/-- A sequence that packs: S1 of 95_test_vectors. -/
theorem witness_packs : ∃ ws, pack 8 [1, -1, 0, 1] = .ok ws := by
  unfold pack
  rw [show firstInvalid [1, -1, 0, 1] = none by decide]
  exact ⟨_, rfl⟩

/-- A canonical word and one that is not, both below `2 ^ 8`. -/
theorem witness_PackOfUnpackOnCanonicalWords :
    (0x49#32).toNat < 2 ^ 8 ∧ (0xFF#32).toNat < 2 ^ 8 ∧ canonicalWord 8 0x49#32 = true ∧ canonicalWord 8 0xFF#32 = false ∧
    ∃ ws, pack 8 [1, -1, 0, 1] = .ok ws := ⟨by decide, by decide, by decide, by decide, witness_packs⟩

theorem witness_ReservedCodeCountsAsZero : 2 ≤ 8 ∧ 8 ≤ 32 ∧ 3 < 8 / 2 ∧ 0x49#32 ∈ [0x49#32] ∧
    ∃ ws, pack 8 [1, -1, 0, 1] = .ok ws := ⟨by decide, by decide, by decide, by decide, witness_packs⟩

theorem witness_EngineDecodeAgreesWithUnpack : 2 ≤ 7 ∧ 7 ≤ 32 ∧ 2 < 7 / 2 := by decide

theorem witness_StreamBytesRoundTrip : 4 ≤ 4 ∧ (0x12345678#32).toNat < 2 ^ (8 * 4) ∧ 3 < 4 := by decide

theorem witness_AddingPosZeroChangesNothing : isNaN 0x40000000#32 = false ∧ 0x40000000#32 ≠ f32NegZero := by decide

theorem witness_DefaultAddSpecialValues :
    isNaN 0x7FC00000#32 = true ∧ isNaN 0x40000000#32 = false ∧ 0x40000000#32 ≠ 0x7F800000#32 ^^^ 0x80000000#32 ∧
    fadd .ieee 0x7FC00000#32 f32NegZero f32NegZero = f32NegZero := by decide

theorem witness_OneByOneReference : 2 ≤ 2 ∧ 32 ≤ 32 ∧ isNaN f32NegZero = false := by decide

/-- The workgroup of a state made by `midRun`. -/
def group (s : State) : Option Workgroup := s.engine.bind fun e => e.groups[0]?

theorem witness_InitMicrostep : ∃ e wg ln,
    launched.engine = some e ∧ e.groups[0]? = some wg ∧ wg.lanes[1]? = some ln ∧ ln.pos = .init :=
  ⟨_, _, _, rfl, rfl, rfl, rfl⟩

/-- Tile slot 3: the last input element. -/
theorem witness_LoadMicrostep_inside : let s := midRun (.load 0 3) (.load 0 4) []
    ∃ e wg ln, s.engine = some e ∧ e.groups[0]? = some wg ∧ wg.lanes[0]? = some ln ∧ ln.pos = .load 0 3 ∧
      0 * (shapeOf s.cfg e).tile + 3 < e.cols ∧
      Memory.read s.xbuf (0 * (shapeOf s.cfg e).tile + 3) = some 0x40E00000#32 :=
  ⟨_, _, _, rfl, rfl, rfl, rfl, by decide, by decide⟩

/-- Tile slot 4: the first beyond the vector. -/
theorem witness_LoadMicrostep_beyond : let s := midRun (.load 0 3) (.load 0 4) []
    ∃ e wg ln, s.engine = some e ∧ e.groups[0]? = some wg ∧ wg.lanes[1]? = some ln ∧ ln.pos = .load 0 4 ∧
      ¬0 * (shapeOf s.cfg e).tile + 4 < e.cols :=
  ⟨_, _, _, rfl, rfl, rfl, rfl, by decide⟩

theorem witness_LoadMicrostep_missing : let s := { midRun (.load 0 3) (.load 0 4) [] with xbuf := [] }
    ∃ e wg ln, s.engine = some e ∧ e.groups[0]? = some wg ∧ wg.lanes[0]? = some ln ∧ ln.pos = .load 0 3 ∧
      0 * (shapeOf s.cfg e).tile + 3 < e.cols ∧ Memory.read s.xbuf (0 * (shapeOf s.cfg e).tile + 3) = none :=
  ⟨_, _, _, rfl, rfl, rfl, rfl, by decide, rfl⟩

/-- Without the word; without the tile element; without the accumulator. -/
theorem witness_AccMicrostep_missing :
    (let s := { bareRun (.acc 0 0 1) [] [] with wbuf := [] }
     ∃ e wg ln, s.engine = some e ∧ e.groups[0]? = some wg ∧ wg.lanes[0]? = some ln ∧ ln.pos = .acc 0 0 1 ∧
      Memory.read s.wbuf (0 * (shapeOf s.cfg e).rowWords + (0 * (shapeOf s.cfg e).tileWords + 0)) = none) ∧
    (let s := bareRun (.acc 0 0 1) [] []
     ∃ e wg ln, s.engine = some e ∧ e.groups[0]? = some wg ∧ wg.lanes[0]? = some ln ∧ ln.pos = .acc 0 0 1 ∧
      Memory.read s.wbuf (0 * (shapeOf s.cfg e).rowWords + (0 * (shapeOf s.cfg e).tileWords + 0)) = some 0x49#32 ∧
      Memory.read wg.shmX (0 * (shapeOf s.cfg e).codes + 1) = none) ∧
    (let s := bareRun (.acc 0 0 1) [(1, 0x40400000#32)] []
     ∃ e wg ln, s.engine = some e ∧ e.groups[0]? = some wg ∧ wg.lanes[0]? = some ln ∧ ln.pos = .acc 0 0 1 ∧
      Memory.read s.wbuf (0 * (shapeOf s.cfg e).rowWords + (0 * (shapeOf s.cfg e).tileWords + 0)) = some 0x49#32 ∧
      Memory.read wg.shmX (0 * (shapeOf s.cfg e).codes + 1) = some 0x40400000#32 ∧ ln.acc = none) :=
  ⟨⟨_, _, _, rfl, rfl, rfl, rfl, rfl⟩, ⟨_, _, _, rfl, rfl, rfl, rfl, by decide, rfl⟩,
    ⟨_, _, _, rfl, rfl, rfl, rfl, by decide, by decide, rfl⟩⟩

/-- PUBLISH without an accumulator; RED without its first, and without its second element; WRITE without element 0. -/
theorem witness_PublishReduceWrite_missing :
    (∃ e wg ln, (bareRun .publish [] []).engine = some e ∧ e.groups[0]? = some wg ∧ wg.lanes[0]? = some ln ∧
      ln.pos = .publish ∧ ln.acc = none) ∧
    (∃ e wg ln, (bareRun (.red 1) [] []).engine = some e ∧ e.groups[0]? = some wg ∧ wg.lanes[0]? = some ln ∧
      ln.pos = .red 1 ∧ 0 < 1 ∧ Memory.read wg.shmR 0 = none) ∧
    (∃ e wg ln, (bareRun (.red 1) [] [(0, 0#32)]).engine = some e ∧ e.groups[0]? = some wg ∧ wg.lanes[0]? = some ln ∧
      ln.pos = .red 1 ∧ 0 < 1 ∧ Memory.read wg.shmR 0 = some 0#32 ∧ Memory.read wg.shmR (0 + 1) = none) ∧
    ∃ e wg ln, (bareRun .write [] []).engine = some e ∧ e.groups[0]? = some wg ∧ wg.lanes[0]? = some ln ∧
      ln.pos = .write ∧ Memory.read wg.shmR 0 = none :=
  ⟨⟨_, _, _, rfl, rfl, rfl, rfl, rfl⟩, ⟨_, _, _, rfl, rfl, rfl, rfl, by decide, rfl⟩,
    ⟨_, _, _, rfl, rfl, rfl, rfl, by decide, rfl, rfl⟩, ⟨_, _, _, rfl, rfl, rfl, rfl, rfl⟩⟩

/-- Slot 1 of word 0. -/
theorem witness_AccMicrostep : let s := midRun (.acc 0 0 1) (.barAcc 0) [1]
    ∃ e wg ln, s.engine = some e ∧ e.groups[0]? = some wg ∧ wg.lanes[0]? = some ln ∧ ln.pos = .acc 0 0 1 ∧
      Memory.read s.wbuf (0 * (shapeOf s.cfg e).rowWords + (0 * (shapeOf s.cfg e).tileWords + 0)) = some 0x49#32 ∧
      Memory.read wg.shmX (0 * (shapeOf s.cfg e).codes + 1) = some 0x40400000#32 ∧ ln.acc = some 0x40000000#32 :=
  ⟨_, _, _, rfl, rfl, rfl, rfl, by decide, by decide, rfl⟩

theorem witness_PublishMicrostep : let s := midRun .publish .publish []
    ∃ e wg ln, s.engine = some e ∧ e.groups[0]? = some wg ∧ wg.lanes[0]? = some ln ∧ ln.pos = .publish ∧
      ln.acc = some 0x40000000#32 := ⟨_, _, _, rfl, rfl, rfl, rfl, rfl⟩

/-- At stride 1 lane 0 is below the stride and lane 1 is not. -/
theorem witness_ReduceMicrosteps : let s := midRun (.red 1) (.red 1) []
    ∃ e wg ln ln', s.engine = some e ∧ e.groups[0]? = some wg ∧ wg.lanes[0]? = some ln ∧ ln.pos = .red 1 ∧ 0 < 1 ∧
      Memory.read wg.shmR 0 = some 0x40C00000#32 ∧ Memory.read wg.shmR (0 + 1) = some 0x00000000#32 ∧
      wg.lanes[1]? = some ln' ∧ ln'.pos = .red 1 ∧ 1 ≤ 1 :=
  ⟨_, _, _, _, rfl, rfl, rfl, rfl, by decide, by decide, by decide, rfl, rfl, by decide⟩

theorem witness_WriteMicrostep : let s := midRun .write .exit []
    ∃ e wg ln, s.engine = some e ∧ e.groups[0]? = some wg ∧ wg.lanes[0]? = some ln ∧ ln.pos = .write ∧
      Memory.read wg.shmR 0 = some 0x40C00000#32 := ⟨_, _, _, rfl, rfl, rfl, rfl, by decide⟩

/-- At every barrier position, and at none. -/
theorem witness_BarrierReleaseAdvancesAllLanes :
    ∀ p ∈ [Pos.barLoad 0, .barAcc 0, .barPub, .barRed 1, .exit], let s := midRun p p [0, 1]
      ∃ e wg, s.engine = some e ∧ e.groups[0]? = some wg ∧ (wg.lanes.map Lane.pos) = [p, p] ∧
        ∀ l, l < 2 ^ s.cfg.laneLog → l ∈ wg.arrived :=
  fun _ _ => ⟨_, _, rfl, rfl, rfl, by show ∀ l, l < 2 ^ 1 → l ∈ [0, 1]; decide⟩

theorem witness_CompletionStep : ∃ e, finishedRun.engine = some e ∧ ∀ wg ∈ e.groups, ∀ ln ∈ wg.lanes, ln.pos = .exit :=
  ⟨_, rfl, by decide⟩

/-- Two dispatches that differ in an input element and an accumulator; the same lane moves in both. -/
theorem witness_ControlDoesNotDependOnData :
    let s := midRun (.acc 0 0 1) (.barAcc 0) [1]
    let s' := { midRun (.acc 0 0 1) (.barAcc 0) [1] with wbuf := [(0, 0xFF#32)], xbuf := [] }
    Move.lane 0 0 ≠ .input ∧ s.cfg = s'.cfg ∧ s.controlState = s'.controlState ∧
    (∃ t, performMove (.lane 0 0) s = .next t) ∧ ∃ t', performMove (.lane 0 0) s' = .next t' :=
  ⟨by decide, rfl, rfl, ⟨_, rfl⟩, ⟨_, rfl⟩⟩

theorem witness_WorkgroupMovesAreLocal :
    (∃ t, performMove (.release 0) (midRun (.barLoad 0) (.barLoad 0) [0, 1]) = .next t) ∧
    ∃ t, performMove (.lane 0 0) (midRun .write .exit []) = .next t := ⟨⟨_, rfl⟩, ⟨_, rfl⟩⟩

/-- One state for each alternative of the conclusion. -/
theorem witness_OnlyWrcrAndResetChangeHostRegisters :
    (∃ t, step { idle with inbox := [.wait] } = .next t) ∧ (∃ t, step { idle with inbox := [.reset] } = .next t) ∧
    ∃ t, step { idle with inbox := [.wrcr 5 7] } = .next t := ⟨⟨_, rfl⟩, ⟨_, rfl⟩, ⟨_, rfl⟩⟩

theorem witness_ErrorIsStickyUntilClrstOrReset :
    ∀ inp ∈ [Input.command 0x00000001#32, .command 0x00000005#32, .reset],
      StatusInv { inError with inbox := [inp] } ∧ (∃ t, step { inError with inbox := [inp] } = .next t) ∧
      ({ inError with inbox := [inp] } : State).status.err = true := by
  intro inp h
  simp only [List.mem_cons, List.not_mem_nil, or_false] at h
  rcases h with rfl | rfl | rfl <;>
    exact ⟨⟨by decide, by decide, by decide, by decide, by decide, by decide, by decide⟩, ⟨_, rfl⟩, rfl⟩

/-- A block that waits for a RUNMV meets the control invariant. -/
theorem witness_control_ready : ControlInv { runReady with inbox := [.command (encode .runmv)] } :=
  ⟨⟨by decide, by decide, by decide, by decide, by decide, by decide, by decide⟩,
    ⟨by decide, by decide, by decide, by decide⟩, by intro e he; cases he⟩

/-- A dispatch just launched meets the value invariant. -/
theorem witness_value_launched : ValueInv launched := by
  have hg : ∀ {g : Nat} {wg : Workgroup}, (newRun runReady).groups[g]? = some wg → wg = newGroup smallCfg := by
    intro g wg h
    simp only [newRun, List.getElem?_replicate] at h
    split at h <;> cases h
    rfl
  refine ⟨⟨⟨by decide, by decide, by decide, by decide, by decide, by decide, by decide⟩,
    ⟨by decide, by decide, by decide, by decide⟩, ?_⟩, ?_⟩
  · rintro e ⟨⟩
    exact ⟨by decide, by decide, by decide, by decide, by decide, fun g wg h => hg h ▸ newGroup_control smallCfg _⟩
  · rintro e ⟨⟩ g wg h
    cases hg h
    refine ⟨fun l ln hl => ?_, fun ln hl hx => ?_⟩
    · rw [newGroup_lane hl]; exact ⟨fun a h => (by cases h), trivial, fun m h => (by cases h)⟩
    · rw [newGroup_lane hl] at hx; cases hx

/-- The finished dispatch of 95_test_vectors S1 meets the value invariant. -/
theorem witness_value_finished : ValueInv finishedRun := by
  have hg : ∀ {g : Nat} {wg : Workgroup}, (finishedRun.engine.bind fun e => e.groups[g]?) = some wg →
      g = 0 ∧ some wg = group finishedRun := by
    intro g wg h
    match g, h with
    | 0, h => exact ⟨rfl, h.symm⟩
    | g + 1, h => cases h
  refine ⟨⟨⟨by decide, by decide, by decide, by decide, by decide, by decide, by decide⟩,
    ⟨by decide, by decide, by decide, by decide⟩, ?_⟩, ?_⟩
  · rintro e ⟨⟩
    refine ⟨by decide, by decide, by decide, by decide, by decide, fun g wg h => ?_⟩
    obtain ⟨rfl, ⟨⟩⟩ := hg h
    refine ⟨by decide, by decide, by decide, by decide, fun l ln hl => ?_⟩
    match l, hl with
    | 0, hl => cases hl; exact ⟨by decide, by decide, by decide⟩
    | 1, hl => cases hl; exact ⟨by decide, by decide, by decide⟩
    | l + 2, hl => cases hl
  · rintro e ⟨⟩ g wg h
    obtain ⟨rfl, ⟨⟩⟩ := hg h
    refine ⟨fun l ln hl => ?_, fun ln hl _ => ⟨_, rfl, .inl (by decide)⟩⟩
    match l, hl with
    | 0, hl =>
      cases hl
      exact ⟨by rintro a ⟨⟩; exact .inl (by decide), trivial, by rintro m ⟨⟩; exact ⟨_, rfl, .inl (by decide)⟩⟩
    | 1, hl =>
      cases hl
      exact ⟨by rintro a ⟨⟩; exact .inl (by decide), trivial, by rintro m ⟨⟩; exact ⟨_, rfl, .inl (by decide)⟩⟩
    | l + 2, hl => cases hl

/-- The dispatch just launched with no input waiting: the first enabled move is lane 0 of workgroup 0. -/
theorem witness_EveryStepKeepsInv :
    ValueInv launched ∧ nextMove launched = some (.lane 0 0) ∧ (∃ t, step launched = .next t) ∧
    ControlInv { runReady with inbox := [.command (encode .runmv)] } :=
  ⟨witness_value_launched, by decide, ⟨_, rfl⟩, witness_control_ready⟩

theorem witness_FinishedDispatchHoldsClosedForm : ∃ e,
    ValueInv finishedRun ∧ finishedRun.engine = some e ∧ e.finished = true ∧ 0 < e.rows :=
  ⟨_, witness_value_finished, rfl, by decide, by decide⟩

theorem witness_DispatchNeverDeadlocks : ∃ e, ControlInv finishedRun ∧ finishedRun.engine = some e :=
  ⟨_, witness_value_finished.control, rfl⟩

/-- A lane's move, the completion, and an input taken while BUSY. -/
theorem witness_EveryEngineMoveLowersTheWork :
    ControlInv launched ∧ launched.engine.isSome = true ∧ Move.lane 0 1 ∈ enabledMoves launched ∧
    (∃ t, performMove (.lane 0 1) launched = .next t) ∧ Move.complete ∈ enabledMoves finishedRun ∧
    (∃ t, performMove .complete finishedRun = .next t) ∧
    ∃ t, performMove .input { launched with inbox := [.wait] } = .next t :=
  ⟨witness_value_launched.control, by decide, by decide, ⟨_, rfl⟩, by decide, ⟨_, rfl⟩, ⟨_, rfl⟩⟩

theorem witness_EngineMovesNeverFault : ∃ e,
    ValueInv launched ∧ launched.engine = some e ∧
    Memory.filled launched.wbuf 0 (e.rows * (shapeOf launched.cfg e).rowWords) = true ∧
    Memory.filled launched.xbuf 0 e.cols = true ∧ Move.lane 0 0 ∈ enabledMoves launched ∧ Move.lane 0 0 ≠ .input :=
  ⟨_, witness_value_launched, rfl, by decide, by decide, by decide, by decide⟩

theorem witness_LaunchedDispatchComputesClosedForm :
    let s := { runReady with inbox := [.command (encode .runmv)] }
    ControlInv s ∧ LaunchReady s ∧ s.inbox = [.command (encode .runmv)] :=
  ⟨witness_control_ready, ⟨by decide, by decide, by decide, by decide, by decide, by decide⟩, rfl⟩

theorem witness_OneLaneComputesTheReference :
    let sh : Shape := { rows := 1, cols := 6, width := 8, laneLog := 0, tileWords := 2 }
    2 ≤ sh.width ∧ sh.width ≤ 32 ∧ sh.laneLog = 0 ∧ 0 < sh.tileWords := by decide

/-- A row of six weights at width 8, and the same with the padding slots 6 and 7 of word 1 set. -/
theorem witness_PaddingSlotsDoNotMatter :
    let sh : Shape := { rows := 1, cols := 6, width := 8, laneLog := 1, tileWords := 1 }
    let row := fun j : Nat => if j = 0 then 0x49#32 else 0x06#32
    let row' := fun j : Nat => if j = 0 then 0x49#32 else 0xA6#32
    let x := fun c : Nat => if c < 6 then 0x40000000#32 else f32PosZero
    2 ≤ sh.width ∧ sh.width ≤ 32 ∧ 0 < sh.tileWords ∧ (∀ c, sh.cols ≤ c → x c = f32PosZero) ∧
    ∀ c, c < sh.cols →
      extractCode (row (c / sh.codes)) (c % sh.codes) = extractCode (row' (c / sh.codes)) (c % sh.codes) :=
  ⟨by decide, by decide, by decide, fun c h => if_neg (by simpa using h), by decide⟩

/-- Two finite patterns with sum 0, with a sum below the overflow bound, and with one at or above it; and a tie: the sum lies in
the middle between 1 and the float above it. -/
theorem witness_DefaultAddRoundsToNearestEven :
    (∀ x ∈ [0x3F800000#32, 0xBF800000#32, 0x33800000#32, 0x7F7FFFFF#32], isNaN x = false ∧ isInf x = false) ∧
    f32Units 0x3F800000#32 + f32Units 0xBF800000#32 = 0 ∧
    (f32Units 0x3F800000#32 + f32Units 0x33800000#32).natAbs < (2 ^ 25 - 1) * 2 ^ 252 ∧
    (2 ^ 25 - 1) * 2 ^ 252 ≤ (f32Units 0x7F7FFFFF#32 + f32Units 0x7F7FFFFF#32).natAbs ∧
    f32Units 0x3F800001#32 ≠ f32Units 0x3F800000#32 ∧
    (f32Units 0x3F800000#32 - (f32Units 0x3F800000#32 + f32Units 0x33800000#32)).natAbs =
      (f32Units 0x3F800001#32 - (f32Units 0x3F800000#32 + f32Units 0x33800000#32)).natAbs := by
  refine ⟨?_, by decide, by decide, by decide, by decide, by decide⟩
  intro x h
  simp only [List.mem_cons, List.not_mem_nil, or_false] at h
  rcases h with rfl | rfl | rfl | rfl <;> decide

end Sys2Proof.Tests
end

namespace Sys2Proof.Machine

/-! The default `fadd` (00_scope R8, 93 G2, G3, U3): its value on infinities and on finite patterns, said once, and the
statements of family 00_scope. -/

/-! ### Infinities -/

theorem isInf_iff (x : F32) : isInf x = true ↔ x = 0x7F800000#32 ∨ x = 0xFF800000#32 := by
  constructor
  · intro h
    obtain ⟨hexp, hfrac⟩ : f32Exp x = 255 ∧ f32Frac x = 0 := by simpa [isInf] using h
    obtain ⟨hx, -, -⟩ := f32_split x
    rw [hexp, hfrac] at hx
    split at hx
    · exact .inr (BitVec.eq_of_toNat_eq hx)
    · exact .inl (BitVec.eq_of_toNat_eq hx)
  · rintro (rfl | rfl) <;> decide

theorem isNaN_of_isInf {x : F32} (h : isInf x = true) : isNaN x = false := by
  rcases (isInf_iff x).1 h with rfl | rfl <;> decide

/-- An infinity absorbs an operand that is neither a NaN nor the opposite infinity. -/
theorem ieeeAdd_of_isInf {nan a b : F32} (ha : isInf a = true) (hb : isNaN b = false) (hne : b ≠ a ^^^ 0x80000000#32) :
    ieeeAdd nan a b = a ∧ ieeeAdd nan b a = a := by
  have hna := isNaN_of_isInf ha
  by_cases hbi : isInf b = true
  · have hba : b = a := by
      rcases (isInf_iff a).1 ha with rfl | rfl <;> rcases (isInf_iff b).1 hbi with rfl | rfl
      · rfl
      · exact absurd rfl hne
      · exact absurd rfl hne
      · rfl
    simp [ieeeAdd, hba, hna, ha]
  · simp [ieeeAdd, hna, hb, ha, hbi]

theorem ieeeAdd_opposite_infinities (nan : F32) {a : F32} (ha : isInf a = true) :
    ieeeAdd nan a (a ^^^ 0x80000000#32) = nan := by
  rcases (isInf_iff a).1 ha with rfl | rfl <;> rfl

/-- A sum with an infinity is the NaN or an infinity. -/
theorem ieeeAdd_eq_nan_or_isInf (nan : F32) {a b : F32} (h : isInf a = true ∨ isInf b = true) :
    ieeeAdd nan a b = nan ∨ isInf (ieeeAdd nan a b) = true := by
  unfold ieeeAdd
  split
  · exact .inl rfl
  · split
    · next ha =>
      split
      · exact .inl rfl
      · exact .inr ha
    · next ha =>
      have hb := h.resolve_left ha
      exact .inr (by rw [if_pos hb]; exact hb)

/-! ### Finite patterns -/

theorem round_lt (m : Nat) : roundMagnitude m < 2 ^ 31 := lt_of_le_of_lt (round_le m) (by norm_num)

/-- The value of a packed pattern. -/
theorem f32Units_f32Pack (neg : Bool) {p : Nat} (h : p < 2 ^ 31) :
    f32Units (f32Pack neg p) = if neg then -(patternMagnitude p : Int) else patternMagnitude p := by
  obtain ⟨hsign, hexp, hfrac⟩ := f32Pack_fields neg h
  rw [f32Units, hsign, f32Magnitude_eq, hexp, hfrac, Nat.mul_comm, Nat.div_add_mod]

/-- A sum of zero is +0.0 unless both operands are -0.0. -/
theorem ieeeAdd_of_units_zero {nan a b : F32} (ha : isNaN a = false ∧ isInf a = false)
    (hb : isNaN b = false ∧ isInf b = false) (hv : f32Units a + f32Units b = 0) :
    ieeeAdd nan a b = if a = f32NegZero ∧ b = f32NegZero then f32NegZero else f32PosZero := by
  have hsign : (f32Sign a && f32Sign b) = true ↔ a = f32NegZero ∧ b = f32NegZero := by
    constructor
    · intro h
      obtain ⟨hsa, hsb⟩ := Bool.and_eq_true_iff.1 h
      have hmag : f32Magnitude a = 0 ∧ f32Magnitude b = 0 := by
        simp only [f32Units, hsa, hsb, if_true] at hv
        omega
      exact ⟨(zero_of_mag a hmag.1).resolve_left (by rintro rfl; exact absurd hsa (by decide)),
        (zero_of_mag b hmag.2).resolve_left (by rintro rfl; exact absurd hsb (by decide))⟩
    · rintro ⟨rfl, rfl⟩; decide
  simp only [ieeeAdd, ha, hb, hv, Bool.or_self, Bool.false_eq_true, if_false, if_true, hsign]

/-- A sum other than zero is the pattern of its sign and its rounded magnitude. -/
theorem ieeeAdd_of_units_ne_zero {nan a b : F32} (ha : isNaN a = false ∧ isInf a = false)
    (hb : isNaN b = false ∧ isInf b = false) (hv : f32Units a + f32Units b ≠ 0) :
    ieeeAdd nan a b =
      f32Pack (decide (f32Units a + f32Units b < 0)) (roundMagnitude (f32Units a + f32Units b).natAbs) := by
  simp only [ieeeAdd, ha, hb, hv, Bool.or_self, Bool.false_eq_true, if_false]

theorem f32Pack_ne_negZero (neg : Bool) {p : Nat} (h0 : 0 < p) (h : p < 2 ^ 31) : f32Pack neg p ≠ f32NegZero := by
  intro heq
  obtain ⟨-, hexp, hfrac⟩ := f32Pack_fields neg h
  rw [heq] at hexp hfrac
  have hz : f32Exp f32NegZero = 0 ∧ f32Frac f32NegZero = 0 := by decide
  omega

theorem ieeeAdd_negZero (nan : F32) {a : F32} (ha : isNaN a = false) : ieeeAdd nan a f32NegZero = a := by
  by_cases hinf : isInf a = true
  · exact (ieeeAdd_of_isInf hinf (by decide) (by rcases (isInf_iff a).1 hinf with rfl | rfl <;> decide)).1
  · have hfin : isNaN a = false ∧ isInf a = false := ⟨ha, by simpa using hinf⟩
    have hunits : f32Units a + f32Units f32NegZero = f32Units a := by
      rw [show f32Units f32NegZero = 0 by decide, Int.add_zero]
    by_cases hmag : f32Magnitude a = 0
    · rw [ieeeAdd_of_units_zero hfin (by decide) (by rcases zero_of_mag a hmag with rfl | rfl <;> decide)]
      rcases zero_of_mag a hmag with rfl | rfl <;> decide
    · obtain ⟨hne, hpack⟩ := pack_units a (exp_lt a hfin.1 hfin.2) hmag
      rw [ieeeAdd_of_units_ne_zero hfin (by decide) (by rwa [hunits]), hunits, hpack]

theorem eq_negZero_of_ieeeAdd {nan a b : F32} (hn : isNaN nan = true) (h : ieeeAdd nan a b = f32NegZero) :
    a = f32NegZero ∧ b = f32NegZero := by
  have hnan : nan ≠ f32NegZero := by rintro rfl; exact absurd hn (by decide)
  by_cases hab : isNaN a = true ∨ isNaN b = true
  · rw [ieeeAdd_of_isNaN hab] at h
    exact absurd h hnan
  by_cases hinf : isInf a = true ∨ isInf b = true
  · rcases ieeeAdd_eq_nan_or_isInf nan hinf with h' | h'
    · exact absurd (h'.symm.trans h) hnan
    · rw [h] at h'; exact absurd h' (by decide)
  simp only [not_or, Bool.not_eq_true] at hab hinf
  obtain ⟨hna, hnb⟩ := hab
  obtain ⟨hia, hib⟩ := hinf
  by_cases hv : f32Units a + f32Units b = 0
  · rw [ieeeAdd_of_units_zero ⟨hna, hia⟩ ⟨hnb, hib⟩ hv] at h
    by_contra hne
    rw [if_neg hne] at h
    exact absurd h (by decide)
  · rw [ieeeAdd_of_units_ne_zero ⟨hna, hia⟩ ⟨hnb, hib⟩ hv] at h
    exact absurd h (f32Pack_ne_negZero _ (round_pos _ (Int.natAbs_ne_zero.2 hv)) (round_lt _))

/-! ### The float nearest to a magnitude -/

theorem patternMagnitude_mono {p q : Nat} (h : p ≤ q) : patternMagnitude p ≤ patternMagnitude q :=
  (strictMono_nat_of_lt_succ patternMagnitude_succ).monotone h

/-- Below the overflow bound no pattern's magnitude is nearer to `m` than that of its rounding, which is even if the magnitude
of another pattern is as near. -/
theorem roundMagnitude_nearest {m : Nat} (hm : m < (2 ^ 25 - 1) * 2 ^ 252) (q : Nat) :
    ((patternMagnitude (roundMagnitude m) : Int) - m).natAbs ≤ ((patternMagnitude q : Int) - m).natAbs ∧
      (((patternMagnitude (roundMagnitude m) : Int) - m).natAbs = ((patternMagnitude q : Int) - m).natAbs →
        patternMagnitude q ≠ patternMagnitude (roundMagnitude m) → roundMagnitude m % 2 = 0) := by
  obtain ⟨-, p, hlo, hhi, hround⟩ := roundMagnitude_cases hm
  have hq : patternMagnitude q ≤ patternMagnitude p ∨ patternMagnitude (p + 1) ≤ patternMagnitude q :=
    (Nat.lt_or_ge p q).symm.imp patternMagnitude_mono patternMagnitude_mono
  clear hm
  rcases hround with ⟨hr, hhalf⟩ | ⟨hr, hhalf⟩ <;> rw [hr] <;> omega

/-- The same for the packed pattern of a sum `v` (93 G2). A value of the other sign is at least as far from `v` as zero is, and
zero is a pattern's magnitude. -/
theorem f32Pack_roundMagnitude_nearest {v : Int} {r : F32} (hv : v.natAbs < (2 ^ 25 - 1) * 2 ^ 252)
    (hr : r = f32Pack (decide (v < 0)) (roundMagnitude v.natAbs)) (y : F32) :
    (f32Units r - v).natAbs ≤ (f32Units y - v).natAbs ∧
      ((f32Units r - v).natAbs = (f32Units y - v).natAbs → f32Units y ≠ f32Units r → r.getLsbD 0 = false) := by
  have hbit : r.getLsbD 0 = false ↔ roundMagnitude v.natAbs % 2 = 0 := by
    rw [hr, f32Pack_bit0 _ (round_lt _), decide_eq_false_iff_not]
    omega
  have hunits : f32Units r = if v < 0 then -(patternMagnitude (roundMagnitude v.natAbs) : Int)
      else patternMagnitude (roundMagnitude v.natAbs) := by
    rw [hr, f32Units_f32Pack _ (round_lt _)]
    simp only [decide_eq_true_eq]
  have hzero := roundMagnitude_nearest hv 0
  have hy := roundMagnitude_nearest hv (f32Exp y * 2 ^ 23 + f32Frac y)
  rw [patternMagnitude_small (p := 0) (by norm_num)] at hzero
  rw [← f32Magnitude_eq] at hy
  have hy_units := f32Units_cases y
  rw [hbit, hunits]
  clear hbit hunits hr hv
  split <;> omega

/-! ### The statements -/

/-- Settles O37: the cases of the default `fadd` one by one; a drawn NaN is a `quietNaN`. -/
theorem defaultAddSpecialValues : Obligations.DefaultAddSpecialValues := by
  unfold Obligations.DefaultAddSpecialValues
  refine ⟨fun nan a b hn => ⟨ieeeAdd_of_isNaN, ieeeAdd_opposite_infinities nan (by decide),
    ieeeAdd_opposite_infinities nan (by decide), fun ha hb hne => ieeeAdd_of_isInf ((isInf_iff a).2 ha) hb hne,
    ieeeAdd_negZero nan, eq_negZero_of_ieeeAdd hn⟩, fun n => ?_⟩
  have hquiet := isQuietNaN_drawnNaN n
  rwa [isQuietNaN, Bool.and_eq_true] at hquiet

/-- Settles O60: the sum is zero, or it is the packed rounding of `v`, which is nearest to `v` below the overflow bound. -/
theorem defaultAddRoundsToNearestEven : Obligations.DefaultAddRoundsToNearestEven := by
  unfold Obligations.DefaultAddRoundsToNearestEven
  intro nan a b finite ha hb v r overflow
  by_cases hv : v = 0
  · have hr : r = if a = f32NegZero ∧ b = f32NegZero then f32NegZero else f32PosZero := ieeeAdd_of_units_zero ha hb hv
    have hzero : isNaN r = false ∧ isInf r = false ∧ f32Units r = 0 := by rw [hr]; split <;> decide
    obtain ⟨hnan, hinf, hunits⟩ := hzero
    refine ⟨hnan, fun _ => hr, fun h => absurd hv h, fun h => ?_, fun _ => ⟨hinf, fun y _ => ?_⟩⟩
    · rw [hv] at h; exact absurd h (by decide)
    · rw [hv, hunits]; omega
  · have hr : r = f32Pack (decide (v < 0)) (roundMagnitude v.natAbs) := ieeeAdd_of_units_ne_zero ha hb hv
    obtain ⟨hsign, hexp, hfrac⟩ := f32Pack_fields (decide (v < 0)) (round_lt v.natAbs)
    rw [← hr] at hsign hexp hfrac
    refine ⟨?_, fun h => absurd h hv, fun _ => hsign, fun h => ?_, fun h => ⟨?_, fun y _ =>
      f32Pack_roundMagnitude_nearest h hr y⟩⟩
    · have hle := round_le v.natAbs
      simp only [isNaN, hexp, hfrac, Bool.and_eq_false_iff, decide_eq_false_iff_not]
      omega
    · rw [roundMagnitude_overflow h] at hr
      rw [hr]; cases decide (v < 0) <;> decide
    · have hlt := (roundMagnitude_cases h).1
      simp only [isInf, hexp, Bool.and_eq_false_iff, decide_eq_false_iff_not]
      omega

end Sys2Proof.Machine

namespace Sys2Proof.Machine

/-! The state and what every step keeps of it (10_state): what a command can leave, said once; the control registers and the
control invariant through every move; no read of a missing element by the engine; and the statements of family 10_state. -/

section

variable {s t : State}

/-! ### The control registers and the parameters (10_state R23, R37) -/

/-- The parameters and `CR[0 .. 5]`, in order: what only a WRCR and the reset event change. -/
def State.hostRegisters (s : State) : Params × List Word :=
  (s.cfg, [s.rows, s.cols, s.width, s.count, s.wlen, s.xlen])

theorem readCR_eq_hostRegisters (s : State) {k : Word} (hk : k.toNat ≤ 5) :
    readCR s k = s.hostRegisters.2.getD k.toNat 0 := by
  unfold readCR
  interval_cases k.toNat <;> rfl

theorem readCR_congr (h : t.hostRegisters = s.hostRegisters) {k : Word} (hk : k.toNat ≤ 5) : readCR t k = readCR s k := by
  rw [readCR_eq_hostRegisters t hk, readCR_eq_hostRegisters s hk, h]

theorem cfg_congr (h : t.hostRegisters = s.hostRegisters) : t.cfg = s.cfg := congrArg Prod.fst h

/-- A WRCR changes the register it names and no other. -/
theorem readCR_writeCR (s : State) {i : Word} (v : Word) (hi : i.toNat ≤ 5) (k : Word) (hk : k.toNat ≤ 5) :
    readCR (writeCR s i v) k = if k = i then v else readCR s k := by
  have hregs : (writeCR s i v).hostRegisters = (s.cfg, s.hostRegisters.2.set i.toNat v) := by
    unfold writeCR
    interval_cases i.toNat <;> rfl
  have hlen : i.toNat < s.hostRegisters.2.length := by show i.toNat < 6; omega
  rw [readCR_eq_hostRegisters _ hk, readCR_eq_hostRegisters _ hk, hregs, List.getD_eq_getElem?_getD, List.getElem?_set,
    List.getD_eq_getElem?_getD]
  by_cases hki : k = i
  · subst hki; simp [hlen]
  · have hne : i.toNat ≠ k.toNat := fun h => hki (BitVec.eq_of_toNat_eq h.symm)
    rw [if_neg hne, if_neg hki]

theorem writeCR_of_absent (s : State) {i : Word} (v : Word) (hi : ¬i.toNat ≤ 5) : writeCR s i v = s := by
  unfold writeCR
  split
  case h_7 => rfl
  all_goals omega

/-! ### What a word at the command port can leave (44_host_commands R214) -/

/-- The states a command word can end in: nothing done; CLRST; an error; the end of PACK or PACKM, of UNPACK, and of RUNMV. -/
inductive CommandEnd (s : State) : State → Prop
  | dropped : CommandEnd s s
  | cleared (hidle : s.status.busy = false) : CommandEnd s (clearError s)
  | raised (hidle : s.status.busy = false) (herr : s.status.err = false) (e : ErrorKind) (info : Word) :
      CommandEnd s (raiseError e info s)
  | words (hidle : s.status.busy = false) (herr : s.status.err = false) (ws : List Word) (hlen : ws.length ≤ s.cfg.wcap) :
      CommandEnd s (storeWords ws { s with status := s.status.dropDone })
  | values (hidle : s.status.busy = false) (herr : s.status.err = false) (vs : List Int) (hlen : vs.length ≤ s.cfg.tcap) :
      CommandEnd s (storeValues vs { s with status := s.status.dropDone })
  | deviceFailed (hidle : s.status.busy = false) (herr : s.status.err = false) (hcheck : runmvCheck s = none) :
      CommandEnd s (deviceError s)
  | emptyRun (hidle : s.status.busy = false) (herr : s.status.err = false) (hcheck : runmvCheck s = none)
      (hrows : s.rows.toNat = 0) : CommandEnd s (completeRun (launch { s with status := s.status.dropDone }))
  | launched (hidle : s.status.busy = false) (herr : s.status.err = false) (hcheck : runmvCheck s = none)
      (hrows : s.rows.toNat ≠ 0) : CommandEnd s (launch { s with status := s.status.dropDone })

/-- A standing error blocks every command but CLRST (44_host_commands R214). -/
theorem exec_of_err {i : Instr} (he : s.status.err = true) (hi : i ≠ .clrst) : exec i s = .next s := by
  cases i
  case nop => rfl
  case clrst => exact absurd rfl hi
  all_goals exact acceptOperation_of_err he

theorem exec_commandEnd {i : Instr} (h : exec i s = .next t) : CommandEnd s t := by
  cases hb : s.status.busy
  case true =>
    obtain rfl := Host.Outcome.next.inj ((exec_of_busy i hb).symm.trans h)
    exact .dropped
  by_cases hclr : i = .clrst
  · simp only [hclr, exec, execClrst, hb, Bool.false_eq_true, if_false] at h
    obtain rfl := Host.Outcome.next.inj h
    exact .cleared hb
  cases he : s.status.err
  case true =>
    obtain rfl := Host.Outcome.next.inj ((exec_of_err he hclr).symm.trans h)
    exact .dropped
  cases i
  case clrst => exact absurd rfl hclr
  case nop => obtain rfl := Host.Outcome.next.inj h; exact .dropped
  case pack =>
    rcases execPack_next h with rfl | ⟨n, rfl⟩ | ⟨-, -, hc, raw, hlen, ⟨info, rfl⟩ | rfl⟩
    · exact .dropped
    · exact .raised hb he _ _
    · exact .raised hb he _ _
    · obtain ⟨-, -, hwcap⟩ := packCheck_eq_none.1 hc
      exact .words hb he _ (by rw [length_packChunks, List.length_map, hlen]; exact hwcap)
  case unpack =>
    rcases execUnpack_next h with rfl | ⟨n, rfl⟩ | ⟨-, -, hc, vs, hlen, rfl⟩
    · exact .dropped
    · exact .raised hb he _ _
    · obtain ⟨-, -, htcap⟩ := unpackCheck_eq_none.1 hc
      exact .values hb he _ (hlen.trans_le htcap)
  case packm =>
    rcases execPackm_next h with rfl | ⟨n, rfl⟩ | ⟨-, -, hc, raw, hlen, ⟨info, rfl⟩ | rfl⟩
    · exact .dropped
    · exact .raised hb he _ _
    · exact .raised hb he _ _
    · obtain ⟨-, -, hwcap⟩ := packmCheck_eq_none.1 hc
      exact .words hb he _ (by rw [length_packRows _ _ _ _ (by rw [List.length_map, hlen])]; exact hwcap)
  case runmv =>
    rcases execRunmv_next h with rfl | ⟨-, -, ⟨n, rfl⟩ | ⟨hc, rfl | ⟨hr, rfl⟩ | ⟨hr, rfl⟩⟩⟩
    · exact .dropped
    · exact .raised hb he _ _
    · exact .deviceFailed hb he hc
    · exact .emptyRun hb he hc hr
    · exact .launched hb he hc hr

theorem runCommand_commandEnd {w : Word} (h : runCommand w s = .next t) : CommandEnd s t := by
  unfold runCommand at h
  split at h
  · exact exec_commandEnd h
  · obtain rfl := Host.Outcome.next.inj h
    unfold illegalCommand
    cases hb : s.status.busy
    · cases he : s.status.err
      · exact .raised hb he _ _
      · exact .dropped
    · exact .dropped

theorem CommandEnd.hostRegisters (h : CommandEnd s t) : t.hostRegisters = s.hostRegisters := by
  cases h <;> rfl

/-! ### What a transaction can leave (44_host_commands R210 to R213) -/

/-- The states a transaction can end in: nothing done but for what the host reads and has still to come; a register written; an
element stored within the capacities; the end of a command; the reset event. -/
inductive InputEnd (s : State) : Input → State → Prop
  | port (inp : Input) (inbox : List Input) (readData : Option PortData) :
      InputEnd s inp { s with inbox := inbox, readData := readData }
  | register (hidle : s.status.busy = false) (i v : Word) (hi : i.toNat ≤ 5) : InputEnd s (.wrcr i v) (writeCR s i v)
  | stored (inp : Input) (tbuf : Memory 8) (wbuf xbuf ybuf : Memory 32)
      (hwithin : BufferInv s → BufferInv { s with tbuf := tbuf, wbuf := wbuf, xbuf := xbuf, ybuf := ybuf }) :
      InputEnd s inp { s with tbuf := tbuf, wbuf := wbuf, xbuf := xbuf, ybuf := ybuf }
  | command (w : Word) {u : State} (hend : CommandEnd s u) : InputEnd s (.command w) u
  | reset : InputEnd s .reset (resetEvent s)

theorem InputEnd.nothing (s : State) (inp : Input) : InputEnd s inp s := .port inp s.inbox s.readData

theorem hostStore_inputEnd {inp : Input} {b : Buf} {i : Nat} {u : State} (h : hostStore b i u s = .next t)
    (hu : i < capacity s.cfg b → InputEnd s inp u) : InputEnd s inp t := by
  rcases hostStore_next h with rfl | ⟨hi, rfl⟩
  · exact .nothing _ _
  · exact hu hi

/-- WAIT is one read of STATUS, and waits again while BUSY (30_encoding R93). -/
theorem runInput_wait (s : State) :
    runInput .wait s =
      .next { hostRdcr 6 s with inbox := if s.status.busy then .wait :: s.inbox else s.inbox } := by
  cases h : s.status.busy <;> simp [runInput, h, hostRdcr]

theorem runInput_inputEnd {inp : Input} (h : runInput inp s = .next t) : InputEnd s inp t := by
  cases inp
  case wrcr i v =>
    obtain rfl := Host.Outcome.next.inj h
    unfold hostWrcr
    cases hb : s.status.busy
    · by_cases hi : i.toNat ≤ 5
      · exact .register hb i v hi
      · rw [writeCR_of_absent s v hi]; exact .nothing _ _
    · exact .nothing _ _
  case rdcr i => obtain rfl := Host.Outcome.next.inj h; exact .port _ _ _
  case stT i v =>
    exact hostStore_inputEnd h fun hi => .stored _ _ _ _ _ fun hB => { hB with tbuf := Memory.within_write hi hB.tbuf }
  case stW i v =>
    exact hostStore_inputEnd h fun hi => .stored _ _ _ _ _ fun hB => { hB with wbuf := Memory.within_write hi hB.wbuf }
  case stX i v =>
    exact hostStore_inputEnd h fun hi => .stored _ _ _ _ _ fun hB => { hB with xbuf := Memory.within_write hi hB.xbuf }
  case stY i v =>
    exact hostStore_inputEnd h fun hi => .stored _ _ _ _ _ fun hB => { hB with ybuf := Memory.within_write hi hB.ybuf }
  case ld b i => obtain ⟨d, rfl⟩ := hostLoad_next h; exact .port _ _ _
  case command w => exact .command w (runCommand_commandEnd h)
  case wait =>
    rw [runInput_wait] at h
    obtain rfl := Host.Outcome.next.inj h
    exact .port _ _ _
  case reset => obtain rfl := Host.Outcome.next.inj h; exact .reset

/-! ### Which moves change the control registers -/

theorem InputEnd.hostRegisters {inp : Input} (h : InputEnd s inp t) :
    t.hostRegisters = s.hostRegisters ∨ (inp = .reset ∧ t = resetEvent s) ∨
      ∃ i v, inp = .wrcr i v ∧ s.status.busy = false ∧ i.toNat ≤ 5 ∧ t = writeCR s i v := by
  cases h
  case port => exact .inl rfl
  case register hidle i v hi => exact .inr (.inr ⟨i, v, rfl, hidle, hi, rfl⟩)
  case stored => exact .inl rfl
  case command w hend => exact .inl hend.hostRegisters
  case reset => exact .inr (.inl ⟨rfl, rfl⟩)

/-- No move of the dispatch changes a control register. -/
theorem performMove_hostRegisters {m : Move} (hm : m ≠ .input) (he : moveEnabled s m = true)
    (h : performMove m s = .next t) : t.hostRegisters = s.hostRegisters := by
  cases m
  case input => exact absurd rfl hm
  case lane g l =>
    obtain ⟨e, wg, ln, eff, -, -, -, -, -, rfl⟩ := laneMove_next h he
    rfl
  case release g =>
    obtain ⟨e, wg, he, hg, -⟩ := moveEnabled_release.1 he
    obtain rfl := Host.Outcome.next.inj h
    rw [releaseMove_eq he hg]; rfl
  case complete => obtain rfl := Host.Outcome.next.inj h; rfl

/-! ### The control invariant, part by part -/

theorem StatusInv.congr (h : StatusInv s) (hst : t.status = s.status) (hinfo : t.einfo = s.einfo)
    (hrun : t.engine.isSome = s.engine.isSome) : StatusInv t := by
  obtain ⟨h1, h2, h3, h4, h5, h6, h7⟩ := h
  rw [← hst] at h1 h2 h3 h4 h5 h6 h7
  exact ⟨h1, h2, h3, h4, fun h => hinfo.trans (h5 h), h6, h7.trans hrun.symm⟩

/-- STATUS and EINFO without an error. -/
theorem StatusInv.of_no_error (herr : s.status.err = false) (hdone : s.status.busy = true → s.status.done = false)
    (hcode : s.status.ecode = 0) (hinfo : s.einfo = 0) (hrun : s.status.busy = s.engine.isSome) : StatusInv s :=
  ⟨hdone, fun _ => herr, fun _ => herr, fun _ => hcode, fun _ => hinfo, fun h => absurd (herr.symm.trans h) (by decide), hrun⟩

/-- An error raised while no dispatch exists (60_exceptions R248). -/
theorem StatusInv.of_raised (e : ErrorKind) (hst : s.status = errorStatus e) (hrun : s.engine = none) : StatusInv s := by
  have hcode : errorCode e ∈ raisedCodes := by cases e <;> decide
  have hbusy : s.status.busy = false := by rw [hst]; rfl
  have hdone : s.status.done = false := by rw [hst]; rfl
  have herr : s.status.err = true := by rw [hst]; rfl
  exact ⟨fun _ => hdone, fun h => absurd (hbusy.symm.trans h) (by decide), fun h => absurd (hdone.symm.trans h) (by decide),
    fun h => absurd (herr.symm.trans h) (by decide), fun h => absurd (herr.symm.trans h) (by decide),
    fun _ => by rw [hst]; exact hcode, by rw [hbusy, hrun]; rfl⟩

theorem StatusInv.no_run (h : StatusInv s) (hidle : s.status.busy = false) : s.engine = none := by
  simpa [hidle] using h.busyRun

theorem StatusInv.busy_of_run (h : StatusInv s) {e : EngineRun} (he : s.engine = some e) : s.status.busy = true := by
  rw [h.busyRun, he]; rfl

/-- The control state of a dispatch speaks of the control registers and the parameters only. -/
theorem RunControl.congr {e : EngineRun} (h : RunControl s e) (hregs : t.hostRegisters = s.hostRegisters) : RunControl t e := by
  simp only [State.hostRegisters, Prod.mk.injEq, List.cons.injEq, and_true] at hregs
  obtain ⟨hcfg, hrows, hcols, hwidth, -, hwlen, hxlen⟩ := hregs
  refine ⟨by rw [hrows, h.rows], by rw [hcols, h.cols], by rw [hwidth, h.width], ?_, h.groups, by rw [hcfg]; exact h.each⟩
  rw [runmvCheck_congr hrows hcols hwidth hwlen hxlen hcfg, h.checks]

/-- Without a dispatch there is nothing to a control state but STATUS and the buffers. -/
theorem ControlInv.of_no_run (hst : StatusInv t) (hbuf : BufferInv t) (hrun : t.engine = none) : ControlInv t :=
  ⟨hst, hbuf, fun e he => absurd (hrun.symm.trans he) (by simp)⟩

/-- STATUS, EINFO, the control registers and the dispatch stay. -/
theorem ControlInv.congr (h : ControlInv s) (hst : t.status = s.status) (hinfo : t.einfo = s.einfo) (hbuf : BufferInv t)
    (hregs : t.hostRegisters = s.hostRegisters) (hrun : t.engine = s.engine) : ControlInv t :=
  ⟨h.status.congr hst hinfo (by rw [hrun]), hbuf, fun e he => (h.run e (hrun ▸ he)).congr hregs⟩

/-- The model's own fields are no part of the control state. -/
theorem ControlInv.model_fields (h : ControlInv s) (inbox : List Input) (readData : Option PortData) (pick draws : Nat) :
    ControlInv { s with inbox := inbox, readData := readData, pick := pick, draws := draws } :=
  h.congr rfl rfl { h.buffers with } rfl rfl

/-! ### The control invariant through a command -/

theorem ControlInv.commandEnd (h : ControlInv s) (hend : CommandEnd s t) : ControlInv t := by
  have hst := h.status
  have hbuf := h.buffers
  cases hend
  case dropped => exact h
  case cleared hidle =>
    exact .of_no_run (.of_no_error rfl (fun _ => rfl) rfl rfl hst.busyRun) { hbuf with } (hst.no_run hidle)
  case raised hidle herr e info =>
    exact .of_no_run (.of_raised e rfl (hst.no_run hidle)) { hbuf with } (hst.no_run hidle)
  case words hidle herr ws hlen =>
    refine .of_no_run (.of_no_error herr (fun hb => ?_) (hst.noErrNoCode herr) (hst.noErrNoInfo herr) hst.busyRun)
      { hbuf with wbuf := Memory.within_writeSpan ((Nat.zero_add _).trans_le hlen) hbuf.wbuf } (hst.no_run hidle)
    exact absurd (hidle.symm.trans hb) (by decide)
  case values hidle herr vs hlen =>
    refine .of_no_run (.of_no_error herr (fun hb => ?_) (hst.noErrNoCode herr) (hst.noErrNoInfo herr) hst.busyRun)
      { hbuf with tbuf := Memory.within_writeSpan (by rwa [List.length_map, Nat.zero_add]) hbuf.tbuf } (hst.no_run hidle)
    exact absurd (hidle.symm.trans hb) (by decide)
  case deviceFailed hidle herr hcheck =>
    exact .of_no_run (.of_raised .deviceError rfl (hst.no_run hidle))
      { hbuf with ybuf := Memory.within_dropBelow hbuf.ybuf } (hst.no_run hidle)
  case emptyRun hidle herr hcheck hrows =>
    exact .of_no_run (.of_no_error herr (fun hb => nomatch hb) (hst.noErrNoCode herr) (hst.noErrNoInfo herr) rfl)
      { hbuf with } rfl
  case launched hidle herr hcheck hrows =>
    refine ⟨.of_no_error herr (fun _ => rfl) (hst.noErrNoCode herr) (hst.noErrNoInfo herr) rfl, { hbuf with }, ?_⟩
    rintro e he
    obtain rfl := Option.some.inj he
    refine ⟨rfl, rfl, rfl, hcheck, List.length_replicate, fun g wg hg => ?_⟩
    obtain rfl := List.eq_of_mem_replicate (List.mem_of_getElem? hg)
    exact newGroup_control _ _

/-! ### The control invariant through every move -/

theorem controlInv_resetEvent (s : State) : ControlInv (resetEvent s) :=
  .of_no_run (.of_no_error rfl (fun _ => rfl) rfl rfl rfl) ⟨rfl, rfl, rfl, rfl⟩ rfl

theorem ControlInv.inputEnd {inp : Input} (h : ControlInv s) (hend : InputEnd s inp t) : ControlInv t := by
  cases hend
  case port inbox readData => exact h.model_fields inbox readData s.pick s.draws
  case register hidle i v hi =>
    have hrun : (writeCR s i v).engine = none := by rw [writeCR_engine, h.status.no_run hidle]
    refine .of_no_run (h.status.congr (by simp) (by simp) (by simp)) ⟨?_, ?_, ?_, ?_⟩ hrun <;> rw [writeCR_cfg]
    · rw [writeCR_tbuf]; exact h.buffers.tbuf
    · rw [writeCR_wbuf]; exact h.buffers.wbuf
    · rw [writeCR_xbuf]; exact h.buffers.xbuf
    · rw [writeCR_ybuf]; exact h.buffers.ybuf
  case stored hwithin => exact h.congr rfl rfl (hwithin h.buffers) rfl rfl
  case command w hend => exact h.commandEnd hend
  case reset => exact controlInv_resetEvent s

theorem takeInput_keeps_controlInv (h : ControlInv s) (ht : takeInput s = .next t) : ControlInv t := by
  rcases takeInput_next ht with ⟨-, rfl⟩ | ⟨inp, rest, -, -, ht⟩
  · exact h
  · exact (h.model_fields rest s.readData s.pick s.draws).inputEnd (runInput_inputEnd ht)

/-- A workgroup replaced by a legal one, with a YBUF within its capacity. -/
theorem ControlInv.putGroup {e : EngineRun} {g : Nat} {wg wg' : Workgroup} {ybuf : Memory 32} (h : ControlInv s)
    (he : s.engine = some e) (hg : e.groups[g]? = some wg) (hG : GroupControl (shapeOf s.cfg e) wg')
    (hy : Memory.within ybuf s.cfg.ycap = true) : ControlInv { putGroup s e g wg' with ybuf := ybuf } := by
  refine ⟨h.status.congr rfl rfl (by rw [he]; rfl), { h.buffers with ybuf := hy }, fun e' he' => ?_⟩
  obtain rfl := Option.some.inj he'
  exact (putGroup_run (h.run e he) hG (List.getElem?_eq_some_iff.1 hg).1).congr rfl

theorem laneMove_keeps_controlInv {g l : Nat} (h : ControlInv s) (he : moveEnabled s (.lane g l) = true)
    (ht : laneMove g l s = .next t) : ControlInv t := by
  obtain ⟨e, wg, ln, eff, he, hg, hl, hc, heff, rfl⟩ := laneMove_next ht he
  have hR := h.run e he
  have hG := hR.each g wg hg
  have hgy : g < s.cfg.ycap := by
    have := (List.getElem?_eq_some_iff.1 hg).1
    rw [hR.groups] at this
    exact this.trans_le (dims_ok hR).2
  obtain ⟨-, -, hy, -⟩ := laneEffect_memories hc heff (hG.lane_lt hl) (hG.each l ln hl).legal
  exact h.putGroup he hg (applyLane_control hG hl hc heff) (hy _ hgy h.buffers.ybuf)

theorem releaseMove_keeps_controlInv {g : Nat} (h : ControlInv s) (he : moveEnabled s (.release g) = true) :
    ControlInv (releaseMove g s) := by
  obtain ⟨e, wg, he, hg, hall⟩ := moveEnabled_release.1 he
  have hR := h.run e he
  rw [releaseMove_eq he hg]
  exact h.putGroup he hg (release_control (Shape.codes_pos (dims_ok hR).1) (hR.each g wg hg) hall) h.buffers.ybuf

theorem completeRun_keeps_controlInv (h : ControlInv s) (he : moveEnabled s .complete = true) :
    ControlInv (completeRun s) := by
  obtain ⟨e, he, -⟩ := moveEnabled_complete.1 he
  have herr := h.status.busyNotErr (h.status.busy_of_run he)
  exact .of_no_run (.of_no_error herr (fun hb => nomatch hb) (h.status.noErrNoCode herr) (h.status.noErrNoInfo herr) rfl)
    { h.buffers with } rfl

theorem performMove_keeps_controlInv {m : Move} (h : ControlInv s) (he : moveEnabled s m = true)
    (ht : performMove m s = .next t) : ControlInv t := by
  cases m
  case input => exact takeInput_keeps_controlInv h ht
  case lane g l => exact laneMove_keeps_controlInv h he ht
  case release g => obtain rfl := Host.Outcome.next.inj ht; exact releaseMove_keeps_controlInv h he
  case complete => obtain rfl := Host.Outcome.next.inj ht; exact completeRun_keeps_controlInv h he

/-! ### The codec commands once accepted, with their checks passed (40_codec R120 to R122) -/

theorem exec_pack_of_check (hb : s.status.busy = false) (he : s.status.err = false) (hc : packCheck s = none) :
    exec .pack s =
      packValues s.count.toNat (packChunks s.width.toNat) { s with status := s.status.dropDone } := by
  have hc : packCheck { s with status := s.status.dropDone } = none := hc
  rw [exec, execPack, acceptOperation_of_idle hb he, runPack, hc]

theorem exec_packm_of_check (hb : s.status.busy = false) (he : s.status.err = false) (hc : packmCheck s = none) :
    exec .packm s =
      packValues (s.rows.toNat * s.cols.toNat) (packRows s.width.toNat s.rows.toNat s.cols.toNat)
        { s with status := s.status.dropDone } := by
  have hc : packmCheck { s with status := s.status.dropDone } = none := hc
  rw [exec, execPackm, acceptOperation_of_idle hb he, runPackm, hc]

/-- A raw value that PACK or PACKM reads is missing: the machine stops (10_state R39). -/
theorem packValues_of_missing {n : Nat} {toWords : List Int → List Word} {f : Fault}
    (hr : readSpan (.buffer .tbuf) s.tbuf 0 n = .error f) : packValues n toWords s = .fault f := by
  simp [packValues, hr]

/-- A packed word that UNPACK reads is missing: the machine stops (10_state R39). -/
theorem exec_unpack_of_missing {f : Fault} (hb : s.status.busy = false) (he : s.status.err = false)
    (hc : unpackCheck s = none)
    (hr : readSpan (.buffer .wbuf) s.wbuf 0 (divCeil s.count.toNat (codesPerWord s.width.toNat)) = .error f) :
    exec .unpack s = .fault f := by
  have hc : unpackCheck { s with status := s.status.dropDone } = none := hc
  rw [exec, execUnpack, acceptOperation_of_idle hb he, runUnpack, hc]
  simp [hr]

/-! ### With its sources filled the engine reads only elements that hold a value (10_state R39) -/

theorem Memory.filled_iff {w : Nat} {m : Memory w} {n : Nat} :
    Memory.filled m 0 n = true ↔ ∀ i, i < n → ∃ v, Memory.read m i = some v := by
  simp [Memory.filled, Option.isSome_iff_exists]

theorem tileElement_of_filled {sh : Shape} {xbuf : Memory 32} (h : Memory.filled xbuf 0 sh.cols = true) (tt i : Nat) :
    ∃ v, tileElement sh xbuf tt i = .ok v := by
  unfold tileElement
  dsimp only
  split
  · next hc => exact (Memory.filled_iff.1 h _ hc).imp fun v hv => readElement_eq_ok.2 hv
  · exact ⟨_, rfl⟩

/-- A lane past the barrier of the publication answers for an element of the scratch. -/
theorem treeSteps_of_passed {sh : Shape} {l : Nat} {p : Pos} (hlegal : p.legal sh l = true)
    (h : 2 * sh.tiles < p.barriersPassed sh) : ∃ m, p.treeSteps sh = some m := by
  cases p <;> simp only [Pos.barriersPassed] at h
  case red | barRed | write | exit => exact ⟨_, rfl⟩
  case load tt i => have := (Pos.legal_load.1 hlegal).1; omega
  case acc tt jw k => have := (Pos.legal_acc.1 hlegal).1; omega
  case barLoad tt => have : tt < sh.tiles := of_decide_eq_true hlegal; omega
  case barAcc tt => have : tt < sh.tiles := of_decide_eq_true hlegal; omega
  case init | publish | barPub => omega

section

variable {ad : Adder} {sh : Shape} {nan : F32} {row : Nat → Word} {x : Nat → F32} {g l : Nat} {wg : Workgroup} {ln : Lane}

theorem LaneControl.acc_isSome (h : LaneControl sh wg.gen l ln) (hp : ln.pos ≠ .init) : ∃ a, ln.acc = some a :=
  Option.isSome_iff_exists.1 (h.started.resolve_left hp)

/-- While a lane is in the tree, every lane's element of the scratch holds a value. -/
theorem scratch_holds_value {st l' : Nat} (hG : GroupControl sh wg) (hl : wg.lanes[l]? = some ln) (hp : ln.pos = .red st)
    (hV : ∀ (l : Nat) (ln : Lane), wg.lanes[l]? = some ln → LaneValues ad sh row x wg l ln) (hl' : l' < sh.lanes) :
    ∃ v, Memory.read wg.shmR l' = some v := by
  obtain ⟨ln', hln'⟩ := hG.lane_exists hl'
  obtain ⟨hlegal, hphase, -⟩ := hG.each l ln hl
  rw [hp] at hlegal hphase
  obtain ⟨j, hj, rfl⟩ := legal_stride.1 hlegal
  have hpassed : 2 * sh.tiles < ln'.pos.barriersPassed sh := by
    rw [(hG.each l' ln' hln').phase, ← hphase, Pos.barriersPassed, Nat.log2_two_pow]
    omega
  obtain ⟨m, hm⟩ := treeSteps_of_passed (hG.each l' ln' hln').legal hpassed
  obtain ⟨v, hv, -⟩ := (hV l' ln' hln').scratch m hm
  exact ⟨v, hv⟩

/-- The lane that adds element `l + st` adds an element of the scratch. -/
theorem legal_red_partner {st : Nat} (hlegal : (Pos.red st).legal sh l = true) (hlt : l < st) : l + st < sh.lanes := by
  obtain ⟨j, hj, rfl⟩ := legal_stride.1 hlegal
  have : 2 ^ (j + 1) ≤ 2 ^ sh.laneLog := Nat.pow_le_pow_right (by omega) hj
  rw [Nat.pow_succ] at this
  unfold Shape.lanes
  omega

/-- The slot of a legal accumulate position lies in the tile. -/
theorem legal_acc_slot {tt jw k : Nat} (hlegal : (Pos.acc tt jw k).legal sh l = true) : jw * sh.codes + k < sh.tile := by
  obtain ⟨-, hjw, -, -, hk⟩ := Pos.legal_acc.1 hlegal
  have : (jw + 1) * sh.codes ≤ sh.tileWords * sh.codes := Nat.mul_le_mul_right _ hjw
  rw [Nat.add_mul] at this
  unfold Shape.tile
  omega

/-- With the row's words and the input vector filled, a micro-step of a lane that meets the invariants reads only elements that
hold a value. -/
theorem laneEffect_never_faults (hG : GroupControl sh wg) (hl : wg.lanes[l]? = some ln)
    (hV : ∀ (l : Nat) (ln : Lane), wg.lanes[l]? = some ln → LaneValues ad sh row x wg l ln)
    (hw : ∀ j, j < sh.rowWords → ∃ w, Memory.read s.wbuf (g * sh.rowWords + j) = some w)
    (hx : Memory.filled s.xbuf 0 sh.cols = true) : ∃ eff, laneEffect sh nan s g l wg ln = .ok eff := by
  have hL := hG.each l ln hl
  have hlegal := hL.legal
  have htile := (hV l ln hl).tile
  unfold laneEffect
  cases hp : ln.pos <;> dsimp only <;> rw [hp] at hlegal htile
  case load tt i =>
    obtain ⟨v, hv⟩ := tileElement_of_filled hx tt i
    simp [laneLoad, hv]
  case acc tt jw k =>
    obtain ⟨-, -, -, hj, -⟩ := Pos.legal_acc.1 hlegal
    obtain ⟨w, hw⟩ := hw _ hj
    have hx := htile _ (legal_acc_slot hlegal)
    obtain ⟨a, ha⟩ := hL.acc_isSome (by simp [hp])
    simp [laneAcc, readAcc, readElement_eq_ok.2 hw, readElement_eq_ok.2 hx, ha]
  case publish =>
    obtain ⟨a, ha⟩ := hL.acc_isSome (by simp [hp])
    simp [lanePublish, readAcc, ha]
  case red st =>
    by_cases hlt : l < st
    · obtain ⟨a, ha⟩ := scratch_holds_value hG hl hp hV (hG.lane_lt hl)
      obtain ⟨b, hb⟩ := scratch_holds_value hG hl hp hV (legal_red_partner hlegal hlt)
      simp [laneReduce, hlt, readElement_eq_ok.2 ha, readElement_eq_ok.2 hb]
    · simp [laneReduce, hlt]
  case write =>
    have hl0 : l = 0 := of_decide_eq_true hlegal
    obtain ⟨v, hv, -⟩ := (hV l ln hl).scratch sh.laneLog (by rw [hp]; rfl)
    rw [hl0] at hv
    simp [laneWrite, readElement_eq_ok.2 hv]
  case init | barLoad | barAcc | barPub | barRed | exit => exact ⟨_, rfl⟩

end

end

/-! ### The STATUS word (10_state R30) -/

theorem Status.toWord_getLsbD_low (st : Status) :
    st.toWord.getLsbD 0 = st.busy ∧ st.toWord.getLsbD 1 = st.done ∧ st.toWord.getLsbD 2 = st.err ∧
      st.toWord.getLsbD 3 = false := by
  simp only [Status.toWord, BitVec.getLsbD_append]
  simp

/-- From bit 4 on the word is ECODE and then zeros. -/
theorem Status.toWord_getLsbD_high (st : Status) (i : Nat) : st.toWord.getLsbD (4 + i) = st.ecode.getLsbD i := by
  simp only [Status.toWord, BitVec.getLsbD_append]
  by_cases hi : i < 4
  · simp [hi]
  · simp [hi, BitVec.getLsbD_of_ge st.ecode i (by omega)]

/-! ### The statements -/

/-- Settles O51: a step is nothing or one enabled move on fresh draws, and each kind of move keeps the invariant. -/
theorem everyStepKeepsControlInv : Obligations.EveryStepKeepsControlInv := by
  unfold Obligations.EveryStepKeepsControlInv
  intro s t h ht
  rcases step_next ht with ⟨-, rfl⟩ | ⟨m, -, hm, ht⟩
  · exact h
  · exact performMove_keeps_controlInv (h.model_fields s.inbox s.readData _ _) hm ht

/-- Settles O56: a release and the completion read nothing, and a lane's micro-step reads only elements that hold a value. -/
theorem engineMovesNeverFault : Obligations.EngineMovesNeverFault := by
  unfold Obligations.EngineMovesNeverFault
  intro s e m hinv he hwords hinputs hm hne
  cases m
  case input => exact absurd rfl hne
  case release g => exact ⟨_, rfl⟩
  case complete => exact ⟨_, rfl⟩
  case lane g l =>
    obtain ⟨e', wg, ln, he', hg, hl, -⟩ := moveEnabled_lane.1 (moveEnabled_of_mem hm)
    obtain rfl := Option.some.inj (he.symm.trans he')
    have hR := hinv.control.run e he
    have hrow : ∀ j, j < (shapeOf s.cfg e).rowWords →
        ∃ w, Memory.read s.wbuf (g * (shapeOf s.cfg e).rowWords + j) = some w := fun j hj => by
      refine Memory.filled_iff.1 hwords _ ?_
      have hlt : g + 1 ≤ e.rows := hR.groups ▸ (List.getElem?_eq_some_iff.1 hg).1
      have := Nat.mul_le_mul_right (shapeOf s.cfg e).rowWords hlt
      rw [Nat.add_mul] at this
      omega
    obtain ⟨eff, heff⟩ := laneEffect_never_faults (nan := drawnNaN s.draws) (hR.each g wg hg) hl
      (hinv.values e he g wg hg).each hrow hinputs
    refine ⟨{ putGroup s e g (wg.applyLane l eff) with ybuf := eff.ybuf }, ?_⟩
    rw [performMove, laneMove_eq he hg hl, heff]

/-- Settles O48: each kind of move leaves the control registers but for a taken WRCR and the reset event. -/
theorem onlyWrcrAndResetChangeHostRegisters : Obligations.OnlyWrcrAndResetChangeHostRegisters := by
  unfold Obligations.OnlyWrcrAndResetChangeHostRegisters
  intro s t ht
  have unchanged {P : Prop} (h : t.hostRegisters = s.hostRegisters) :
      t.cfg = s.cfg ∧ ((∀ k : Word, k.toNat ≤ 5 → readCR t k = readCR s k) ∨ P) :=
    ⟨cfg_congr h, .inl fun k hk => readCR_congr h hk⟩
  rcases step_next ht with ⟨-, rfl⟩ | ⟨m, hm, hen, ht⟩
  · exact unchanged rfl
  by_cases hmi : m = .input
  · subst hmi
    rcases takeInput_next ht with ⟨-, rfl⟩ | ⟨inp, rest, hbox, -, ht⟩
    · exact unchanged rfl
    · rcases (runInput_inputEnd ht).hostRegisters with h | ⟨rfl, rfl⟩ | ⟨i, v, rfl, hidle, hi, rfl⟩
      · exact unchanged h
      · exact ⟨rfl, .inr (.inl ⟨hm, rest, hbox⟩)⟩
      · refine ⟨writeCR_cfg _ _ _, .inr (.inr ⟨hm, hidle, i, v, rest, hbox, hi, ?_, fun k hk hki => ?_⟩)⟩
        · rw [readCR_writeCR _ _ hi _ hi, if_pos rfl]
        · rw [readCR_writeCR _ _ hi _ hk, if_neg hki]; rfl
  · exact unchanged ((performMove_hostRegisters hmi hen ht).trans rfl)

/-- Settles O13: after its checks each command first reads its whole source, which stops at element `i`. -/
theorem missingSourceElementFaults : Obligations.MissingSourceElementFaults := by
  unfold Obligations.MissingSourceElementFaults
  intro s i hb he W K n R C hW2 hW32
  have hspan {w : Nat} {sp : Space} {m : Memory w} {count : Nat} (hi : i < count) (hn : Memory.read m i = none)
      (hlt : ∀ i', i' < i → (Memory.read m i').isSome = true) : readSpan sp m 0 count = .error (.noValue sp i) := by
    simpa using readSpan_error (start := 0) (sp := sp) hi (by simpa using hn) (by simpa using hlt)
  refine ⟨fun hn hlt => ⟨fun hi htcap hwcap => ?_, fun hi htcap hwcap => ?_⟩, fun hn hlt hi hwlen hwcap htcap => ?_⟩
  · rw [exec_pack_of_check hb he (packCheck_eq_none.2 ⟨⟨hW2, hW32⟩, htcap, hwcap⟩)]
    exact packValues_of_missing (hspan hi hn hlt)
  · rw [exec_packm_of_check hb he (packmCheck_eq_none.2 ⟨⟨hW2, hW32⟩, htcap, hwcap⟩)]
    exact packValues_of_missing (hspan hi hn hlt)
  · exact exec_unpack_of_missing hb he (unpackCheck_eq_none.2 ⟨⟨hW2, hW32⟩, ⟨hwlen, hwcap⟩, htcap⟩) (hspan hi hn hlt)

/-- Settles O19: bits 0 to 3 are BUSY, DONE, ERR and a zero, and from bit 4 on there is ECODE alone. -/
theorem statusWordLayout : Obligations.StatusWordLayout := by
  unfold Obligations.StatusWordLayout
  intro st
  obtain ⟨hbusy, hdone, herr, hzero⟩ := st.toWord_getLsbD_low
  refine ⟨hbusy, hdone, herr, BitVec.eq_of_getLsbD_eq fun i hi => ?_, hzero, fun i hi => ?_⟩
  · rw [BitVec.getLsbD_extractLsb', st.toWord_getLsbD_high, decide_eq_true hi, Bool.true_and]
  · obtain ⟨j, rfl⟩ := Nat.exists_eq_add_of_le (show 4 ≤ i by omega)
    rw [st.toWord_getLsbD_high, BitVec.getLsbD_of_ge _ _ (by omega)]

/-- Settles O24: the reset state, field by field. -/
theorem resetValues : Obligations.ResetValues := by
  unfold Obligations.ResetValues
  exact ⟨rfl, rfl, rfl, rfl, rfl, rfl, rfl, rfl, rfl, rfl, fun _ => ⟨rfl, rfl, rfl, rfl⟩⟩

/-- Settles O50: after reset there is no error, no dispatch and no element that holds a value. -/
theorem resetMeetsTheInvariant : Obligations.ResetMeetsTheInvariant := by
  unfold Obligations.ResetMeetsTheInvariant
  exact ⟨controlInv_resetEvent State.reset, fun e he => nomatch he⟩

end Sys2Proof.Machine

namespace Sys2Proof.Machine

/-! The memories of the block (20_memory): the bytes of a word at a stream boundary, the barrier release, and what the moves of
one workgroup leave alone; and the statements of family 20_memory. -/

section

variable {s t : State} {e : EngineRun} {wg : Workgroup} {ln : Lane} {eff : LaneEffect} {g l : Nat}

/-! ### Words at a stream boundary (20_memory R55) -/

theorem wordByte_eq_extractLsb' (w : Word) (b : Nat) : wordByte w b = w.extractLsb' (8 * b) 8 := by
  ext i hi
  simp [wordByte]

theorem wordByte_succ (w : Word) (b : Nat) : wordByte w (b + 1) = wordByte (w >>> 8) b := by
  rw [wordByte, wordByte, ← BitVec.shiftRight_add, Nat.mul_add, Nat.add_comm]

theorem wordByte_zero_or_shift (w : Word) : (wordByte w 0).setWidth 32 ||| w >>> 8 <<< 8 = w := by
  ext i hi
  by_cases h : i < 8
  · simp [wordByte, h, BitVec.getLsbD_eq_getElem hi]
  · simp [wordByte, h, BitVec.getLsbD_eq_getElem hi, show 8 + (i - 8) = i by omega]

/-- Each further byte is the low byte of the word shifted down, so the bytes taken together give the word back. -/
theorem wordOfLowBytes_wordByte (n : Nat) (w : Word) (hw : w.toNat < 2 ^ (8 * n)) :
    wordOfLowBytes ((List.range n).map (wordByte w)) = w := by
  induction n generalizing w with
  | zero => exact (BitVec.eq_of_toNat_eq (Nat.lt_one_iff.1 hw)).symm
  | succ n ih =>
    have hshift : (w >>> 8).toNat < 2 ^ (8 * n) := by
      rw [BitVec.toNat_ushiftRight, Nat.shiftRight_eq_div_pow]
      exact Nat.div_lt_of_lt_mul (by rwa [← Nat.pow_add, Nat.add_comm])
    have hbytes : (List.range (n + 1)).map (wordByte w) = wordByte w 0 :: (List.range n).map (wordByte (w >>> 8)) := by
      simp [List.range_succ_eq_map, wordByte_succ]
    rw [hbytes, wordOfLowBytes, ih _ hshift, wordByte_zero_or_shift]

/-! ### The barrier release (20_memory R65) -/

theorem afterBarrier_of_not_atBarrier (sh : Shape) (l : Nat) {p : Pos} (h : p.atBarrier = false) :
    afterBarrier sh l p = p := by
  cases p
  case barLoad | barAcc | barPub | barRed => cases h
  all_goals rfl

/-! ### What the moves of one workgroup leave alone (20_memory R61, R62, R64) -/

/-- A lane at a barrier or at EXIT stays as it is. -/
theorem laneEffect_of_not_canStep {sh : Shape} {nan : F32} (h : ln.pos.canStep = false) :
    laneEffect sh nan s g l wg ln =
      .ok { pos := ln.pos, acc := ln.acc, shmX := wg.shmX, shmR := wg.shmR, ybuf := s.ybuf } := by
  unfold laneEffect
  split
  case h_7 t hp | h_8 t hp | h_9 hp | h_10 stride hp | h_11 hp => rw [hp]
  all_goals next hp => rw [hp] at h; cases h

/-- Of YBUF a lane of workgroup `g` changes at most element `g`, wherever it stands. -/
theorem laneEffect_ybuf_other {sh : Shape} {nan : F32} (h : laneEffect sh nan s g l wg ln = .ok eff) {r : Nat} (hr : r ≠ g) :
    Memory.read eff.ybuf r = Memory.read s.ybuf r := by
  cases hc : ln.pos.canStep
  case false =>
    rw [laneEffect_of_not_canStep hc] at h
    obtain rfl := Except.ok.inj h
    rfl
  case true =>
    rcases laneEffect_ok hc h with ⟨-, rfl⟩ | ⟨_, _, _, -, -, rfl⟩ | ⟨_, _, _, _, _, _, -, -, -, -, rfl⟩ | ⟨_, -, -, rfl⟩ |
      ⟨_, _, _, -, -, -, -, rfl⟩ | ⟨_, -, -, rfl⟩ | ⟨v, -, -, rfl⟩
    on_goal 7 => exact Memory.read_write_other _ _ _ _ hr
    all_goals rfl

/-- From `s` to `t` nothing changes but workgroup `g` and `YBUF[g]`. -/
def ChangesOnlyGroup (g : Nat) (s t : State) : Prop :=
  t = { s with engine := t.engine, ybuf := t.ybuf } ∧
  (∀ r, r ≠ g → Memory.read t.ybuf r = Memory.read s.ybuf r) ∧
  ∀ e, s.engine = some e → ∃ e', t.engine = some e' ∧ e'.rows = e.rows ∧ e'.cols = e.cols ∧ e'.width = e.width ∧
    ∀ g', g' ≠ g → e'.groups[g']? = e.groups[g']?

theorem ChangesOnlyGroup.refl (g : Nat) (s : State) : ChangesOnlyGroup g s s :=
  ⟨rfl, fun _ _ => rfl, fun e he => ⟨e, he, rfl, rfl, rfl, fun _ _ => rfl⟩⟩

theorem changesOnlyGroup_putGroup (he : s.engine = some e) {ybuf : Memory 32}
    (hy : ∀ r, r ≠ g → Memory.read ybuf r = Memory.read s.ybuf r) :
    ChangesOnlyGroup g s { putGroup s e g wg with ybuf := ybuf } := by
  refine ⟨rfl, hy, fun e' he' => ?_⟩
  obtain rfl := Option.some.inj (he.symm.trans he')
  exact ⟨_, rfl, rfl, rfl, rfl, fun g' hg' => List.getElem?_set_ne hg'.symm⟩

theorem laneMove_changesOnlyGroup (h : laneMove g l s = .next t) : ChangesOnlyGroup g s t := by
  have stays (hs : Host.Outcome.next s = (.next t : Host.Outcome State Fault Refusal)) : ChangesOnlyGroup g s t :=
    Host.Outcome.next.inj hs ▸ .refl g s
  unfold laneMove at h
  split at h
  case h_1 => exact stays h
  case h_2 e he =>
    split at h
    case h_1 => exact stays h
    case h_2 wg hg =>
      split at h
      case h_1 => exact stays h
      case h_2 ln hl =>
        split at h
        case h_1 => cases h
        case h_2 eff heff =>
          obtain rfl := Host.Outcome.next.inj h
          exact changesOnlyGroup_putGroup he fun r hr => laneEffect_ybuf_other heff hr

theorem releaseMove_changesOnlyGroup (g : Nat) (s : State) : ChangesOnlyGroup g s (releaseMove g s) := by
  unfold releaseMove
  split
  case h_1 => exact .refl g s
  case h_2 e he =>
    split
    case h_1 => exact .refl g s
    case h_2 wg hg => exact changesOnlyGroup_putGroup he fun _ _ => rfl

end

/-! ### The statements -/

/-- Settles O35: byte by byte in the default order; the other order lists the same bytes in reverse. -/
theorem streamBytesRoundTrip : Obligations.StreamBytesRoundTrip := by
  unfold Obligations.StreamBytesRoundTrip
  intro order n w _ hw
  cases order
  case little =>
    refine ⟨?_, by simp [streamBytes], fun b hb => ?_⟩
    · simpa [wordOfStream, streamBytes] using wordOfLowBytes_wordByte n w hw
    · simp [streamBytes, hb, wordByte_eq_extractLsb']
  case big =>
    refine ⟨?_, by simp [streamBytes], fun b hb => ?_⟩
    · simpa [wordOfStream, streamBytes] using wordOfLowBytes_wordByte n w hw
    · have hidx : n - 1 - (n - 1 - b) = b := by omega
      have hlt : n - 1 - b < n := by omega
      simp [streamBytes, hlt, hidx, wordByte_eq_extractLsb']

/-- Settles O44: a release maps every lane's position by `afterBarrier` and lists anew the lanes at a barrier. -/
theorem barrierReleaseAdvancesAllLanes : Obligations.BarrierReleaseAdvancesAllLanes := by
  unfold Obligations.BarrierReleaseAdvancesAllLanes
  intro s e g wg he hg hall sh L finish
  refine ⟨moveEnabled_release.2 ⟨e, wg, he, hg, allArrived_iff.2 hall⟩, releasedLanes sh wg.lanes,
    lanesAtBarrier (releasedLanes sh wg.lanes), ?_, length_releasedLanes sh wg.lanes, fun l ln hl => ?_,
    fun l => mem_lanesAtBarrier⟩
  · rw [performMove, releaseMove_eq he hg]; rfl
  · refine ⟨afterBarrier sh l ln.pos, by rw [releasedLanes_getElem?, hl]; rfl, ?_, ?_, ?_, ?_, ?_⟩
    · intro t hp; rw [hp]; rfl
    · intro t hp; rw [hp]; rfl
    · intro hp; rw [hp]; rfl
    · intro stride hp; rw [hp]; rfl
    · exact afterBarrier_of_not_atBarrier sh l

/-- Settles O47: a release and a lane's micro-step replace their own workgroup, and of YBUF at most its own element. -/
theorem workgroupMovesAreLocal : Obligations.WorkgroupMovesAreLocal := by
  unfold Obligations.WorkgroupMovesAreLocal
  intro s t m g hm ht
  rcases hm with rfl | ⟨l, rfl⟩
  · obtain rfl := Host.Outcome.next.inj ht
    exact releaseMove_changesOnlyGroup g s
  · exact laneMove_changesOnlyGroup ht

end Sys2Proof.Machine

namespace Sys2Proof.Machine

/-! The encoding (30_encoding): the decoder field by field, code 11 in the packer and in the datapath; and the statements of
family 30_encoding. -/

/-! ### The fields of a command word (30_encoding R88) -/

theorem toNat_zeroField (w : Word) : (zeroField w).toNat = w.toNat / 16 := by
  rw [zeroField, BitVec.extractLsb'_toNat, Nat.shiftRight_eq_div_pow]
  omega

theorem toNat_opField (w : Word) : (opField w).toNat = w.toNat % 16 := by
  rw [opField, BitVec.extractLsb'_toNat, Nat.shiftRight_zero]

theorem zeroField_eq_zero {w : Word} : zeroField w = 0 ↔ w.toNat / 16 = 0 := by
  rw [← BitVec.toNat_inj, toNat_zeroField]; rfl

/-- A word is its two fields. -/
theorem zeroField_append_opField (w : Word) : zeroField w ++ opField w = w := by
  rw [zeroField, opField, BitVec.extractLsb'_append_extractLsb'_eq_extractLsb' (show 4 = 0 + 4 from rfl), BitVec.extractLsb'_eq_self]

theorem zeroField_encode (i : Instr) : zeroField (encode i) = 0 := by cases i <;> rfl

theorem opField_encode (i : Instr) : opField (encode i) = opCode i := by cases i <;> rfl

theorem eq_encode_iff {w : Word} {i : Instr} : w = encode i ↔ zeroField w = 0 ∧ opField w = opCode i := by
  constructor
  · rintro rfl
    exact ⟨zeroField_encode i, opField_encode i⟩
  · rintro ⟨hzero, hop⟩
    rw [← zeroField_append_opField w, hzero, hop, encode]

/-! ### The decoder (30_encoding R89, R90) -/

theorem opInstr_eq_some {op : BitVec 4} {i : Instr} : opInstr op = some i ↔ op = opCode i := by
  cases i <;> revert op <;> decide

theorem opInstr_eq_none {op : BitVec 4} : opInstr op = none ↔ 6 ≤ op.toNat := by
  revert op; decide

/-- The decoder accepts the words of the table, each as its own command. -/
theorem decode_eq_ok {w : Word} {i : Instr} : decode w = .ok i ↔ w = encode i := by
  rw [eq_encode_iff, ← opInstr_eq_some, decode]
  by_cases hzero : zeroField w = 0#28
  · cases opInstr (opField w) <;> simp [hzero]
  · simp [hzero]

theorem decode_encode (i : Instr) : decode (encode i) = .ok i := decode_eq_ok.2 rfl

theorem decode_eq_zeroFieldSet {w : Word} : decode w = .error .zeroFieldSet ↔ w.toNat / 16 ≠ 0 := by
  rw [Ne, ← zeroField_eq_zero, decode]
  by_cases hzero : zeroField w = 0#28
  · cases opInstr (opField w) <;> simp [hzero]
  · simp [hzero]

theorem decode_eq_reservedOp {w : Word} : decode w = .error .reservedOp ↔ w.toNat / 16 = 0 ∧ 6 ≤ w.toNat % 16 := by
  rw [← zeroField_eq_zero, ← toNat_opField, ← opInstr_eq_none, decode]
  by_cases hzero : zeroField w = 0#28
  · cases opInstr (opField w) <;> simp [hzero]
  · simp [hzero]

/-- The illegal command words, by their fields. -/
theorem decode_eq_error {w : Word} : (∃ e, decode w = .error e) ↔ w.toNat / 16 ≠ 0 ∨ 6 ≤ w.toNat % 16 := by
  constructor
  · rintro ⟨_ | _, he⟩
    · exact .inl (decode_eq_zeroFieldSet.1 he)
    · exact .inr (decode_eq_reservedOp.1 he).2
  · intro h
    by_cases hzero : w.toNat / 16 = 0
    · exact ⟨_, decode_eq_reservedOp.2 ⟨hzero, h.resolve_left (· hzero)⟩⟩
    · exact ⟨_, decode_eq_zeroFieldSet.2 hzero⟩

/-! ### Code 11 (30_encoding R81) -/

theorem enc_getD_ne_reserved (v : Int) : (enc v).getD 0 ≠ 0b11#2 := by
  unfold enc
  split_ifs <;> decide

/-- A slot of a packed word holds the code of a value, or 00 beyond the values. -/
theorem slotCode_packCodes_ne_reserved {vs : List Int} (h : vs.length ≤ 16) (k : Nat) :
    slotCode (packCodes vs) k ≠ 0b11#2 := by
  rw [slotCode_packCodes vs k h]
  cases vs[k]? with
  | none => decide
  | some v => exact enc_getD_ne_reserved v

theorem pack_eq_ok {W : Nat} {v : List Int} {ws : List Word} :
    pack W v = .ok ws ↔ firstInvalid v = none ∧ packChunks W v = ws := by
  unfold pack
  cases firstInvalid v <;> simp

/-- Every packed word holds the codes of at most 16 values. -/
theorem mem_packChunks {W : Nat} {v : List Int} {w : Word} (hW : W ≤ 32) (h : w ∈ packChunks W v) :
    ∃ vs, vs.length ≤ 16 ∧ packCodes vs = w := by
  obtain ⟨j, -, rfl⟩ := List.mem_map.1 h
  exact ⟨_, (List.length_take_le _ _).trans (codesPerWord_le hW), rfl⟩

/-- A code with both masks clear contributes +0.0 (41_decode_select R143). -/
theorem selectContribution_of_masks_zero {code : Code} (h : codeMasks code = (0, 0)) (x : F32) :
    selectContribution code x = 0x00000000#32 := by
  simp [selectContribution, h]

/-! ### The statements -/

/-- Settles O1: the two fields of a word decide, and they are the fields of the word's command. -/
theorem decodeAcceptsExactlySixWords : Obligations.DecodeAcceptsExactlySixWords := by
  unfold Obligations.DecodeAcceptsExactlySixWords
  exact ⟨fun _ _ => decode_eq_ok, rfl, rfl, rfl, rfl, rfl, rfl, fun _ => decode_eq_error⟩

/-- Settles O33: a slot of a packed word holds the code of a value or 00, and code 11 has both masks clear, as 00 has. -/
theorem reservedCodeCountsAsZero : Obligations.ReservedCodeCountsAsZero := by
  unfold Obligations.ReservedCodeCountsAsZero
  refine ⟨fun W v ws _ hW hpack w hw k _ => ?_, rfl, rfl, fun x =>
    ⟨selectContribution_of_masks_zero rfl x, selectContribution_of_masks_zero rfl x⟩⟩
  obtain ⟨-, rfl⟩ := pack_eq_ok.1 hpack
  obtain ⟨vs, hlen, rfl⟩ := mem_packChunks hW hw
  exact slotCode_packCodes_ne_reserved hlen k

/-- Settles O2: three words are those of commands; of the illegal neighbours one has a reserved OP and one a bit of ZERO. -/
theorem writtenOutWordsDecode : Obligations.WrittenOutWordsDecode := by
  unfold Obligations.WrittenOutWordsDecode
  exact ⟨decode_encode .pack, decode_encode .runmv, decode_encode .clrst, decode_eq_reservedOp.2 (by decide),
    decode_eq_zeroFieldSet.2 (by decide)⟩

/-- Settles O23: the poll is one read of STATUS, and BUSY alone decides whether it comes again. -/
theorem waitPollsUntilIdle : Obligations.WaitPollsUntilIdle := by
  unfold Obligations.WaitPollsUntilIdle
  refine fun s => ⟨fun hbusy => ?_, fun hidle => ?_⟩
  · rw [runInput_wait, hbusy]; rfl
  · rw [runInput_wait, hidle]; rfl

end Sys2Proof.Machine

namespace Sys2Proof.Machine

/-! The codec (40_codec): packing and unpacking of sequences undo each other, and what PACK, UNPACK and PACKM store; and the
statements of family 40_codec. -/

/-! ### Codes, values and raw patterns (40_codec R110, R111; 30_encoding R87) -/

theorem enc_eq_none {v : Int} (h0 : v ≠ 0) (h1 : v ≠ 1) (hm : v ≠ -1) : enc v = none := by
  rw [enc, if_neg h0, if_neg h1, if_neg hm]

theorem dec_enc_of_isTernary {v : Int} (h : isTernary v = true) : dec ((enc v).getD 0) = v :=
  dec_enc (enc_eq_some_of_isTernary h)

theorem enc_dec {c : Code} (h : c ≠ 0b11#2) : (enc (dec c)).getD 0 = c := by revert c; decide

theorem enc_rawToInt (b : Byte) : (enc (rawToInt b)).getD 0 = rawCode b := by revert b; decide

theorem intToRaw_dec (c : Code) : intToRaw (dec c) = codeRaw c := by revert c; decide

/-! ### Rows of equal length -/

/-- Element `j` of row `r` is one of the matrix. -/
theorem row_element_lt {R n r j : Nat} (hr : r < R) (hj : j < n) : r * n + j < R * n :=
  Nat.mul_comm n r ▸ Nat.mul_add_lt_mul_of_lt_of_lt hr hj

theorem length_row {α : Type} {R C r : Nat} {v : List α} (hv : v.length = R * C) (hr : r < R) :
    ((v.drop (r * C)).take C).length = C := by
  have := Nat.mul_le_mul_right C (Nat.succ_le_of_lt hr)
  rw [Nat.succ_mul] at this
  rw [List.length_take, List.length_drop, hv]
  omega

/-! ### `pack` and `unpack` of sequences (40_codec R112 to R118) -/

theorem packWord_of_isTernary {vs : List Int} (h : ∀ x ∈ vs, isTernary x = true) : packWord vs = some (packCodes vs) :=
  if_pos (List.all_eq_true.2 h)

theorem pack_eq_error {W : Nat} {v : List Int} {i : Nat} : pack W v = .error i ↔ firstInvalid v = some i := by
  unfold pack
  cases firstInvalid v <;> simp

theorem pack_of_isTernary {W : Nat} {v : List Int} (h : ∀ x ∈ v, isTernary x = true) : pack W v = .ok (packChunks W v) :=
  pack_eq_ok.2 ⟨firstInvalid_eq_none.2 h, rfl⟩

@[simp] theorem length_unpack (W : Nat) (ws : List Word) (n : Nat) : (unpack W ws n).length = n := by simp [unpack]

/-- An unpacked value is the `dec` of some code, code 11 included. -/
theorem isTernary_of_mem_unpack {W : Nat} {ws : List Word} {n : Nat} (hW : 2 ≤ W) {x : Int} (h : x ∈ unpack W ws n) :
    isTernary x = true := by
  obtain ⟨i, hi, rfl⟩ := List.mem_iff_getElem.1 h
  rw [length_unpack] at hi
  obtain ⟨_, hx⟩ := List.getElem?_eq_some_iff.1 (unpack_getElem? (ws := ws) hi hW)
  rw [hx]
  exact isTernary_dec _

/-- The bits that `lowWord` drops are above the slots. -/
theorem unpack_map_lowWord {W : Nat} {ws : List Word} {n i : Nat} {w : Word} (hW2 : 2 ≤ W) (hW : W ≤ 32) (hi : i < n)
    (hw : ws[i / codesPerWord W]? = some w) :
    (unpack W (ws.map (lowWord W)) n)[i]? = some (dec (slotCode w (i % codesPerWord W))) := by
  rw [unpack_getElem? hi hW2, List.getD_eq_getElem?_getD, List.getElem?_map, hw, Option.map_some, Option.getD_some,
    slotCode_lowWord W w _ hW (Nat.mod_lt i (codesPerWord_pos hW2))]

/-- Value `i` stands in slot `i % K` of word `i / K`, and its code reads back as the value. -/
theorem unpack_packChunks {W : Nat} {v : List Int} (hW2 : 2 ≤ W) (hW : W ≤ 32) (h : ∀ x ∈ v, isTernary x = true) :
    unpack W (packChunks W v) v.length = v := by
  have hK := codesPerWord_pos hW2
  refine List.ext_getElem? fun i => ?_
  rcases Nat.lt_or_ge i v.length with hi | hi
  · rw [unpack_getElem? hi hW2, List.getD_eq_getElem?_getD, packChunks_getElem? W v _ (div_lt_divCeil hK hi), Option.getD_some,
      slotCode_packChunks W v _ _ hW (Nat.mod_lt i hK), Nat.div_add_mod' i, List.getElem?_eq_getElem hi]
    exact congrArg some (dec_enc_of_isTernary (h _ (List.getElem_mem hi)))
  · rw [List.getElem?_eq_none hi, List.getElem?_eq_none (by rwa [length_unpack])]

theorem canonicalWord_of_mem_packChunks {W : Nat} {v : List Int} {w : Word} (hW : W ≤ 32) (h : w ∈ packChunks W v) :
    canonicalWord W w = true := by
  refine canonical_iff.2 ⟨?_, fun k _ => ?_⟩
  · obtain ⟨j, -, rfl⟩ := List.mem_map.1 h
    exact packChunk_lt W v j hW
  · obtain ⟨vs, hlen, rfl⟩ := mem_packChunks hW h
    exact slotCode_packCodes_ne_reserved hlen k

/-- A canonical word is the word of its own values: both have the same code in every slot, and no bit above the slots. -/
theorem packChunks_unpack {W : Nat} {ws : List Word} (hW2 : 2 ≤ W) (hW : W ≤ 32) (h : ∀ w ∈ ws, canonicalWord W w = true) :
    packChunks W (unpack W ws (codesPerWord W * ws.length)) = ws := by
  have hK := codesPerWord_pos hW2
  have hlen : divCeil (unpack W ws (codesPerWord W * ws.length)).length (codesPerWord W) = ws.length := by
    rw [length_unpack, divCeil_mul_left hK]
  refine List.ext_getElem? fun j => ?_
  rcases Nat.lt_or_ge j ws.length with hj | hj
  · obtain ⟨hlt, hcode⟩ := canonical_iff.1 (h _ (List.getElem_mem hj))
    rw [packChunks_getElem? W _ j (by rwa [hlen]), List.getElem?_eq_getElem hj]
    refine congrArg some (word_ext (codesPerWord_le hW) (packChunk_lt W _ j hW) hlt fun k hk => ?_)
    have hi : j * codesPerWord W + k < codesPerWord W * ws.length := Nat.mul_comm _ ws.length ▸ row_element_lt hj hk
    have hdiv : (j * codesPerWord W + k) / codesPerWord W = j := by
      rw [Nat.mul_comm, Nat.mul_add_div hK, Nat.div_eq_of_lt hk, Nat.add_zero]
    have hmod : (j * codesPerWord W + k) % codesPerWord W = k := by
      rw [Nat.mul_comm, Nat.mul_add_mod, Nat.mod_eq_of_lt hk]
    rw [slotCode_packChunks W _ j k hW hk, unpack_getElem? hi hW2, hdiv, hmod, List.getD_eq_getElem _ _ hj]
    exact enc_dec (hcode k hk)
  · rw [List.getElem?_eq_none hj, List.getElem?_eq_none (by rwa [length_packChunks, hlen])]

/-- Word `j` of a packed sequence of raw values: the codes of its chunk, the slots beyond the sequence and the bits above the
slots zero. -/
theorem packChunks_raw {W : Nat} {row : List Byte} {j : Nat} (hW : W ≤ 32) (hj : j < divCeil row.length (codesPerWord W)) :
    ∃ w, (packChunks W (row.map rawToInt))[j]? = some w ∧ w.toNat < 2 ^ (2 * codesPerWord W) ∧
      ∀ k, k < codesPerWord W →
        (∀ b, row[j * codesPerWord W + k]? = some b → slotCode w k = rawCode b) ∧
        (row.length ≤ j * codesPerWord W + k → slotCode w k = 0b00#2) := by
  refine ⟨_, packChunks_getElem? W _ j (by rwa [List.length_map]), ?_, fun k hk => ⟨fun b hb => ?_, fun hle => ?_⟩⟩
  · rw [Nat.pow_mul]
    exact packChunk_lt W _ j hW
  · rw [slotCode_packChunks W _ j k hW hk, List.getElem?_map, hb]
    exact enc_rawToInt b
  · rw [slotCode_packChunks W _ j k hW hk, List.getElem?_eq_none (by rwa [List.length_map])]
    rfl

/-! ### What the codec commands store (40_codec R120 to R122) -/

theorem Memory.read_writeSpan_of_lt {w : Nat} (m : Memory w) {vs : List (BitVec w)} {j : Nat} (h : j < vs.length) :
    Memory.read (Memory.writeSpan m 0 vs) j = vs[j]? := by
  rw [Memory.read_writeSpan, if_pos ⟨j.zero_le, by omega⟩, Nat.sub_zero]

theorem Memory.read_writeSpan_of_le {w : Nat} (m : Memory w) {vs : List (BitVec w)} {j : Nat} (h : vs.length ≤ j) :
    Memory.read (Memory.writeSpan m 0 vs) j = Memory.read m j := by
  rw [Memory.read_writeSpan, if_neg (by omega)]

/-- Elements `0 .. n-1`, all with a value, read as the list of them. -/
theorem readSpan_zero_of_forall {w n : Nat} (sp : Space) {m : Memory w} (h : ∀ i, i < n → ∃ v, Memory.read m i = some v) :
    ∃ vs, readSpan sp m 0 n = .ok vs ∧ vs.length = n ∧ ∀ i, i < n → Memory.read m i = vs[i]? := by
  obtain ⟨vs, hvs⟩ := readSpan_of_filled sp (m := m) (start := 0) (n := n) fun i hi => by
    rw [Nat.zero_add]
    exact Option.isSome_iff_exists.2 (h i hi)
  obtain ⟨hlen, hread⟩ := readSpan_eq_ok.1 hvs
  exact ⟨vs, hvs, hlen, fun i hi => by rw [← hread i hi, Nat.zero_add]⟩

section

variable {s : State}

theorem storeWords_eq_doneState (hb : s.status.busy = false) (he : s.status.err = false) (ws : List Word) :
    storeWords ws { s with status := s.status.dropDone } = doneState s.tbuf (Memory.writeSpan s.wbuf 0 ws) s := by
  simp [storeWords, finishOperation, doneState, Status.setDone, Status.dropDone, hb, he]

theorem storeValues_eq_doneState (hb : s.status.busy = false) (he : s.status.err = false) (vs : List Int) :
    storeValues vs { s with status := s.status.dropDone } =
      doneState (Memory.writeSpan s.tbuf 0 (vs.map intToRaw)) s.wbuf s := by
  simp [storeValues, finishOperation, doneState, Status.setDone, Status.dropDone, hb, he]

/-- PACK and PACKM on raw values all of which are ternary: the words made of them are stored. -/
theorem packValues_of_rawOk {n : Nat} (hb : s.status.busy = false) (he : s.status.err = false)
    (h : ∀ i, i < n → ∃ b, Memory.read s.tbuf i = some b ∧ rawOk b) :
    ∃ raw : List Byte, raw.length = n ∧ (∀ i, i < n → Memory.read s.tbuf i = raw[i]?) ∧
      ∀ toWords, packValues n toWords { s with status := s.status.dropDone } =
        .next (doneState s.tbuf (Memory.writeSpan s.wbuf 0 (toWords (raw.map rawToInt))) s) := by
  obtain ⟨raw, hraw, hlen, hread⟩ := readSpan_zero_of_forall (.buffer .tbuf) fun i hi => (h i hi).imp fun _ => And.left
  have hvalid : firstInvalid (raw.map rawToInt) = none := by
    refine firstInvalid_eq_none.2 (List.forall_mem_map.2 fun b hmem => (isTernary_rawToInt b).2 ?_)
    obtain ⟨i, hi, rfl⟩ := List.mem_iff_getElem.1 hmem
    obtain ⟨b, hget, hok⟩ := h i (hlen ▸ hi)
    rw [hread i (hlen ▸ hi), List.getElem?_eq_getElem hi] at hget
    exact Option.some.inj hget ▸ hok
  refine ⟨raw, hlen, hread, fun toWords => ?_⟩
  rw [packValues_of_valid (s := { s with status := s.status.dropDone }) hraw hvalid, storeWords_eq_doneState hb he]

theorem exec_unpack_of_words {ws : List Word} (hb : s.status.busy = false) (he : s.status.err = false)
    (hc : unpackCheck s = none)
    (hr : readSpan (.buffer .wbuf) s.wbuf 0 (divCeil s.count.toNat (codesPerWord s.width.toNat)) = .ok ws) :
    exec .unpack s = .next (doneState
      (Memory.writeSpan s.tbuf 0 ((unpack s.width.toNat (ws.map (lowWord s.width.toNat)) s.count.toNat).map intToRaw))
      s.wbuf s) := by
  have hc : unpackCheck { s with status := s.status.dropDone } = none := hc
  rw [exec, execUnpack, acceptOperation_of_idle hb he, runUnpack, hc]
  simp [hr, storeValues_eq_doneState hb he]

end

/-! ### The statements -/

/-- Settles O30: of ternary values there is no invalid one, and each is read back from its slot. -/
theorem unpackOfPackIsIdentity : Obligations.UnpackOfPackIsIdentity := by
  unfold Obligations.UnpackOfPackIsIdentity
  intro W v hW2 hW hv
  have hternary : ∀ x ∈ v, isTernary x = true := fun x hx => by
    rcases hv x hx with rfl | rfl | rfl <;> rfl
  exact ⟨_, pack_of_isTernary hternary, unpack_packChunks hW2 hW hternary⟩

/-- Settles O9: the raw values are read, found ternary, and packed from element 0 of WBUF on. -/
theorem packStoresTheWords : Obligations.PackStoresTheWords := by
  unfold Obligations.PackStoresTheWords
  intro s hb he W K n hW2 hW htcap hwcap hraw
  obtain ⟨raw, hlen, hread, hstore⟩ := packValues_of_rawOk hb he hraw
  have hwords : (packChunks W (raw.map rawToInt)).length = divCeil n K := by
    rw [length_packChunks, List.length_map, hlen]; rfl
  refine ⟨_, (exec_pack_of_check hb he (packCheck_eq_none.2 ⟨⟨hW2, hW⟩, htcap, hwcap⟩)).trans (hstore _), fun j hj => ?_,
    fun j hj => Memory.read_writeSpan_of_le _ (hwords.trans_le hj)⟩
  obtain ⟨w, hw, hlt, hslot⟩ := packChunks_raw (row := raw) hW (hlen.symm ▸ hj)
  refine ⟨w, by rw [Memory.read_writeSpan_of_lt _ (hwords.symm ▸ hj), hw], hlt, fun k hk => ?_⟩
  obtain ⟨hvalue, hpad⟩ := hslot k hk
  exact ⟨fun b hi hget => hvalue b ((hread _ hi).symm.trans hget), fun hle => hpad (hlen.trans_le hle)⟩

/-- Settles O10: the words are read, and the value of each slot is stored from element 0 of TBUF on. -/
theorem unpackStoresTheValues : Obligations.UnpackStoresTheValues := by
  unfold Obligations.UnpackStoresTheValues
  intro s hb he W K n hW2 hW hwlen hwcap htcap hfilled
  have hK : 0 < K := codesPerWord_pos hW2
  obtain ⟨ws, hws, -, hread⟩ := readSpan_zero_of_forall (.buffer .wbuf) hfilled
  have hlen : ((unpack W (ws.map (lowWord W)) n).map intToRaw).length = n := by rw [List.length_map, length_unpack]
  refine ⟨_, exec_unpack_of_words hb he (unpackCheck_eq_none.2 ⟨⟨hW2, hW⟩, ⟨hwlen, hwcap⟩, htcap⟩) hws, fun i w hi hw => ?_,
    fun i hi => Memory.read_writeSpan_of_le _ (hlen.trans_le hi)⟩
  have hword : ws[i / K]? = some w := (hread _ (div_lt_divCeil hK hi)).symm.trans hw
  rw [Memory.read_writeSpan_of_lt _ (hlen.symm ▸ hi), List.getElem?_map, unpack_map_lowWord hW2 hW hi hword]
  exact congrArg some (intToRaw_dec _)

/-- Settles O11: the raw values are read, found ternary, and each row is packed by itself, `WPR` words from the one before. -/
theorem packmStoresTheRows : Obligations.PackmStoresTheRows := by
  unfold Obligations.PackmStoresTheRows
  intro s hb he W K R C WPR hW2 hW htcap hwcap hraw
  obtain ⟨raw, hlen, hread, hstore⟩ := packValues_of_rawOk hb he hraw
  have hvalues : (raw.map rawToInt).length = R * C := by rw [List.length_map, hlen]
  have hwords : (packRows W R C (raw.map rawToInt)).length = R * WPR := length_packRows W R C _ hvalues
  refine ⟨_, (exec_packm_of_check hb he (packmCheck_eq_none.2 ⟨⟨hW2, hW⟩, htcap, hwcap⟩)).trans (hstore _),
    fun r j hr hj => ?_, fun i hi => Memory.read_writeSpan_of_le _ (hwords.trans_le hi)⟩
  have hrow : ((raw.drop (r * C)).take C).length = C := length_row hlen hr
  obtain ⟨w, hw, hlt, hslot⟩ := packChunks_raw (row := (raw.drop (r * C)).take C) (j := j) hW (by rw [hrow]; exact hj)
  refine ⟨w, ?_, hlt, fun k hk => ?_⟩
  · rw [Memory.read_writeSpan_of_lt _ (hwords.symm ▸ row_element_lt hr hj), ← hw, List.map_take, List.map_drop]
    exact packRows_getElem? W R C _ r j hvalues hr hj
  · obtain ⟨hvalue, hpad⟩ := hslot k hk
    refine ⟨fun b hcol hget => hvalue b ?_, fun hle => hpad (hrow.trans_le hle)⟩
    exact (List.getElem?_take_of_lt hcol).trans (List.getElem?_drop.trans
      ((hread _ (row_element_lt hr hcol)).symm.trans hget))

/-- Settles O15: each command is dropped, ends in an error, or stores exactly its destination span. -/
theorem frameOfCodecCommands : Obligations.FrameOfCodecCommands := by
  unfold Obligations.FrameOfCodecCommands
  refine fun s t => ⟨fun h => ?_, fun h => ?_, fun h => ?_⟩
  · rcases execPack_next h with rfl | ⟨n, rfl⟩ | ⟨-, -, -, raw, hlen, ⟨info, rfl⟩ | rfl⟩
    case inr.inr.inr =>
      exact ⟨rfl, fun j hj => Memory.read_writeSpan_of_le _ (by rwa [length_packChunks, List.length_map, hlen])⟩
    all_goals exact ⟨rfl, fun _ _ => rfl⟩
  · rcases execUnpack_next h with rfl | ⟨n, rfl⟩ | ⟨-, -, -, vs, hlen, rfl⟩
    case inr.inr =>
      exact ⟨rfl, fun i hi => Memory.read_writeSpan_of_le _ (by rwa [List.length_map, hlen])⟩
    all_goals exact ⟨rfl, fun _ _ => rfl⟩
  · rcases execPackm_next h with rfl | ⟨n, rfl⟩ | ⟨-, -, -, raw, hlen, ⟨info, rfl⟩ | rfl⟩
    case inr.inr.inr =>
      exact ⟨rfl, fun i hi => Memory.read_writeSpan_of_le _ (by
        rwa [length_packRows _ _ _ _ (by rw [List.length_map, hlen])])⟩
    all_goals exact ⟨rfl, fun _ _ => rfl⟩

/-- Settles O29: `pack` answers the first invalid index when there is one, else the words chunk by chunk. -/
theorem packFailsOnLowestInvalid : Obligations.PackFailsOnLowestInvalid := by
  unfold Obligations.PackFailsOnLowestInvalid
  refine fun W v _ _ => ⟨fun i => pack_eq_error.trans firstInvalid_eq_some, fun hv =>
    ⟨_, pack_of_isTernary hv, length_packChunks W v, fun j hj => ?_⟩⟩
  rw [packWord_of_isTernary fun x hx => hv x (List.mem_of_mem_drop (List.mem_of_mem_take hx))]
  exact packChunks_getElem? W v j hj

/-- Settles O31: what words unpack to is ternary, so `pack` answers canonical words, and those are the words themselves if they
were canonical. -/
theorem packOfUnpackOnCanonicalWords : Obligations.PackOfUnpackOnCanonicalWords := by
  unfold Obligations.PackOfUnpackOnCanonicalWords
  intro W hW2 hW
  have hcanonical (v : List Int) (ws : List Word) (hpack : pack W v = .ok ws) : ∀ w ∈ ws, canonicalWord W w = true := by
    obtain ⟨-, rfl⟩ := pack_eq_ok.1 hpack
    exact fun w => canonicalWord_of_mem_packChunks hW
  refine ⟨fun ws _ => ⟨hcanonical _ ws, fun h => ?_⟩, hcanonical⟩
  rw [pack_of_isTernary fun x => isTernary_of_mem_unpack hW2]
  exact congrArg _ (packChunks_unpack hW2 hW h)

/-- Settles O28: the codes by their table, and no code for any other integer. -/
theorem encDecTables : Obligations.EncDecTables := by
  unfold Obligations.EncDecTables
  exact ⟨rfl, rfl, rfl, fun _ => enc_eq_none, rfl, rfl, rfl, rfl⟩

end Sys2Proof.Machine

namespace Sys2Proof.Machine

/-! The decode-and-select datapath (41_decode_select): what each code selects, the addition of a zero contribution, and the
control of a dispatch as a function of its control state; and the statements of family 41_decode_select. -/

/-! ### The contribution of a slot (41_decode_select R142 to R144) -/

/-- A code with its add mask set passes the input element. -/
theorem selectContribution_of_addMask {code : Code} (h : codeMasks code = (BitVec.allOnes 32, 0#32)) (x : F32) :
    selectContribution code x = x := by
  simp only [selectContribution, h, BitVec.and_allOnes, BitVec.and_zero, BitVec.or_zero]

/-- A code with its subtract mask set passes the negated input element. -/
theorem selectContribution_of_subMask {code : Code} (h : codeMasks code = (0#32, BitVec.allOnes 32)) (x : F32) :
    selectContribution code x = fneg x := by
  simp only [selectContribution, h, BitVec.and_allOnes, BitVec.and_zero, BitVec.zero_or]

/-- The select agrees with the codec's `dec` on all four codes, 11 included (41_decode_select R144). -/
theorem selectContribution_eq_of_dec (code : Code) (x : F32) :
    selectContribution code x = if dec code = 1 then x else if dec code = -1 then fneg x else f32PosZero := by
  have hcodes : code = 0b00#2 ∨ code = 0b01#2 ∨ code = 0b10#2 ∨ code = 0b11#2 := by revert code; decide
  rcases hcodes with rfl | rfl | rfl | rfl
  · exact selectContribution_of_masks_zero rfl x
  · exact selectContribution_of_addMask rfl x
  · exact selectContribution_of_subMask rfl x
  · exact selectContribution_of_masks_zero rfl x

/-! ### Adding a zero contribution (41_decode_select R147) -/

theorem f32Units_ne_zero {a : F32} (hpos : a ≠ f32PosZero) (hneg : a ≠ f32NegZero) : f32Units a ≠ 0 := by
  have hmag : f32Magnitude a ≠ 0 := fun h => (zero_of_mag a h).elim hpos hneg
  unfold f32Units
  split <;> omega

/-- The sign of a zero operand shows in no sum but a zero one. -/
theorem ieeeAdd_posZero_eq_ieeeAdd_negZero (nan : F32) {a : F32} (h : f32Units a ≠ 0) :
    ieeeAdd nan a f32PosZero = ieeeAdd nan a f32NegZero := by
  have hpos : isNaN f32PosZero = false ∧ isInf f32PosZero = false ∧ f32Units f32PosZero = 0 := by decide
  have hneg : isNaN f32NegZero = false ∧ isInf f32NegZero = false ∧ f32Units f32NegZero = 0 := by decide
  simp only [ieeeAdd, hpos, hneg, Int.add_zero, h, if_false, Bool.false_and, Bool.false_eq_true]

theorem ieeeAdd_posZero (nan : F32) {a : F32} (hnan : isNaN a = false) (hneg : a ≠ f32NegZero) :
    ieeeAdd nan a f32PosZero = a := by
  by_cases hpos : a = f32PosZero
  · rw [hpos, ieeeAdd_of_units_zero (by decide) (by decide) (by decide)]; decide
  · rw [ieeeAdd_posZero_eq_ieeeAdd_negZero nan (f32Units_ne_zero hpos hneg), ieeeAdd_negZero nan hnan]

/-! ### The control of a workgroup (41_decode_select R148) -/

/-- The control state of a workgroup: what `Workgroup.controlState` gives. -/
abbrev GroupState := List Pos × List Nat × Nat

/-- The position after the micro-step of lane `l`, from the shape and the position alone; a lane without one stays. -/
def Pos.afterStep (sh : Shape) (l : Nat) : Pos → Pos
  | .init => afterInit sh l
  | .load t i => afterLoad sh t i
  | .acc t jw k => afterAcc sh t jw k
  | .publish => .barPub
  | .red stride => .barRed stride
  | .write => .exit
  | p => p

theorem Pos.afterStep_of_not_canStep (sh : Shape) (l : Nat) {p : Pos} (h : p.canStep = false) : p.afterStep sh l = p := by
  cases p
  case barLoad | barAcc | barPub | barRed | exit => rfl
  all_goals cases h

/-- The lanes at a barrier, from the positions alone. -/
def positionsAtBarrier (positions : List Pos) : List Nat :=
  (List.range positions.length).filter fun l => positions[l]?.any Pos.atBarrier

/-- The micro-step of lane `l` on the control state of its workgroup; nothing where there is no such lane. -/
def GroupState.laneStep (l : Nat) (sh : Shape) (c : GroupState) : GroupState :=
  match c.1[l]? with
  | none => c
  | some p =>
    (c.1.set l (p.afterStep sh l), if (p.afterStep sh l).atBarrier then joinArrived l c.2.1 else c.2.1, c.2.2)

/-- The barrier release on the control state of its workgroup. -/
def GroupState.release (sh : Shape) (c : GroupState) : GroupState :=
  (c.1.mapIdx (afterBarrier sh), positionsAtBarrier (c.1.mapIdx (afterBarrier sh)), c.2.2 + 1)

section

variable {s t : State} {e : EngineRun} {wg : Workgroup} {ln : Lane} {eff : LaneEffect} {sh : Shape} {nan : F32} {g l : Nat}

theorem laneEffect_pos (h : laneEffect sh nan s g l wg ln = .ok eff) : eff.pos = ln.pos.afterStep sh l := by
  cases hc : ln.pos.canStep
  case false =>
    rw [laneEffect_of_not_canStep hc] at h
    obtain rfl := Except.ok.inj h
    exact (Pos.afterStep_of_not_canStep sh l hc).symm
  case true =>
    rcases laneEffect_ok hc h with ⟨hp, rfl⟩ | ⟨_, _, _, hp, -, rfl⟩ | ⟨_, _, _, _, _, _, hp, -, -, -, rfl⟩ | ⟨_, hp, -, rfl⟩ |
      ⟨_, _, _, hp, -, -, -, rfl⟩ | ⟨_, hp, -, rfl⟩ | ⟨_, hp, -, rfl⟩ <;> rw [hp] <;> rfl

theorem lanesAtBarrier_eq (lanes : List Lane) : lanesAtBarrier lanes = positionsAtBarrier (lanes.map Lane.pos) := by
  rw [lanesAtBarrier, positionsAtBarrier, List.length_map]
  refine List.filter_congr fun l _ => ?_
  rw [List.getElem?_map]
  cases lanes[l]? <;> rfl

theorem map_pos_releasedLanes (sh : Shape) (lanes : List Lane) :
    (releasedLanes sh lanes).map Lane.pos = (lanes.map Lane.pos).mapIdx (afterBarrier sh) := by
  refine List.ext_getElem? fun l => ?_
  simp only [List.getElem?_map, List.getElem?_mapIdx, releasedLanes_getElem?, Option.map_map]
  rfl

theorem laneStep_of_absent (hl : wg.lanes[l]? = none) : GroupState.laneStep l sh wg.controlState = wg.controlState := by
  simp [GroupState.laneStep, Workgroup.controlState, hl]

theorem controlState_applyLane (hl : wg.lanes[l]? = some ln) (h : laneEffect sh nan s g l wg ln = .ok eff) :
    (wg.applyLane l eff).controlState = GroupState.laneStep l sh wg.controlState := by
  simp [GroupState.laneStep, Workgroup.controlState, Workgroup.applyLane, hl, List.map_set, laneEffect_pos h]

theorem controlState_release (sh : Shape) (wg : Workgroup) :
    (wg.release sh).controlState = GroupState.release sh wg.controlState := by
  simp only [GroupState.release, Workgroup.controlState, Workgroup.release, lanesAtBarrier_eq, map_pos_releasedLanes]

/-! ### The control of a dispatch (41_decode_select R148) -/

/-- The control state of a dispatch, or none: what `State.controlState` gives. -/
abbrev ControlState := Option (Nat × Nat × Nat × List GroupState)

/-- The control state with workgroup `g` changed by `f`, which sees the shape; nothing where there is no such workgroup. -/
def ControlState.onGroup (p : Params) (g : Nat) (f : Shape → GroupState → GroupState) (c : ControlState) : ControlState :=
  c.map fun d => (d.1, d.2.1, d.2.2.1, d.2.2.2.modify g (f (shapeOf p ⟨d.1, d.2.1, d.2.2.1, []⟩)))

/-- A move of the dispatch on its control state; of the host's transactions it says nothing. -/
def ControlState.afterMove (p : Params) (c : ControlState) : Move → ControlState
  | .input => c
  | .lane g l => c.onGroup p g (GroupState.laneStep l)
  | .release g => c.onGroup p g GroupState.release
  | .complete => none

/-- Which moves of the dispatch its control state enables; of the host's transactions it says nothing. -/
def ControlState.enables (p : Params) (c : ControlState) : Move → Bool
  | .input => false
  | .lane g l => c.any fun d => d.2.2.2[g]?.any fun wg => wg.1[l]?.any Pos.canStep
  | .release g => c.any fun d => d.2.2.2[g]?.any fun wg => (List.range (2 ^ p.laneLog)).all wg.2.1.contains
  | .complete => c.any fun d => d.2.2.2.all fun wg => wg.1.all (· = .exit)

theorem controlState_of_engine (he : s.engine = some e) :
    s.controlState = some (e.rows, e.cols, e.width, e.groups.map Workgroup.controlState) := by
  rw [State.controlState, he]; rfl

theorem controlState_putGroup {f : Shape → GroupState → GroupState} {wg' : Workgroup} (he : s.engine = some e)
    (hg : e.groups[g]? = some wg) (h : wg'.controlState = f (shapeOf s.cfg e) wg.controlState) :
    (putGroup s e g wg').controlState = ControlState.onGroup s.cfg g f s.controlState := by
  have hgroups : (e.groups.set g wg').map Workgroup.controlState =
      (e.groups.map Workgroup.controlState).modify g (f (shapeOf s.cfg e)) := by
    refine List.ext_getElem? fun g' => ?_
    rw [List.getElem?_modify, List.getElem?_map, List.getElem?_map, List.getElem?_set]
    by_cases hgg : g = g'
    · subst hgg; simp only [hg, h, if_pos, (List.getElem?_eq_some_iff.1 hg).1, Option.map_some, Option.map_eq_map]
    · simp [hgg]
  rw [controlState_of_engine he]
  exact congrArg (fun groups => some (e.rows, e.cols, e.width, groups)) hgroups

/-- A state without workgroup `g`, or whose workgroup `g` stays as it is under `f`. -/
theorem controlState_onGroup_of_fixed {f : Shape → GroupState → GroupState}
    (h : ∀ e wg, s.engine = some e → e.groups[g]? = some wg → f (shapeOf s.cfg e) wg.controlState = wg.controlState) :
    s.controlState = ControlState.onGroup s.cfg g f s.controlState := by
  cases he : s.engine with
  | none => simp [State.controlState, ControlState.onGroup, he]
  | some e =>
    cases hg : e.groups[g]? with
    | none =>
      rw [controlState_of_engine he, ControlState.onGroup, Option.map_some, List.modify_eq_self (by simpa using hg)]
    | some wg =>
      obtain ⟨_, rfl⟩ := List.getElem?_eq_some_iff.1 hg
      rw [← controlState_putGroup he hg (h e _ he hg).symm, putGroup, List.set_getElem_self, ← he]

/-- Where there is no such lane nothing moves. -/
theorem laneMove_of_absent
    (h : ¬∃ e wg ln, s.engine = some e ∧ e.groups[g]? = some wg ∧ wg.lanes[l]? = some ln) : laneMove g l s = .next s := by
  unfold laneMove
  split
  case h_1 => rfl
  case h_2 e he =>
    split
    case h_1 => rfl
    case h_2 wg hg =>
      split
      case h_1 => rfl
      case h_2 ln hl => exact absurd ⟨e, wg, ln, he, hg, hl⟩ h

theorem laneMove_controlState (h : laneMove g l s = .next t) :
    t.controlState = ControlState.onGroup s.cfg g (GroupState.laneStep l) s.controlState := by
  by_cases hlane : ∃ e wg ln, s.engine = some e ∧ e.groups[g]? = some wg ∧ wg.lanes[l]? = some ln
  · obtain ⟨e, wg, ln, he, hg, hl⟩ := hlane
    rw [laneMove_eq he hg hl] at h
    split at h
    · cases h
    · next eff heff =>
      obtain rfl := Host.Outcome.next.inj h
      exact controlState_putGroup he hg (controlState_applyLane hl heff)
  · obtain rfl := Host.Outcome.next.inj ((laneMove_of_absent hlane).symm.trans h)
    refine controlState_onGroup_of_fixed fun e wg he hg => laneStep_of_absent ?_
    exact Option.eq_none_iff_forall_ne_some.2 fun ln hl => hlane ⟨e, wg, ln, he, hg, hl⟩

theorem releaseMove_controlState (g : Nat) (s : State) :
    (releaseMove g s).controlState = ControlState.onGroup s.cfg g GroupState.release s.controlState := by
  unfold releaseMove
  split
  case h_1 he => exact controlState_onGroup_of_fixed fun _ _ he' _ => absurd (he.symm.trans he') (by simp)
  case h_2 e he =>
    split
    case h_1 hg =>
      refine controlState_onGroup_of_fixed fun e' wg he' hg' => ?_
      obtain rfl := Option.some.inj (he.symm.trans he')
      exact absurd (hg.symm.trans hg') (by simp)
    case h_2 wg hg => exact controlState_putGroup he hg (controlState_release _ wg)

/-- What a move of the dispatch leaves of the control state is a function of the control state and the parameters. -/
theorem performMove_controlState {m : Move} (hm : m ≠ .input) (h : performMove m s = .next t) :
    t.controlState = ControlState.afterMove s.cfg s.controlState m := by
  cases m
  case input => exact absurd rfl hm
  case lane g l => exact laneMove_controlState h
  case release g => obtain rfl := Host.Outcome.next.inj h; exact releaseMove_controlState g s
  case complete => obtain rfl := Host.Outcome.next.inj h; rfl

/-- So is whether the move is enabled. -/
theorem moveEnabled_eq_enables {m : Move} (hm : m ≠ .input) :
    moveEnabled s m = ControlState.enables s.cfg s.controlState m := by
  rw [Bool.eq_iff_iff]
  cases m
  case input => exact absurd rfl hm
  case lane g l =>
    rw [moveEnabled_lane]
    simp [ControlState.enables, State.controlState, Workgroup.controlState, Option.any_eq_true]
  case release g =>
    rw [moveEnabled_release]
    simp [ControlState.enables, State.controlState, Workgroup.controlState, Option.any_eq_true, allArrived_iff, Shape.lanes,
      shapeOf]
  case complete =>
    rw [moveEnabled_complete]
    simp [ControlState.enables, State.controlState, Workgroup.controlState, Option.any_eq_true, EngineRun.finished,
      List.all_map, Function.comp_def, -List.all_eq_true]

end

/-! ### The statements -/

/-- Settles O34: the two decoders read the same code from a slot, and the select agrees with `dec` on every code. -/
theorem engineDecodeAgreesWithUnpack : Obligations.EngineDecodeAgreesWithUnpack := by
  unfold Obligations.EngineDecodeAgreesWithUnpack
  intro W w k x _ _ hk
  refine ⟨dec (slotCode w k), (unpackWord_getElem? W w k).trans (if_pos hk), ?_⟩
  rw [extractCode_eq_slotCode, selectContribution_eq_of_dec]

/-- Settles O36: +0.0 adds what -0.0 adds, which is nothing, except to a zero; and +0.0 + +0.0 is +0.0. -/
theorem addingPosZeroChangesNothing : Obligations.AddingPosZeroChangesNothing := by
  unfold Obligations.AddingPosZeroChangesNothing
  exact fun nan _ => ieeeAdd_posZero nan

/-- Settles O46: two states alike in control state and parameters are alike to `enables` and to `afterMove`. -/
theorem controlDoesNotDependOnData : Obligations.ControlDoesNotDependOnData := by
  unfold Obligations.ControlDoesNotDependOnData
  refine fun s s' m hm hcfg hcontrol => ⟨?_, fun t t' ht ht' => ?_⟩
  · rw [moveEnabled_eq_enables hm, moveEnabled_eq_enables hm, hcfg, hcontrol]
  · rw [performMove_controlState hm ht, performMove_controlState hm ht', hcfg, hcontrol]

/-- Settles O32: the masks by their table; each code's contribution by its masks. -/
theorem maskAndSelectTables : Obligations.MaskAndSelectTables := by
  unfold Obligations.MaskAndSelectTables
  exact ⟨rfl, rfl, rfl, rfl, fun x => ⟨selectContribution_of_masks_zero rfl x, selectContribution_of_addMask rfl x,
    selectContribution_of_subMask rfl x, selectContribution_of_masks_zero rfl x⟩⟩

end Sys2Proof.Machine

namespace Sys2Proof.Machine

/-! The reference kernel (42_reference_kernel): the symmetry of the default `fadd` and what +0.0 adds to, the weight the codec
gives a column, the reference on a single weight; and the statements of family 42_reference_kernel. -/

/-! ### The default `fadd` with +0.0 on its left (00_scope R8) -/

/-- The default `fadd` is symmetric: two infinities of one sign are one pattern, and every other case treats its operands
alike. -/
theorem ieeeAdd_comm (nan a b : F32) : ieeeAdd nan a b = ieeeAdd nan b a := by
  by_cases hnan : isNaN a = true ∨ isNaN b = true
  · rw [ieeeAdd_of_isNaN hnan, ieeeAdd_of_isNaN hnan.symm]
  simp only [not_or, Bool.not_eq_true] at hnan
  obtain ⟨hna, hnb⟩ := hnan
  by_cases ha : isInf a = true
  · by_cases hopp : b = a ^^^ 0x80000000#32
    · rcases (isInf_iff a).1 ha with rfl | rfl <;> rw [hopp] <;> rfl
    · obtain ⟨hab, hba⟩ := ieeeAdd_of_isInf (nan := nan) ha hnb hopp
      rw [hab, hba]
  · by_cases hb : isInf b = true
    · simp [ieeeAdd, hna, hnb, ha, hb]
    · simp only [ieeeAdd, hna, hnb, ha, hb, Int.add_comm (f32Units a), Bool.and_comm (f32Sign a), Bool.or_self,
        Bool.false_eq_true, if_false]

/-- Added to the accumulator's start, +0.0, every pattern but a NaN and -0.0 comes out as it is. -/
theorem ieeeAdd_posZero_left (nan : F32) {x : F32} (hnan : isNaN x = false) :
    ieeeAdd nan f32PosZero x = if x = f32NegZero then f32PosZero else x := by
  split
  · next hx => rw [hx, ieeeAdd_negZero nan (by decide)]
  · next hx => rw [ieeeAdd_comm, ieeeAdd_posZero nan hnan hx]

/-- `fneg` flips bit 31 and no other. -/
theorem toNat_fneg_mod (x : F32) : (fneg x).toNat % 2 ^ 31 = x.toNat % 2 ^ 31 := by
  rw [fneg, BitVec.toNat_xor, Nat.xor_mod_two_pow]
  exact Nat.xor_zero _

theorem isNaN_fneg (x : F32) : isNaN (fneg x) = isNaN x := by
  have hmod := toNat_fneg_mod x
  have hexp : f32Exp (fneg x) = f32Exp x := by unfold f32Exp; omega
  have hfrac : f32Frac (fneg x) = f32Frac x := by unfold f32Frac; omega
  rw [isNaN, isNaN, hexp, hfrac]

/-! ### The reference on a single weight (42_reference_kernel R160) -/

/-- The weight of a column is the code in its slot; the bits above the width do not show in it. -/
theorem weightAt_eq_dec {W : Nat} (hW2 : 2 ≤ W) (hW : W ≤ 32) (C : Nat) (ws : List Word) (r c : Nat) :
    weightAt W C ws r c =
      dec (slotCode (ws.getD (r * wordsPerRow W C + c / codesPerWord W) 0) (c % codesPerWord W)) := by
  have hk : c % codesPerWord W < codesPerWord W := Nat.mod_lt _ (codesPerWord_pos hW2)
  simp only [weightAt]
  rw [List.getD_eq_getElem?_getD, unpackWord_getElem?, if_pos hk, Option.getD_some, slotCode_lowWord W _ _ hW hk]

theorem wordsPerRow_one {W : Nat} (hW2 : 2 ≤ W) : wordsPerRow W 1 = 1 := by
  have hK := codesPerWord_pos hW2
  exact Nat.le_antisymm ((divCeil_le_iff hK).2 (by omega)) ((lt_divCeil_iff hK).2 (by omega))

/-- A 1-by-1 matrix is one step of the reference kernel from +0.0, with the code in slot 0 of the one word. -/
theorem refMV_one_by_one (add : F32 → F32 → F32) {W : Nat} (hW2 : 2 ≤ W) (hW : W ≤ 32) (w : Word) (x : F32) :
    refMV add W 1 1 [w] [x] = .ok [refStep add f32PosZero (dec (slotCode w 0)) x] := by
  have hweight : weightAt W 1 [w] 0 0 = dec (slotCode w 0) := by
    rw [weightAt_eq_dec hW2 hW, Nat.zero_div, Nat.zero_mod, Nat.zero_mul]
    rfl
  simp [refMV, widthBad_eq_false.2 ⟨hW2, hW⟩, wordsPerRow_one hW2, refRow, hweight]

/-! ### The statements -/

/-- Settles O38: the one step from +0.0 adds `x`, adds `-x`, or skips. -/
theorem oneByOneReference : Obligations.OneByOneReference := by
  unfold Obligations.OneByOneReference
  intro W x hW2 hW hnan noNegZero
  simp only [refMV_one_by_one _ hW2 hW]
  refine ⟨?_, ?_, rfl⟩
  · have hstep : refStep (plainAdd .ieee) f32PosZero (dec (slotCode 0x00000001#32 0)) x = noNegZero x :=
      ieeeAdd_posZero_left _ hnan
    rw [hstep]
  · have hstep : refStep (plainAdd .ieee) f32PosZero (dec (slotCode 0x00000002#32 0)) x = noNegZero (fneg x) :=
      ieeeAdd_posZero_left _ ((isNaN_fneg x).trans hnan)
    rw [hstep]

end Sys2Proof.Machine

namespace Sys2Proof.Machine

/-! The parallel kernel (43_parallel_kernel): the value invariant through every move; a dispatch's moves, which are never all
disabled and each lower its work; the run of a launched dispatch to its end; the closed form against the reference kernel; each
micro-step of a lane by what it reads; and the statements of family 43_parallel_kernel. -/

section

variable {s t : State} {e : EngineRun} {sh : Shape} {wg : Workgroup} {ln : Lane} {eff : LaneEffect} {nan : F32} {g l : Nat}

/-! ### The value invariant through every move (43_parallel_kernel R184, R185) -/

/-- A workgroup's values speak of the parameters, the two sources, and the row's element of YBUF only. -/
theorem GroupValues.congr (h : GroupValues s sh g wg) (hcfg : t.cfg = s.cfg) (hw : t.wbuf = s.wbuf) (hx : t.xbuf = s.xbuf)
    (hy : Memory.read t.ybuf g = Memory.read s.ybuf g) : GroupValues t sh g wg := by
  obtain ⟨heach, hwritten⟩ := h
  rw [← hcfg, ← hw, ← hx] at heach hwritten
  rw [← hy] at hwritten
  exact ⟨heach, hwritten⟩

/-- A new workgroup holds no value, so nothing is asked of it. -/
theorem groupValues_newGroup (s : State) (sh : Shape) (g : Nat) (p : Params) : GroupValues s sh g (newGroup p) := by
  refine ⟨fun l ln hl => ?_, fun ln hl hexit => ?_⟩ <;> rw [newGroup_lane hl] at *
  · exact ⟨nofun, trivial, nofun⟩
  · cases hexit

/-- After a micro-step a lane is the one that moved, or as it was. -/
theorem applyLane_lane_cases {l' : Nat} {ln' : Lane} (h : (wg.applyLane l eff).lanes[l']? = some ln') :
    (l = l' ∧ ln' = { pos := eff.pos, acc := eff.acc }) ∨ (l ≠ l' ∧ wg.lanes[l']? = some ln') := by
  rw [applyLane_lane] at h
  split at h
  · next heq =>
    split at h
    · exact .inl ⟨heq, (Option.some.inj h).symm⟩
    · cases h
  · next hne => exact .inr ⟨hne, h⟩

/-- Only WRITE ends at EXIT. -/
theorem Pos.afterStep_ne_exit {p : Pos} (hc : p.canStep = true) (hp : p ≠ .write) : p.afterStep sh l ≠ .exit := by
  cases p <;> simp only [Pos.afterStep, afterInit, loadStart, afterLoad, afterAcc, accFrom]
  case write => exact absurd rfl hp
  case exit => cases hc
  all_goals (repeat' split) <;> exact nofun

/-- A micro-step is WRITE, which stores element 0 of the scratch and ends at EXIT, or it does neither. -/
theorem laneEffect_write_or_not (hc : ln.pos.canStep = true) (h : laneEffect sh nan s g l wg ln = .ok eff) :
    (ln.pos = .write ∧ ∃ v, Memory.read wg.shmR 0 = some v ∧ eff.ybuf = Memory.write s.ybuf g v) ∨
    (eff.pos ≠ .exit ∧ ln.pos ≠ .write ∧ eff.ybuf = s.ybuf) := by
  have hexit (hp : ln.pos ≠ .write) : eff.pos ≠ .exit := laneEffect_pos h ▸ Pos.afterStep_ne_exit hc hp
  rcases laneEffect_ok hc h with ⟨hp, rfl⟩ | ⟨_, _, _, hp, -, rfl⟩ | ⟨_, _, _, _, _, _, hp, -, -, -, rfl⟩ | ⟨_, hp, -, rfl⟩ |
    ⟨_, _, _, hp, -, -, -, rfl⟩ | ⟨_, hp, -, rfl⟩ | ⟨v, hp, hv, rfl⟩
  case inr.inr.inr.inr.inr.inr => exact .inl ⟨hp, v, hv, rfl⟩
  all_goals exact .inr ⟨hexit (by rw [hp]; exact nofun), by rw [hp]; exact nofun, rfl⟩

/-- A micro-step keeps the values of its workgroup: the lane's own, the other lanes', and the output element. -/
theorem GroupValues.applyLane (hV : GroupValues s sh g wg) (hK : 2 ≤ sh.width) (hT : 0 < sh.tileWords) (hn : isNaN nan = true)
    (hG : GroupControl sh wg) (hl : wg.lanes[l]? = some ln) (hc : ln.pos.canStep = true)
    (h : laneEffect sh nan s g l wg ln = .ok eff) :
    GroupValues { s with ybuf := eff.ybuf } sh g (wg.applyLane l eff) := by
  refine ⟨fun l' ln' hl' => ?_, fun ln' hl' hexit => ?_⟩ <;>
    rcases applyLane_lane_cases hl' with ⟨rfl, rfl⟩ | ⟨hne, hl'⟩
  · exact moved_values (s := s) hK hT rfl hn hG hl hc hV.each h
  · exact other_values hG hl hc h hl' hne (hV.each l' ln' hl')
  · rcases laneEffect_write_or_not hc h with ⟨hp, v, hv, hy⟩ | ⟨hne, -⟩
    · obtain ⟨v', hv', hagrees⟩ := (hV.each 0 ln hl).scratch sh.laneLog (by rw [hp]; rfl)
      obtain rfl := Option.some.inj (hv.symm.trans hv')
      exact ⟨v, (congrArg (Memory.read · g) hy).trans (Memory.read_write_same _ _ _), hagrees⟩
    · exact absurd hexit hne
  · rcases laneEffect_write_or_not hc h with ⟨hp, -⟩ | ⟨-, -, hy⟩
    · have hlegal := (hG.each l ln hl).legal
      rw [hp] at hlegal
      exact absurd (of_decide_eq_true hlegal) hne
    · rw [hy]; exact hV.written ln' hl' hexit

/-- A release keeps the values of its workgroup; no lane goes from a barrier straight to EXIT but those that do not write. -/
theorem GroupValues.release (hV : GroupValues s sh g wg) (hK : 2 ≤ sh.width) (hT : 0 < sh.tileWords) (hG : GroupControl sh wg)
    (hall : wg.allArrived sh = true) : GroupValues s sh g (wg.release sh) := by
  have hlane : ∀ {l : Nat} {ln : Lane}, (wg.release sh).lanes[l]? = some ln →
      ∃ ln0, wg.lanes[l]? = some ln0 ∧ { ln0 with pos := afterBarrier sh l ln0.pos } = ln := fun h => by
    rwa [release_lane, Option.map_eq_some_iff] at h
  refine ⟨fun l ln hl => ?_, fun ln hl hexit => ?_⟩ <;> obtain ⟨ln0, hl0, rfl⟩ := hlane hl
  · exact release_values hK hT hG hall hl0 hV.each
  · exact absurd hexit (afterBarrier_ne_exit (hG.atBarrier_of_allArrived hall hl0))

/-- Without a dispatch the value invariant is the control invariant. -/
theorem ValueInv.of_no_run (h : ControlInv s) (hrun : s.engine = none) : ValueInv s :=
  ⟨h, fun e he => absurd (hrun.symm.trans he) (by simp)⟩

/-- The value invariant speaks of the dispatch, the parameters, the two sources and YBUF, beside the control invariant. -/
theorem ValueInv.congr (h : ValueInv s) (ht : ControlInv t) (hrun : t.engine = s.engine) (hcfg : t.cfg = s.cfg)
    (hw : t.wbuf = s.wbuf) (hx : t.xbuf = s.xbuf) (hy : t.ybuf = s.ybuf) : ValueInv t := by
  refine ⟨ht, fun e he g wg hg => ?_⟩
  rw [hcfg]
  exact (h.values e (hrun ▸ he) g wg hg).congr hcfg hw hx (by rw [hy])

/-- A workgroup replaced by one with its values in order, and of YBUF at most its element. -/
theorem ValueInv.putGroup {wg' : Workgroup} {ybuf : Memory 32} (h : ValueInv s) (he : s.engine = some e)
    (ht : ControlInv { putGroup s e g wg' with ybuf := ybuf })
    (hV : GroupValues { s with ybuf := ybuf } (shapeOf s.cfg e) g wg')
    (hy : ∀ r, r ≠ g → Memory.read ybuf r = Memory.read s.ybuf r) : ValueInv { putGroup s e g wg' with ybuf := ybuf } := by
  refine ⟨ht, fun e' he' g' wg hg' => ?_⟩
  obtain rfl := Option.some.inj he'
  by_cases hgg : g = g'
  · subst hgg
    have hlt : g < e.groups.length := by simpa using (List.getElem?_eq_some_iff.1 hg').1
    obtain rfl := Option.some.inj ((List.getElem?_set_self hlt).symm.trans hg')
    exact hV.congr rfl rfl rfl rfl
  · rw [List.getElem?_set_ne hgg] at hg'
    exact (h.values e he g' wg hg').congr rfl rfl rfl (hy g' (Ne.symm hgg))

theorem laneMove_keeps_valueInv (h : ValueInv s) (hm : moveEnabled s (.lane g l) = true) (ht : laneMove g l s = .next t) :
    ValueInv t := by
  have hcontrol := laneMove_keeps_controlInv h.control hm ht
  obtain ⟨e, wg, ln, eff, he, hg, hl, hc, heff, rfl⟩ := laneMove_next ht hm
  have hR := h.control.run e he
  exact h.putGroup he hcontrol ((h.values e he g wg hg).applyLane (dims_ok hR).1 (tileWordCount_pos _ _) (isNaN_drawnNaN _)
    (hR.each g wg hg) hl hc heff) fun r hr => laneEffect_ybuf_other heff hr

theorem releaseMove_keeps_valueInv (h : ValueInv s) (hm : moveEnabled s (.release g) = true) : ValueInv (releaseMove g s) := by
  have hcontrol := releaseMove_keeps_controlInv h.control hm
  obtain ⟨e, wg, he, hg, hall⟩ := moveEnabled_release.1 hm
  have hR := h.control.run e he
  rw [releaseMove_eq he hg] at hcontrol ⊢
  exact h.putGroup he hcontrol ((h.values e he g wg hg).release (dims_ok hR).1 (tileWordCount_pos _ _) (hR.each g wg hg) hall)
    fun _ _ => rfl

/-- A dispatch begins with every workgroup new. -/
theorem valueInv_launch (s : State) (h : ControlInv (launch s)) : ValueInv (launch s) := by
  refine ⟨h, fun e he g wg hg => ?_⟩
  obtain rfl := Option.some.inj he
  obtain rfl := List.eq_of_mem_replicate (List.mem_of_getElem? hg)
  exact groupValues_newGroup _ _ _ _

/-- A transaction of the host on an idle block leaves no dispatch, or launches one. -/
theorem InputEnd.run_of_no_run {inp : Input} (h : InputEnd s inp t) (hrun : s.engine = none) :
    t.engine = none ∨ ∃ u, t = launch u := by
  cases h
  case port | stored => exact .inl hrun
  case register i v hi => exact .inl ((writeCR_engine s i v).trans hrun)
  case reset => exact .inl rfl
  case command w hend =>
    cases hend
    case emptyRun => exact .inl rfl
    case launched => exact .inr ⟨_, rfl⟩
    all_goals exact .inl hrun

theorem takeInput_keeps_valueInv (h : ValueInv s) (ht : takeInput s = .next t) : ValueInv t := by
  have hcontrol := takeInput_keeps_controlInv h.control ht
  rcases takeInput_next ht with ⟨-, rfl⟩ | ⟨inp, rest, -, -, ht⟩
  · exact h
  cases hb : s.status.busy
  case true =>
    rcases runInput_busy (s := { s with inbox := rest }) hb ht with ⟨-, rfl⟩ | ht
    · exact .of_no_run hcontrol rfl
    · refine h.congr hcontrol ?_ ?_ ?_ ?_ ?_ <;> rw [ht]
  case false =>
    rcases (runInput_inputEnd ht).run_of_no_run (h.control.status.no_run hb) with hrun | ⟨u, rfl⟩
    · exact .of_no_run hcontrol hrun
    · exact valueInv_launch u hcontrol

theorem performMove_keeps_valueInv {m : Move} (h : ValueInv s) (hm : moveEnabled s m = true) (ht : performMove m s = .next t) :
    ValueInv t := by
  cases m
  case input => exact takeInput_keeps_valueInv h ht
  case lane g l => exact laneMove_keeps_valueInv h hm ht
  case release g => obtain rfl := Host.Outcome.next.inj ht; exact releaseMove_keeps_valueInv h hm
  case complete =>
    obtain rfl := Host.Outcome.next.inj ht
    exact .of_no_run (completeRun_keeps_controlInv h.control hm) rfl

/-- The model's own fields are no part of the values. -/
theorem ValueInv.on_fresh_draws (h : ValueInv s) : ValueInv (drawNext s) :=
  h.congr (h.control.model_fields s.inbox s.readData _ _) rfl rfl rfl rfl rfl

/-! ### The end of a dispatch (43_parallel_kernel R183, R185) -/

/-- In a finished dispatch every row's output element holds the closed form. -/
theorem ValueInv.output_of_finished (h : ValueInv s) (he : s.engine = some e) (hfin : e.finished = true) {r : Nat}
    (hr : r < e.rows) : ∃ v, Memory.read s.ybuf r = some v ∧ F32.agrees s.cfg.adder v (expectedOutput s (shapeOf s.cfg e) r) := by
  have hR := h.control.run e he
  obtain ⟨wg, hg⟩ : ∃ wg, e.groups[r]? = some wg := ⟨_, List.getElem?_eq_getElem (hR.groups ▸ hr)⟩
  obtain ⟨ln, hl⟩ := (hR.each r _ hg).lane_exists (Shape.lanes_pos _)
  have hexit := finished_iff.1 hfin _ (List.mem_of_getElem? hg) ln (List.mem_of_getElem? hl)
  obtain ⟨v, hv, hagrees⟩ := (h.values e he r _ hg).written ln hl hexit
  rw [treeLevel_congr fun _ => slotSum_eq_lanePartial (Shape.codes_pos (dims_ok hR).1)] at hagrees
  exact ⟨v, hv, hagrees⟩

end

section

variable {s t : State} {e : EngineRun} {sh : Shape} {wg wg' : Workgroup} {ln : Lane} {eff : LaneEffect} {nan : F32} {g l : Nat}

/-! ### No deadlock (43_parallel_kernel R191) -/

theorem Pos.atBarrier_or_exit_of_not_canStep {p : Pos} (h : p.canStep = false) : p.atBarrier = true ∨ p = .exit := by
  cases p
  case barLoad | barAcc | barPub | barRed => exact .inl rfl
  case exit => exact .inr rfl
  all_goals cases h

/-- A lane at a barrier has a barrier still to pass. -/
theorem barriersPassed_lt_of_atBarrier {p : Pos} (hlegal : p.legal sh l = true) (hb : p.atBarrier = true) :
    p.barriersPassed sh < 2 * sh.tiles + 1 + sh.laneLog := by
  cases p <;> simp only [Pos.barriersPassed]
  case barLoad tt | barAcc tt => have : tt < sh.tiles := of_decide_eq_true hlegal; omega
  case barPub | barRed => omega
  all_goals cases hb

/-- A workgroup with a lane not yet at EXIT has a lane that can step, or its barrier is full: no lane is at EXIT while another
waits at a barrier, since they have passed equally many. -/
theorem GroupControl.can_move (hG : GroupControl sh wg) (hl : wg.lanes[l]? = some ln) (hne : ln.pos ≠ .exit) :
    (∃ (l : Nat) (ln : Lane), wg.lanes[l]? = some ln ∧ ln.pos.canStep = true) ∨ wg.allArrived sh = true := by
  by_cases hstep : ∃ (l : Nat) (ln : Lane), wg.lanes[l]? = some ln ∧ ln.pos.canStep = true
  · exact .inl hstep
  have hwait : ∀ {l : Nat} {ln : Lane}, wg.lanes[l]? = some ln → ln.pos.atBarrier = true ∨ ln.pos = .exit := fun {l ln} hl =>
    Pos.atBarrier_or_exit_of_not_canStep (Bool.eq_false_iff.2 fun hc => hstep ⟨l, ln, hl, hc⟩)
  have hlt : wg.gen < 2 * sh.tiles + 1 + sh.laneLog := by
    obtain ⟨hlegal, hphase, -⟩ := hG.each l ln hl
    exact hphase ▸ barriersPassed_lt_of_atBarrier hlegal ((hwait hl).resolve_right hne)
  refine .inr (allArrived_iff.2 fun l' hl' => ?_)
  obtain ⟨ln', hln'⟩ := hG.lane_exists hl'
  rw [hG.arrived, mem_lanesAtBarrier]
  refine ⟨ln', hln', (hwait hln').resolve_right fun hexit => ?_⟩
  have hphase := (hG.each l' ln' hln').phase
  rw [hexit] at hphase
  exact absurd hphase (Nat.ne_of_gt hlt)

/-- A dispatch that is not finished has a lane not yet at EXIT. -/
theorem exists_lane_of_not_finished (h : e.finished ≠ true) :
    ∃ (g : Nat) (wg : Workgroup) (l : Nat) (ln : Lane),
      e.groups[g]? = some wg ∧ wg.lanes[l]? = some ln ∧ ln.pos ≠ .exit := by
  rw [ne_eq, finished_iff] at h
  push Not at h
  obtain ⟨wg, hwg, ln, hln, hne⟩ := h
  obtain ⟨g, hg⟩ := List.mem_iff_getElem?.1 hwg
  obtain ⟨l, hl⟩ := List.mem_iff_getElem?.1 hln
  exact ⟨g, wg, l, ln, hg, hl, hne⟩

/-- A dispatch in progress can complete, or a workgroup of it can move. -/
theorem ControlInv.exists_engine_move (h : ControlInv s) (he : s.engine = some e) : ∃ m ∈ enabledMoves s, m ≠ .input := by
  by_cases hfin : e.finished = true
  · exact ⟨.complete, mem_enabledMoves_complete (moveEnabled_complete.2 ⟨e, he, hfin⟩), nofun⟩
  obtain ⟨g, wg, l, ln, hg, hl, hne⟩ := exists_lane_of_not_finished hfin
  have hG := (h.run e he).each g wg hg
  rcases hG.can_move hl hne with ⟨l, ln, hl, hc⟩ | hall
  · exact ⟨.lane g l, mem_enabledMoves_lane (moveEnabled_lane.2 ⟨e, wg, ln, he, hg, hl, hc⟩) (hG.lane_lt hl), nofun⟩
  · exact ⟨.release g, mem_enabledMoves_release (moveEnabled_release.2 ⟨e, wg, he, hg, hall⟩), nofun⟩

/-! ### No livelock (43_parallel_kernel R191) -/

/-- No lane has more micro-steps before its next barrier than at INIT. -/
theorem stepsInPhase_le {p : Pos} : p.stepsInPhase sh ≤ sh.tile + 2 := by
  cases p <;> simp only [Pos.stepsInPhase]
  case acc tt jw k =>
    have := Nat.mul_le_mul_right sh.codes (Nat.sub_le sh.tileWords jw)
    unfold Shape.tile
    omega
  all_goals omega

/-- The accumulate phase from a later tile word on has fewer micro-steps left. -/
theorem stepsInPhase_accFrom_le (sh : Shape) (tt jw : Nat) :
    (accFrom sh tt jw).stepsInPhase sh ≤ (sh.tileWords - jw) * sh.codes := by
  unfold accFrom
  split
  · exact Nat.sub_le _ _
  · exact Nat.zero_le _

/-- A micro-step leaves fewer micro-steps before the next barrier. -/
theorem stepsInPhase_afterStep_lt {p : Pos} (hlegal : p.legal sh l = true) (hc : p.canStep = true) :
    (p.afterStep sh l).stepsInPhase sh < p.stepsInPhase sh := by
  have hL := sh.lanes_pos
  cases p <;> simp only [Pos.afterStep]
  case init =>
    unfold afterInit loadStart
    split
    · simp only [Pos.stepsInPhase]; omega
    · split <;> simp only [Pos.stepsInPhase] <;> omega
  case load tt i =>
    obtain ⟨-, hi, -⟩ := Pos.legal_load.1 hlegal
    unfold afterLoad
    split <;> simp only [Pos.stepsInPhase] <;> omega
  case acc tt jw k =>
    obtain ⟨-, hjw, -, -, hk⟩ := Pos.legal_acc.1 hlegal
    have hword : (sh.tileWords - jw) * sh.codes = (sh.tileWords - (jw + 1)) * sh.codes + sh.codes := by
      rw [← Nat.succ_mul]; congr 1; omega
    unfold afterAcc
    split
    · simp only [Pos.stepsInPhase]; omega
    · have hle := stepsInPhase_accFrom_le sh tt (jw + sh.lanes)
      have := Nat.mul_le_mul_right sh.codes (show sh.tileWords - (jw + sh.lanes) ≤ sh.tileWords - (jw + 1) by omega)
      show _ < (sh.tileWords - jw) * sh.codes - k
      omega
  case publish | red | write => exact Nat.one_pos
  all_goals cases hc

/-- Fewer micro-steps before the same barrier are less work. -/
theorem workLeft_lt_of_same_phase {p q : Pos} (hphase : q.barriersPassed sh = p.barriersPassed sh)
    (hsteps : q.stepsInPhase sh < p.stepsInPhase sh) : q.workLeft sh < p.workLeft sh := by
  unfold Pos.workLeft
  rw [hphase]
  omega

/-- A barrier passed outweighs all the micro-steps of the phase after it. -/
theorem afterBarrier_workLeft_lt {p : Pos} (hK : 0 < sh.codes) (hl : l < sh.lanes) (hlegal : p.legal sh l = true)
    (hb : p.atBarrier = true) : (afterBarrier sh l p).workLeft sh < p.workLeft sh := by
  have hlt := barriersPassed_lt_of_atBarrier hlegal hb
  have hsteps := stepsInPhase_le (sh := sh) (p := afterBarrier sh l p)
  unfold Pos.workLeft
  rw [(afterBarrier_legal hK hl hlegal hb).2]
  have hmul : (2 * sh.tiles + 1 + sh.laneLog - p.barriersPassed sh) * (sh.tile + 3) =
      (2 * sh.tiles + 1 + sh.laneLog - (p.barriersPassed sh + 1)) * (sh.tile + 3) + (sh.tile + 3) := by
    rw [← Nat.succ_mul]; congr 1; omega
  omega

/-- The work a workgroup has left: what `EngineRun.workLeft` adds up. -/
def Workgroup.workLeft (sh : Shape) (wg : Workgroup) : Nat := (wg.lanes.map fun ln => ln.pos.workLeft sh).sum

theorem EngineRun.workLeft_eq (sh : Shape) (e : EngineRun) : e.workLeft sh = (e.groups.map (Workgroup.workLeft sh)).sum := rfl

theorem State.workLeft_of_run (he : s.engine = some e) : s.workLeft = e.workLeft (shapeOf s.cfg e) + 1 := by
  rw [State.workLeft, he]

theorem State.workLeft_of_no_run (he : s.engine = none) : s.workLeft = 0 := by
  rw [State.workLeft, he]

/-- An element of a list made smaller makes the sum smaller. -/
theorem sum_set_lt {xs : List Nat} {i a b : Nat} (h : xs[i]? = some a) (hb : b < a) : (xs.set i b).sum < xs.sum := by
  obtain ⟨hi, rfl⟩ := List.getElem?_eq_some_iff.1 h
  have hold := List.sum_set xs i xs[i]
  rw [List.set_getElem_self] at hold
  rw [List.sum_set, hold, if_pos hi, if_pos hi]
  omega

theorem applyLane_workLeft_lt (hG : GroupControl sh wg) (hl : wg.lanes[l]? = some ln) (hc : ln.pos.canStep = true)
    (h : laneEffect sh nan s g l wg ln = .ok eff) : (wg.applyLane l eff).workLeft sh < wg.workLeft sh := by
  have hL := hG.each l ln hl
  have hsteps := stepsInPhase_afterStep_lt (l := l) hL.legal hc
  rw [← laneEffect_pos h] at hsteps
  have hlane := workLeft_lt_of_same_phase ((laneEffect_control hc h (hG.lane_lt hl) hL).phase.trans hL.phase.symm) hsteps
  unfold Workgroup.workLeft
  rw [Workgroup.applyLane_lanes, List.map_set]
  exact sum_set_lt (by rw [List.getElem?_map, hl]; rfl) hlane

theorem release_workLeft_lt (hK : 0 < sh.codes) (hG : GroupControl sh wg) (hall : wg.allArrived sh = true) :
    (wg.release sh).workLeft sh < wg.workLeft sh := by
  have hne : wg.lanes.zipIdx ≠ [] := by
    rw [ne_eq, List.zipIdx_eq_nil_iff, ← List.length_eq_zero_iff, hG.lanes]
    exact Nat.ne_of_gt sh.lanes_pos
  have hold : wg.workLeft sh = (wg.lanes.zipIdx.map fun p => p.1.pos.workLeft sh).sum := by
    rw [Workgroup.workLeft, ← List.zipIdx_map_fst 0 wg.lanes, List.map_map, List.zipIdx_map_fst]
    rfl
  rw [hold, Workgroup.workLeft, Workgroup.release_lanes, releasedLanes, List.mapIdx_eq_zipIdx_map, List.map_map]
  refine List.sum_lt_sum_of_ne_nil hne _ _ fun ⟨ln, l⟩ hmem => ?_
  have hl : wg.lanes[l]? = some ln := List.mem_zipIdx_iff_getElem?.1 hmem
  exact afterBarrier_workLeft_lt hK (hG.lane_lt hl) (hG.each l ln hl).legal (hG.atBarrier_of_allArrived hall hl)

/-- Less work in one workgroup is less work in the dispatch. -/
theorem putGroup_workLeft_lt {ybuf : Memory 32} (he : s.engine = some e) (hg : e.groups[g]? = some wg)
    (h : wg'.workLeft (shapeOf s.cfg e) < wg.workLeft (shapeOf s.cfg e)) :
    State.workLeft { putGroup s e g wg' with ybuf := ybuf } < s.workLeft := by
  rw [State.workLeft_of_run he, State.workLeft_of_run rfl]
  refine Nat.succ_lt_succ ?_
  rw [EngineRun.workLeft_eq, EngineRun.workLeft_eq, List.map_set]
  exact sum_set_lt (by rw [List.getElem?_map, hg]; rfl) h

/-- Every move of a dispatch lowers the work left. -/
theorem performMove_workLeft_lt {m : Move} (h : ControlInv s) (hm : moveEnabled s m = true) (hne : m ≠ .input)
    (ht : performMove m s = .next t) : t.workLeft < s.workLeft := by
  cases m
  case input => exact absurd rfl hne
  case lane g l =>
    obtain ⟨e, wg, ln, eff, he, hg, hl, hc, heff, rfl⟩ := laneMove_next ht hm
    exact putGroup_workLeft_lt he hg (applyLane_workLeft_lt ((h.run e he).each g wg hg) hl hc heff)
  case release g =>
    obtain ⟨e, wg, he, hg, hall⟩ := moveEnabled_release.1 hm
    have hR := h.run e he
    obtain rfl := Host.Outcome.next.inj ht
    rw [releaseMove_eq he hg]
    exact putGroup_workLeft_lt he hg (release_workLeft_lt (Shape.codes_pos (dims_ok hR).1) (hR.each g wg hg) hall)
  case complete =>
    obtain ⟨e, he, -⟩ := moveEnabled_complete.1 hm
    obtain rfl := Host.Outcome.next.inj ht
    rw [State.workLeft_of_run he, State.workLeft_of_no_run rfl]
    exact Nat.succ_pos _

/-- While a dispatch is in progress a transaction leaves its work as it is, and the reset event ends it. -/
theorem takeInput_workLeft_le (hb : s.status.busy = true) (ht : takeInput s = .next t) : t.workLeft ≤ s.workLeft := by
  rcases takeInput_next ht with ⟨-, rfl⟩ | ⟨inp, rest, -, -, ht⟩
  · exact Nat.le_refl _
  · rcases runInput_busy (s := { s with inbox := rest }) hb ht with ⟨-, rfl⟩ | ht
    · rw [State.workLeft_of_no_run rfl]; exact Nat.zero_le _
    · rw [ht]; exact Nat.le_refl _

end

section

variable {s t u : State} {e : EngineRun} {g : Nat}

/-! ### RUNMV with its checks passed (43_parallel_kernel R170, R187) -/

theorem exec_runmv_of_check (hb : s.status.busy = false) (he : s.status.err = false) (hc : runmvCheck s = none) :
    exec .runmv s = .next (startRun { s with status := s.status.dropDone }) := by
  have hc : runmvCheck { s with status := s.status.dropDone } = none := hc
  rw [exec, execRunmv, acceptOperation_of_idle hb he, runRunmv, hc]

/-- STATUS after the launch, which is accepted without an error. -/
theorem Status.setBusy_dropDone {st : Status} (herr : st.err = false) :
    st.dropDone.setBusy = { busy := true, done := false, err := false, ecode := st.ecode } := by
  rw [Status.dropDone, Status.setBusy, herr]

theorem completeRun_launch (s : State) :
    completeRun (launch s) = { s with status := s.status.setBusy.endDispatch, engine := none } := rfl

/-! ### The run of a launched dispatch (43_parallel_kernel R183, R191, 70_reset_and_hazards R280, R281) -/

/-- A state without what its dispatch changes: STATUS, YBUF, the dispatch itself, the schedule and the draws; and without the
host's coming transactions. -/
def State.besideDispatch (s : State) : State :=
  { s with status := State.reset.status, ybuf := [], engine := none, inbox := [], pick := 0, draws := 0 }

theorem eq_of_besideDispatch (h : t.besideDispatch = s.besideDispatch) (hrun : t.engine = none) (hi : t.inbox = []) :
    t = { s with status := t.status, ybuf := t.ybuf, engine := none, inbox := [], pick := t.pick, draws := t.draws } := by
  cases s; cases t
  simp only [State.besideDispatch, State.mk.injEq] at h hrun hi ⊢
  tauto

/-- The shape of the dispatch that the control registers call for. -/
def State.runShape (s : State) : Shape :=
  { rows := s.rows.toNat, cols := s.cols.toNat, width := s.width.toNat, laneLog := s.cfg.laneLog
    tileWords := tileWordCount s.cfg s.width.toNat }

theorem RunControl.shape_eq (h : RunControl s e) : shapeOf s.cfg e = s.runShape := by
  rw [shapeOf, State.runShape, h.rows, h.cols, h.width]

theorem expectedOutput_congr (h : t.besideDispatch = s.besideDispatch) (r : Nat) :
    expectedOutput t t.runShape r = expectedOutput s s.runShape r :=
  (congrArg (fun u => expectedOutput u u.runShape r) h :)

/-- The packed matrix and the input vector that the control registers call for hold values. -/
def State.sourcesFilled (s : State) : Prop :=
  Memory.filled s.wbuf 0 (s.rows.toNat * s.runShape.rowWords) = true ∧ Memory.filled s.xbuf 0 s.cols.toNat = true

theorem sourcesFilled_congr (h : t.besideDispatch = s.besideDispatch) (hs : s.sourcesFilled) : t.sourcesFilled :=
  (congrArg State.sourcesFilled h).mpr hs

/-- `t` is a state of the dispatch launched from `s`: it meets the value invariant, no host move is left, and beside the dispatch
only YBUF's first `R` elements have changed. -/
structure RunningFrom (s t : State) : Prop where
  inv : ValueInv t
  run : t.engine.isSome = true
  inbox : t.inbox = []
  beside : t.besideDispatch = s.besideDispatch
  others : ∀ r, s.rows.toNat ≤ r → Memory.read t.ybuf r = Memory.read s.ybuf r

/-- `t` is an end of the run launched from `s`: DeviceError, or DONE with the closed form in YBUF. -/
structure RunEndOf (s t : State) : Prop where
  ended : t.ended = true
  frame : t = { s with status := t.status, ybuf := t.ybuf, engine := none, inbox := [], pick := t.pick, draws := t.draws }
  others : ∀ r, s.rows.toNat ≤ r → Memory.read t.ybuf r = Memory.read s.ybuf r
  result :
    t.status = { busy := false, done := false, err := true, ecode := 3 } ∧
        (∀ r, r < s.rows.toNat → Memory.read t.ybuf r = none) ∨
      t.status = { busy := false, done := true, err := false, ecode := 0 } ∧
        ∀ r, r < s.rows.toNat → ∃ v, Memory.read t.ybuf r = some v ∧
          F32.agrees s.cfg.adder v (expectedOutput s s.runShape r)

theorem ended_of_idle (hi : s.inbox = []) (hb : s.status.busy = false) : s.ended = true := by
  rw [State.ended, hi, hb]; rfl

theorem enabledMoves_drawNext (s : State) : enabledMoves (drawNext s) = enabledMoves s :=
  List.filter_congr fun m _ => moveEnabled_drawNext m

theorem RunningFrom.on_fresh_draws (h : RunningFrom s t) : RunningFrom s (drawNext t) :=
  ⟨h.inv.on_fresh_draws, h.run, h.inbox, h.beside, h.others⟩

/-- With the sources of `s` filled no move of its dispatch stops the machine. -/
theorem RunningFrom.move_answers {m : Move} (h : RunningFrom s t) (hs : s.sourcesFilled) (hm : m ∈ enabledMoves t)
    (hne : m ≠ .input) : ∃ t', performMove m t = .next t' := by
  obtain ⟨e, he⟩ := Option.isSome_iff_exists.1 h.run
  have hR := h.inv.control.run e he
  obtain ⟨hw, hx⟩ := sourcesFilled_congr h.beside hs
  refine engineMovesNeverFault t e m h.inv he ?_ ?_ hm hne
  · rwa [hR.rows, hR.shape_eq]
  · rwa [hR.cols]

/-- A move of one workgroup goes on with the dispatch. -/
theorem RunningFrom.changesOnlyGroup (h : RunningFrom s t) (hinv : ValueInv u) (hg : g < s.rows.toNat)
    (hu : ChangesOnlyGroup g t u) : RunningFrom s u := by
  obtain ⟨hfields, hy, hrun⟩ := hu
  obtain ⟨e, he⟩ := Option.isSome_iff_exists.1 h.run
  obtain ⟨e', he', -⟩ := hrun e he
  refine ⟨hinv, by rw [he']; rfl, ?_, ?_, fun r hr => (hy r (by omega)).trans (h.others r hr)⟩
  · rw [hfields]; exact h.inbox
  · rw [hfields]; exact h.beside

theorem RunningFrom.group_lt (h : RunningFrom s t) (he : t.engine = some e) {wg : Workgroup} (hg : e.groups[g]? = some wg) :
    g < s.rows.toNat := by
  have hR := h.inv.control.run e he
  have hrows : t.rows = s.rows := (congrArg State.rows h.beside :)
  have hlt := (List.getElem?_eq_some_iff.1 hg).1
  rwa [hR.groups, hR.rows, hrows] at hlt

/-- The completion of the dispatch is an end of the run. -/
theorem RunningFrom.complete (h : RunningFrom s t) (he : t.engine = some e) (hfin : e.finished = true) :
    RunEndOf s (completeRun t) := by
  have hst := h.inv.control.status
  have herr := hst.busyNotErr (hst.busy_of_run he)
  have hR := h.inv.control.run e he
  have hrows : t.rows = s.rows := (congrArg State.rows h.beside :)
  have hcfg : t.cfg = s.cfg := (congrArg State.cfg h.beside :)
  refine ⟨ended_of_idle h.inbox rfl, eq_of_besideDispatch h.beside rfl h.inbox, h.others, .inr ⟨?_, fun r hr => ?_⟩⟩
  · show t.status.endDispatch = _
    rw [Status.endDispatch, herr, hst.noErrNoCode herr]
  · rw [← expectedOutput_congr h.beside, ← hcfg, ← hR.shape_eq]
    exact h.inv.output_of_finished he hfin (by rwa [hR.rows, hrows])

/-- A step of the dispatch goes on with less work left, or ends the run. -/
theorem RunningFrom.next_step (h : RunningFrom s t) (hs : s.sourcesFilled) :
    ∃ u, step t = .next u ∧ (RunningFrom s u ∧ u.workLeft < t.workLeft ∨ RunEndOf s u) := by
  obtain ⟨e, he⟩ := Option.isSome_iff_exists.1 h.run
  obtain ⟨m', hm', -⟩ := h.inv.control.exists_engine_move he
  obtain ⟨m, hnext⟩ := nextMove_isSome (List.ne_nil_of_mem hm')
  have hne : m ≠ .input := by
    rintro rfl
    exact mem_enabledMoves_input.1 (mem_of_nextMove hnext) h.inbox
  have hfresh := h.on_fresh_draws
  have hmem : m ∈ enabledMoves (drawNext t) := by
    rw [enabledMoves_drawNext]; exact mem_of_nextMove hnext
  have hm := moveEnabled_of_mem hmem
  obtain ⟨u, hu⟩ := hfresh.move_answers hs hmem hne
  have hinv := performMove_keeps_valueInv hfresh.inv hm hu
  have hless : u.workLeft < t.workLeft := performMove_workLeft_lt (s := drawNext t) hfresh.inv.control hm hne hu
  refine ⟨u, by rw [step, hnext]; exact hu, ?_⟩
  cases m
  case input => exact absurd rfl hne
  case lane g l =>
    obtain ⟨e, wg, -, he, hg, -⟩ := moveEnabled_lane.1 hm
    exact .inl ⟨hfresh.changesOnlyGroup hinv (hfresh.group_lt he hg) (laneMove_changesOnlyGroup hu), hless⟩
  case release g =>
    obtain ⟨e, wg, he, hg, -⟩ := moveEnabled_release.1 hm
    obtain rfl := Host.Outcome.next.inj hu
    exact .inl ⟨hfresh.changesOnlyGroup hinv (hfresh.group_lt he hg) (releaseMove_changesOnlyGroup g _), hless⟩
  case complete =>
    obtain ⟨e, he, hfin⟩ := moveEnabled_complete.1 hm
    obtain rfl := Host.Outcome.next.inj hu
    exact .inr (hfresh.complete he hfin)

theorem runFor_succ_of_step {n : Nat} (h : step s = .next t) : runFor (n + 1) s = runFor n t := by
  rw [runFor, h]

/-- Every dispatch ends, since each of its steps lowers the work left. -/
theorem RunningFrom.ends (h : RunningFrom s t) (hs : s.sourcesFilled) : ∃ k u, runFor k t = .next u ∧ RunEndOf s u := by
  induction hn : t.workLeft using Nat.strong_induction_on generalizing t with
  | h n ih =>
    obtain ⟨u, hu, ⟨hrunning, hless⟩ | hend⟩ := h.next_step hs
    · obtain ⟨k, v, hv, hend⟩ := ih _ (hn ▸ hless) hrunning rfl
      exact ⟨k + 1, v, (runFor_succ_of_step hu).trans hv, hend⟩
    · exact ⟨1, u, runFor_succ_of_step hu, hend⟩

/-- A command word that is all that can happen is what happens next. -/
theorem step_of_only_command {w : Word} (hrun : s.engine = none) (hidle : s.status.busy = false)
    (hi : s.inbox = [.command w]) : step s = runCommand w { drawNext s with inbox := [] } := by
  have hmoves : enabledMoves s = [.input] := by simp [enabledMoves, candidateMoves, moveEnabled, hrun, hi]
  have hnext : nextMove s = some .input := by simp [nextMove, hmoves, Nat.mod_one]
  rw [step, hnext]
  exact takeInput_of_offered (s := drawNext s) hi (moveOffered_of_idle _ hidle)

/-- The state in which the RUNMV that is the host's last transaction runs. -/
def State.accepted (s : State) : State := { drawNext s with inbox := [], status := s.status.dropDone }

theorem step_of_launchReady (h : LaunchReady s) (hi : s.inbox = [.command (encode .runmv)]) :
    step s = .next (startRun s.accepted) := by
  rw [step_of_only_command h.noRun h.idle hi, runCommand, decode_encode]
  exact exec_runmv_of_check h.idle h.noError h.checks

theorem deviceError_runEndOf (hinfo : s.einfo = 0) (hrun : s.engine = none) : RunEndOf s (deviceError s.accepted) := by
  have hread (r : Nat) : Memory.read (deviceError s.accepted).ybuf r = if s.rows.toNat ≤ r then Memory.read s.ybuf r else none :=
    Memory.read_dropBelow _ _ _
  refine ⟨rfl, ?_, fun r hr => (hread r).trans (if_pos hr), .inl ⟨rfl, fun r hr => (hread r).trans (if_neg (by omega))⟩⟩
  refine eq_of_besideDispatch ?_ hrun rfl
  show ({ s with einfo := 0 } : State).besideDispatch = s.besideDispatch
  rw [← hinfo]

/-- A launch without rows ends at once: there is no output element. -/
theorem emptyRun_runEndOf (herr : s.status.err = false) (hcode : s.status.ecode = 0) (h0 : s.rows.toNat = 0) :
    RunEndOf s (completeRun (launch s.accepted)) := by
  refine ⟨rfl, eq_of_besideDispatch rfl rfl rfl, fun _ _ => rfl, .inr ⟨?_, fun r hr => by omega⟩⟩
  rw [completeRun_launch]
  show s.status.dropDone.setBusy.endDispatch = _
  rw [Status.setBusy_dropDone herr, hcode]
  rfl

theorem launch_runningFrom (hinv : ValueInv (launch s.accepted)) : RunningFrom s (launch s.accepted) :=
  ⟨hinv, rfl, rfl, rfl, fun _ _ => rfl⟩

/-- The launching step begins the dispatch or ends the run at once. -/
theorem startRun_runs_or_ends (hinv : ControlInv s) (h : LaunchReady s) (hnext : ValueInv (startRun s.accepted)) :
    RunningFrom s (startRun s.accepted) ∨ RunEndOf s (startRun s.accepted) := by
  unfold startRun at hnext ⊢
  split
  · exact .inr (deviceError_runEndOf (hinv.status.noErrNoInfo h.noError) h.noRun)
  · next hfail =>
    split
    · next h0 => exact .inr (emptyRun_runEndOf h.noError (hinv.status.noErrNoCode h.noError) h0)
    · next h0 =>
      rw [if_neg hfail, if_neg h0] at hnext
      exact .inl (launch_runningFrom hnext)

end

section

variable {sh : Shape} {row row' : Nat → Word} {x : Nat → F32} {l n : Nat} {a b : F32}

/-! ### What padding slots add under the default `fadd` (43_parallel_kernel R178) -/

/-- What an accumulator can hold under the default `fadd`: any pattern but -0.0, and of the NaNs only the one that sums take. -/
def Settled (a : F32) : Prop := a ≠ f32NegZero ∧ (isNaN a = true → a = 0x7FC00000#32)

theorem settled_posZero : Settled f32PosZero := ⟨by decide, by decide⟩

theorem settled_quietNaN : Settled 0x7FC00000#32 := ⟨by decide, fun _ => rfl⟩

theorem settled_of_isInf (h : isInf a = true) : Settled a := by
  rcases (isInf_iff a).1 h with rfl | rfl <;> exact ⟨by decide, by decide⟩

/-- What packs a rounded magnitude is no zero and no NaN. -/
theorem settled_f32Pack (neg : Bool) {p : Nat} (hpos : 0 < p) (hle : p ≤ 0x7F800000) : Settled (f32Pack neg p) := by
  obtain ⟨-, hexp, hfrac⟩ := f32Pack_fields neg (p := p) (by omega)
  refine ⟨fun hzero => ?_, fun hnan => ?_⟩
  · rw [hzero] at hexp hfrac
    have hexp0 : f32Exp f32NegZero = 0 := by decide
    have hfrac0 : f32Frac f32NegZero = 0 := by decide
    omega
  · simp only [isNaN, hexp, hfrac, Bool.and_eq_true, decide_eq_true_eq] at hnan
    omega

/-- A sum is -0.0 only if both operands are: any other zero sum is +0.0, and a sum that is not zero rounds to no zero. -/
theorem settled_plainAdd (h : a ≠ f32NegZero) (b : F32) : Settled (plainAdd .ieee a b) := by
  show Settled (ieeeAdd 0x7FC00000#32 a b)
  by_cases hnan : isNaN a = true ∨ isNaN b = true
  · rw [ieeeAdd_of_isNaN hnan]; exact settled_quietNaN
  by_cases hinf : isInf a = true ∨ isInf b = true
  · rcases ieeeAdd_eq_nan_or_isInf 0x7FC00000#32 hinf with hsum | hsum
    · rw [hsum]; exact settled_quietNaN
    · exact settled_of_isInf hsum
  simp only [not_or, Bool.not_eq_true] at hnan hinf
  by_cases hv : f32Units a + f32Units b = 0
  · rw [ieeeAdd_of_units_zero ⟨hnan.1, hinf.1⟩ ⟨hnan.2, hinf.2⟩ hv, if_neg fun hboth => h hboth.1]
    exact settled_posZero
  · rw [ieeeAdd_of_units_ne_zero ⟨hnan.1, hinf.1⟩ ⟨hnan.2, hinf.2⟩ hv]
    exact settled_f32Pack _ (round_pos _ (Int.natAbs_ne_zero.2 hv)) (round_le _)

/-- Adding a zero of either sign to an accumulator leaves it as it is. -/
theorem plainAdd_zero (h : Settled a) (hb : b = f32PosZero ∨ b = f32NegZero) : plainAdd .ieee a b = a := by
  obtain ⟨hneg, hqnan⟩ := h
  cases hnan : isNaN a
  case true => exact (ieeeAdd_of_isNaN (.inl hnan)).trans (hqnan hnan).symm
  case false =>
    rcases hb with rfl | rfl
    · exact ieeeAdd_posZero _ hnan hneg
    · exact ieeeAdd_negZero _ hnan

/-- A slot whose input element is +0.0 adds nothing, whatever its code. -/
theorem accStep_posZero (h : Settled a) (w : Word) (k : Nat) : accStep (plainAdd .ieee) a w k f32PosZero = a := by
  refine plainAdd_zero h ?_
  rw [selectContribution_eq_of_dec]
  split
  · exact .inl rfl
  · split
    · exact .inr rfl
    · exact .inl rfl

theorem settled_slotSum (sh : Shape) (row : Nat → Word) (x : Nat → F32) (l n : Nat) :
    Settled (slotSum (plainAdd .ieee) sh row x l n) := by
  induction n with
  | zero => exact settled_posZero
  | succ n ih =>
    by_cases hown : sh.ownSlot l n
    · rw [slotSum_own hown]; exact settled_plainAdd ih.1 _
    · rwa [slotSum_other hown]

/-- A padding slot, beyond the vector, adds nothing to any lane. -/
theorem slotSum_padding (hx : x n = f32PosZero) :
    slotSum (plainAdd .ieee) sh row x l (n + 1) = slotSum (plainAdd .ieee) sh row x l n := by
  by_cases hown : sh.ownSlot l n
  · rw [slotSum_own hown, hx]; exact accStep_posZero (settled_slotSum sh row x l n) _ _
  · exact slotSum_other hown

/-- Rows alike in the slots of the vector give every lane the same sum. -/
theorem slotSum_congr_codes (hx : ∀ c, sh.cols ≤ c → x c = f32PosZero)
    (hrow : ∀ c, c < sh.cols →
      extractCode (row (c / sh.codes)) (c % sh.codes) = extractCode (row' (c / sh.codes)) (c % sh.codes)) :
    slotSum (plainAdd .ieee) sh row x l n = slotSum (plainAdd .ieee) sh row' x l n := by
  induction n with
  | zero => rfl
  | succ n ih =>
    by_cases hn : n < sh.cols
    · by_cases hown : sh.ownSlot l n
      · rw [slotSum_own hown, slotSum_own hown, ih, accStep, accStep, hrow n hn]
      · rw [slotSum_other hown, slotSum_other hown, ih]
    · have hzero := hx n (Nat.not_lt.1 hn)
      rw [slotSum_padding hzero, slotSum_padding hzero, ih]

/-- The closed form by the lanes' sums over code slots. -/
theorem parRow_eq_slotSum (add : F32 → F32 → F32) (hK : 0 < sh.codes) :
    parRow add sh row x =
      treeLevel add sh.laneLog (fun l => slotSum add sh row x l (sh.rowWords * sh.codes)) sh.laneLog 0 :=
  (treeLevel_congr (fun _ => slotSum_eq_lanePartial hK) _ _).symm

/-! ### One lane and the reference kernel (43_parallel_kernel R185, 42_reference_kernel R160) -/

/-- The datapath's step is the reference's: where the reference skips, the datapath adds +0.0. -/
theorem accStep_eq_refStep (h : Settled a) (w : Word) (k : Nat) (y : F32) :
    accStep (plainAdd .ieee) a w k y = refStep (plainAdd .ieee) a (dec (extractCode w k)) y := by
  rw [accStep, selectContribution_eq_of_dec, refStep]
  split
  · rfl
  · split
    · rfl
    · exact plainAdd_zero h (.inl rfl)

/-- With one lane every slot of the row is lane 0's. -/
theorem ownSlot_of_one_lane (hK : 0 < sh.codes) (hone : sh.laneLog = 0) (hn : n < sh.cols) : sh.ownSlot 0 n := by
  refine ⟨div_lt_divCeil hK hn, ?_⟩
  rw [Shape.lanes, hone, Nat.pow_zero, Nat.mod_one]

/-- With one lane the sum over the first slots is the reference's fold over the first columns. -/
theorem slotSum_eq_refFold {weight : Nat → Int} (hK : 0 < sh.codes) (hone : sh.laneLog = 0)
    (hweight : ∀ c, c < sh.cols → dec (extractCode (row (c / sh.codes)) (c % sh.codes)) = weight c) (hn : n ≤ sh.cols) :
    slotSum (plainAdd .ieee) sh row x 0 n =
      (List.range n).foldl (fun acc c => refStep (plainAdd .ieee) acc (weight c) (x c)) f32PosZero := by
  induction n with
  | zero => rfl
  | succ n ih =>
    rw [slotSum_own (ownSlot_of_one_lane hK hone hn), accStep_eq_refStep (settled_slotSum sh row x 0 n), hweight n hn,
      ih (by omega), List.range_succ, List.foldl_append]
    rfl

theorem slotSum_beyond_vector (hx : ∀ c, sh.cols ≤ c → x c = f32PosZero) (hn : sh.cols ≤ n) :
    slotSum (plainAdd .ieee) sh row x l n = slotSum (plainAdd .ieee) sh row x l sh.cols := by
  induction n, hn using Nat.le_induction with
  | base => rfl
  | succ n hn ih => rw [slotSum_padding (hx n hn), ih]

/-- With one lane and the default `fadd` the closed form is the reference's fold over the columns. -/
theorem parRow_of_one_lane {weight : Nat → Int} (hK : 0 < sh.codes) (hone : sh.laneLog = 0)
    (hx : ∀ c, sh.cols ≤ c → x c = f32PosZero)
    (hweight : ∀ c, c < sh.cols → dec (extractCode (row (c / sh.codes)) (c % sh.codes)) = weight c) :
    parRow (plainAdd .ieee) sh row x =
      (List.range sh.cols).foldl (fun acc c => refStep (plainAdd .ieee) acc (weight c) (x c)) f32PosZero := by
  have hcols : sh.cols ≤ sh.rowWords * sh.codes := (divCeil_le_iff hK).1 (Nat.le_refl _)
  rw [parRow_eq_slotSum _ hK, hone, treeLevel, slotSum_beyond_vector hx hcols,
    slotSum_eq_refFold hK hone hweight (Nat.le_refl _)]

end

section

variable {s t : State} {e : EngineRun} {sh : Shape} {wg : Workgroup} {ln : Lane} {eff : LaneEffect} {nan : F32} {g l : Nat}

/-! ### One micro-step of a lane, by its position and by what it reads (43_parallel_kernel R173 to R182) -/

theorem readElement_of_none {w : Nat} {sp : Space} {m : Memory w} {i : Nat} (h : Memory.read m i = none) :
    readElement sp m i = .error (.noValue sp i) := readElement_eq_error.2 ⟨h, rfl⟩

theorem readAcc_of_some {a : F32} (h : ln.acc = some a) : readAcc g l ln = .ok a := by rw [readAcc, h]

theorem readAcc_of_none (h : ln.acc = none) : readAcc g l ln = .error (.noValue (.acc g) l) := by rw [readAcc, h]

theorem laneEffect_init (hp : ln.pos = .init) :
    laneEffect sh nan s g l wg ln =
      .ok { pos := afterInit sh l, acc := some f32PosZero, shmX := wg.shmX, shmR := wg.shmR, ybuf := s.ybuf } := by
  rw [laneEffect, hp]

section load

variable {tt i : Nat} (hp : ln.pos = .load tt i)
include hp

theorem laneEffect_load {v : F32}
    (hv : if tt * sh.tile + i < sh.cols then Memory.read s.xbuf (tt * sh.tile + i) = some v else v = f32PosZero) :
    laneEffect sh nan s g l wg ln =
      .ok { pos := afterLoad sh tt i, acc := ln.acc, shmX := Memory.write wg.shmX i v, shmR := wg.shmR, ybuf := s.ybuf } := by
  have htile : tileElement sh s.xbuf tt i = .ok v := by
    unfold tileElement
    dsimp only
    split at hv
    · next hc => rw [if_pos hc, readElement_eq_ok.2 hv]
    · next hc => rw [if_neg hc, hv]
  rw [laneEffect, hp]
  simp only [laneLoad, htile]

theorem laneEffect_load_error (hc : tt * sh.tile + i < sh.cols) (hnone : Memory.read s.xbuf (tt * sh.tile + i) = none) :
    laneEffect sh nan s g l wg ln = .error (.noValue (.buffer .xbuf) (tt * sh.tile + i)) := by
  have htile : tileElement sh s.xbuf tt i = .error (.noValue (.buffer .xbuf) (tt * sh.tile + i)) :=
    (if_pos hc).trans (readElement_of_none hnone)
  rw [laneEffect, hp]
  simp only [laneLoad, htile]

end load

section accumulate

variable {tt jw k : Nat} {w : Word} {x a : F32} (hp : ln.pos = .acc tt jw k)
include hp

theorem laneEffect_acc (hw : Memory.read s.wbuf (g * sh.rowWords + (tt * sh.tileWords + jw)) = some w)
    (hx : Memory.read wg.shmX (jw * sh.codes + k) = some x) (ha : ln.acc = some a) :
    laneEffect sh nan s g l wg ln =
      .ok { pos := afterAcc sh tt jw k, acc := some (accStep (fadd s.cfg.adder nan) a (lowWord sh.width w) k x)
            shmX := wg.shmX, shmR := wg.shmR, ybuf := s.ybuf } := by
  rw [laneEffect, hp]
  simp only [laneAcc, readElement_eq_ok.2 hw, readElement_eq_ok.2 hx, readAcc_of_some ha]

theorem laneEffect_acc_no_word (hw : Memory.read s.wbuf (g * sh.rowWords + (tt * sh.tileWords + jw)) = none) :
    laneEffect sh nan s g l wg ln = .error (.noValue (.buffer .wbuf) (g * sh.rowWords + (tt * sh.tileWords + jw))) := by
  rw [laneEffect, hp]
  simp only [laneAcc, readElement_of_none hw]

theorem laneEffect_acc_no_element (hw : Memory.read s.wbuf (g * sh.rowWords + (tt * sh.tileWords + jw)) = some w)
    (hx : Memory.read wg.shmX (jw * sh.codes + k) = none) :
    laneEffect sh nan s g l wg ln = .error (.noValue (.shmX g) (jw * sh.codes + k)) := by
  rw [laneEffect, hp]
  simp only [laneAcc, readElement_eq_ok.2 hw, readElement_of_none hx]

theorem laneEffect_acc_no_accumulator
    (hw : Memory.read s.wbuf (g * sh.rowWords + (tt * sh.tileWords + jw)) = some w)
    (hx : Memory.read wg.shmX (jw * sh.codes + k) = some x) (ha : ln.acc = none) :
    laneEffect sh nan s g l wg ln = .error (.noValue (.acc g) l) := by
  rw [laneEffect, hp]
  simp only [laneAcc, readElement_eq_ok.2 hw, readElement_eq_ok.2 hx, readAcc_of_none ha]

end accumulate

theorem laneEffect_publish {a : F32} (hp : ln.pos = .publish) (ha : ln.acc = some a) :
    laneEffect sh nan s g l wg ln =
      .ok { pos := .barPub, acc := ln.acc, shmX := wg.shmX, shmR := Memory.write wg.shmR l a, ybuf := s.ybuf } := by
  rw [laneEffect, hp]
  simp only [lanePublish, readAcc_of_some ha]

theorem laneEffect_publish_error (hp : ln.pos = .publish) (ha : ln.acc = none) :
    laneEffect sh nan s g l wg ln = .error (.noValue (.acc g) l) := by
  rw [laneEffect, hp]
  simp only [lanePublish, readAcc_of_none ha]

section reduce

variable {stride : Nat} {a b : F32} (hp : ln.pos = .red stride)
include hp

theorem laneEffect_red (hlt : l < stride) (ha : Memory.read wg.shmR l = some a) (hb : Memory.read wg.shmR (l + stride) = some b) :
    laneEffect sh nan s g l wg ln =
      .ok { pos := .barRed stride, acc := ln.acc, shmX := wg.shmX
            shmR := Memory.write wg.shmR l (fadd s.cfg.adder nan a b), ybuf := s.ybuf } := by
  rw [laneEffect, hp]
  simp only [laneReduce, if_pos hlt, readElement_eq_ok.2 ha, readElement_eq_ok.2 hb]

theorem laneEffect_red_no_own (hlt : l < stride) (ha : Memory.read wg.shmR l = none) :
    laneEffect sh nan s g l wg ln = .error (.noValue (.shmR g) l) := by
  rw [laneEffect, hp]
  simp only [laneReduce, if_pos hlt, readElement_of_none ha]

theorem laneEffect_red_no_partner (hlt : l < stride) (ha : Memory.read wg.shmR l = some a)
    (hb : Memory.read wg.shmR (l + stride) = none) :
    laneEffect sh nan s g l wg ln = .error (.noValue (.shmR g) (l + stride)) := by
  rw [laneEffect, hp]
  simp only [laneReduce, if_pos hlt, readElement_eq_ok.2 ha, readElement_of_none hb]

theorem laneEffect_red_idle (hge : stride ≤ l) :
    laneEffect sh nan s g l wg ln =
      .ok { pos := .barRed stride, acc := ln.acc, shmX := wg.shmX, shmR := wg.shmR, ybuf := s.ybuf } := by
  rw [laneEffect, hp]
  simp only [laneReduce, if_neg (Nat.not_lt.2 hge)]

end reduce

theorem laneEffect_write {v : F32} (hp : ln.pos = .write) (hv : Memory.read wg.shmR 0 = some v) :
    laneEffect sh nan s g l wg ln =
      .ok { pos := .exit, acc := ln.acc, shmX := wg.shmX, shmR := wg.shmR, ybuf := Memory.write s.ybuf g v } := by
  rw [laneEffect, hp]
  simp only [laneWrite, readElement_eq_ok.2 hv]

theorem laneEffect_write_error (hp : ln.pos = .write) (hv : Memory.read wg.shmR 0 = none) :
    laneEffect sh nan s g l wg ln = .error (.noValue (.shmR g) 0) := by
  rw [laneEffect, hp]
  simp only [laneWrite, readElement_of_none hv]

/-! ### Who has arrived after a micro-step (20_memory R65) -/

/-- The lane that moved joins `arrived` when its new position `p` is a barrier. -/
theorem mem_arrived_after {p : Pos} {arrived : List Nat} {l' : Nat} :
    l' ∈ (if p.atBarrier then joinArrived l arrived else arrived) ↔ l' ∈ arrived ∨ (l' = l ∧ p.atBarrier = true) := by
  split
  · next h => rw [mem_joinArrived, and_iff_left h]
  · next h => rw [iff_self_or]; exact fun hb => absurd hb.2 h

theorem mem_arrived_after_barrier {p : Pos} {arrived : List Nat} {l' : Nat} (hb : p.atBarrier = true) :
    l' ∈ (if p.atBarrier then joinArrived l arrived else arrived) ↔ l' ∈ arrived ∨ l' = l := by
  rw [mem_arrived_after, and_iff_left hb]

theorem afterInit_atBarrier : (afterInit sh l).atBarrier = true ↔ afterInit sh l = .barLoad 0 := by
  unfold afterInit loadStart
  split
  · simp [Pos.atBarrier]
  · split <;> simp [Pos.atBarrier]

theorem afterLoad_atBarrier {tt i : Nat} : (afterLoad sh tt i).atBarrier = true ↔ afterLoad sh tt i = .barLoad tt := by
  unfold afterLoad
  split <;> simp [Pos.atBarrier]

theorem afterAcc_atBarrier {tt jw k : Nat} : (afterAcc sh tt jw k).atBarrier = true ↔ afterAcc sh tt jw k = .barAcc tt := by
  unfold afterAcc accFrom
  split
  · simp [Pos.atBarrier]
  · split <;> simp [Pos.atBarrier]

section

variable (he : s.engine = some e) (hg : e.groups[g]? = some wg) (hl : wg.lanes[l]? = some ln)
include he hg hl

theorem moveEnabled_lane_of_canStep (hc : ln.pos.canStep = true) : moveEnabled s (.lane g l) = true :=
  moveEnabled_lane.2 ⟨e, wg, ln, he, hg, hl, hc⟩

theorem performMove_lane_of_ok (h : laneEffect (shapeOf s.cfg e) (drawnNaN s.draws) s g l wg ln = .ok eff) :
    performMove (.lane g l) s = .next { putGroup s e g (wg.applyLane l eff) with ybuf := eff.ybuf } := by
  rw [performMove, laneMove_eq he hg hl, h]

theorem performMove_lane_of_error {f : Fault}
    (h : laneEffect (shapeOf s.cfg e) (drawnNaN s.draws) s g l wg ln = .error f) : performMove (.lane g l) s = .fault f := by
  rw [performMove, laneMove_eq he hg hl, h]

end

end

/-! ### The statements -/

/-- Settles O52: a step is nothing or one enabled move on fresh draws, and each kind of move keeps the invariant. -/
theorem everyStepKeepsValueInv : Obligations.EveryStepKeepsValueInv := by
  unfold Obligations.EveryStepKeepsValueInv
  intro s t h ht
  rcases step_next ht with ⟨-, rfl⟩ | ⟨m, -, hm, ht⟩
  · exact h
  · exact performMove_keeps_valueInv h.on_fresh_draws hm ht

/-- Settles O53: every lane 0 at EXIT has its row's output written, and its sum over all slots is the closed form's. -/
theorem finishedDispatchHoldsClosedForm : Obligations.FinishedDispatchHoldsClosedForm := by
  unfold Obligations.FinishedDispatchHoldsClosedForm
  intro s e h he hfin
  have hst := h.control.status
  exact ⟨completeRun s, rfl, rfl, rfl, hst.busyNotErr (hst.busy_of_run he), fun r hr => h.output_of_finished he hfin hr⟩

/-- Settles O54: a dispatch that cannot complete has a lane not at EXIT, and then its workgroup can move. -/
theorem dispatchNeverDeadlocks : Obligations.DispatchNeverDeadlocks := by
  unfold Obligations.DispatchNeverDeadlocks
  exact fun s e h he => h.exists_engine_move he

/-- Settles O55: a micro-step leaves fewer in its phase, a release outweighs the phase it opens, and completion leaves nothing. -/
theorem everyEngineMoveLowersTheWork : Obligations.EveryEngineMoveLowersTheWork := by
  unfold Obligations.EveryEngineMoveLowersTheWork
  intro s t h hrun
  exact ⟨fun m hm hne ht => performMove_workLeft_lt h (moveEnabled_of_mem hm) hne ht,
    takeInput_workLeft_le (h.status.busyRun.trans hrun)⟩

/-- Settles O57: the launching step ends the run or begins the dispatch, whose steps go on until the work left is used up. -/
theorem launchedDispatchComputesClosedForm : Obligations.LaunchedDispatchComputesClosedForm := by
  unfold Obligations.LaunchedDispatchComputesClosedForm
  intro s hinv h hi R sh
  have hstep := step_of_launchReady h hi
  have hnext := everyStepKeepsValueInv s _ (.of_no_run hinv h.noRun) hstep
  obtain ⟨n, t, hrun, hend⟩ : ∃ n t, runFor n s = .next t ∧ RunEndOf s t := by
    rcases startRun_runs_or_ends hinv h hnext with hgoes | hend
    · obtain ⟨k, t, hrun, hend⟩ := hgoes.ends ⟨h.words, h.inputs⟩
      exact ⟨k + 1, t, (runFor_succ_of_step hstep).trans hrun, hend⟩
    · exact ⟨1, _, runFor_succ_of_step hstep, hend⟩
  exact ⟨n, t, hrun, hend.ended, hend.frame, hend.others, hend.result⟩

/-- Settles O58: the one lane's sum over the columns is the reference's fold, and the padding slots after them add zeros. -/
theorem oneLaneComputesTheReference : Obligations.OneLaneComputesTheReference := by
  unfold Obligations.OneLaneComputesTheReference
  intro sh ws xs r hW2 hW hone _
  have hK := Shape.codes_pos hW2
  rw [parRow_of_one_lane (weight := weightAt sh.width sh.cols ws r) hK hone ?padding ?codes]
  case padding => exact fun c hc => if_neg (Nat.not_lt.2 hc)
  case codes =>
    intro c _
    rw [weightAt_eq_dec hW2 hW, extractCode_eq_slotCode]
    exact congrArg dec (slotCode_lowWord _ _ _ hW (Nat.mod_lt _ hK))
  refine List.foldl_ext _ _ _ fun acc c hc => ?_
  rw [if_pos (List.mem_range.1 hc)]

/-- Settles O14: the checks are `runmvCheck`, and then `startRun` is the three cases. -/
theorem runmvStartsTheDispatch : Obligations.RunmvStartsTheDispatch := by
  unfold Obligations.RunmvStartsTheDispatch
  intro s hb he W R C hW2 hW hwlen hwcap hxlen hxcap hycap
  have hcheck : runmvCheck s = none := runmvCheck_eq_none.2 ⟨⟨hW2, hW⟩, ⟨hwlen, hwcap⟩, ⟨hxlen, hxcap⟩, hycap⟩
  refine ⟨_, exec_runmv_of_check hb he hcheck, fun hfail => ?_, fun hfail h0 => ?_, fun hfail h0 => ?_⟩
  · rw [startRun, if_pos hfail]
    refine ⟨rfl, fun r => (Memory.read_dropBelow _ _ _).trans ?_⟩
    show (if R ≤ r then Memory.read s.ybuf r else none) = _
    by_cases hr : r < R
    · rw [if_pos hr, if_neg (Nat.not_le.2 hr)]
    · rw [if_neg hr, if_pos (Nat.not_lt.1 hr)]
  · rw [startRun, if_neg (by simp [hfail]), if_pos h0, completeRun_launch, Status.setBusy_dropDone he]
    rfl
  · rw [startRun, if_neg (by simp [hfail]), if_neg h0, launch, Status.setBusy_dropDone he]
    refine ⟨newRun s, rfl, rfl, rfl, rfl, List.length_replicate, fun wg hwg => ?_⟩
    obtain rfl := List.eq_of_mem_replicate hwg
    exact ⟨rfl, rfl, rfl, rfl, List.length_replicate, fun ln hln => List.eq_of_mem_replicate hln⟩

/-- Settles O59: a padding slot adds a zero, and every other slot is alike in both rows. -/
theorem paddingSlotsDoNotMatter : Obligations.PaddingSlotsDoNotMatter := by
  unfold Obligations.PaddingSlotsDoNotMatter
  intro sh row row' x hW2 _ _ hx hrow
  have hK := Shape.codes_pos hW2
  rw [parRow_eq_slotSum _ hK, parRow_eq_slotSum _ hK]
  exact treeLevel_congr (fun _ => slotSum_congr_codes hx hrow) _ _

/-- Settles O39: INIT reads nothing; the only barrier after it is that of the first load phase. -/
theorem initMicrostep : Obligations.InitMicrostep := by
  unfold Obligations.InitMicrostep
  intro s e g l wg ln he hg hl hp sh next
  exact ⟨moveEnabled_lane_of_canStep he hg hl (by rw [hp]; rfl), _, performMove_lane_of_ok he hg hl (laneEffect_init hp),
    fun l' => mem_arrived_after.trans (or_congr_right (and_congr_right' afterInit_atBarrier))⟩

/-- Settles O40: the tile element is the input element or +0.0, or the read of the input element stops the machine. -/
theorem loadMicrostep : Obligations.LoadMicrostep := by
  unfold Obligations.LoadMicrostep
  intro s e g l t i wg ln he hg hl hp sh c next
  refine ⟨moveEnabled_lane_of_canStep he hg hl (by rw [hp]; rfl), fun v hv => ?_, fun hc hnone => ?_⟩
  · exact ⟨_, _, performMove_lane_of_ok he hg hl (laneEffect_load hp hv), fun k => Memory.read_write _ _ _ _,
      fun l' => mem_arrived_after.trans (or_congr_right (and_congr_right' afterLoad_atBarrier))⟩
  · exact performMove_lane_of_error he hg hl (laneEffect_load_error hp hc hnone)

/-- Settles O41: ACC reads the packed word, the tile element and the accumulator, in that order, and adds its contribution. -/
theorem accMicrostep : Obligations.AccMicrostep := by
  unfold Obligations.AccMicrostep
  intro s e g l t jw k wg ln he hg hl hp sh j more next
  refine ⟨moveEnabled_lane_of_canStep he hg hl (by rw [hp]; rfl), fun hw => ?_, fun w hw => ⟨fun hx => ?_, fun x hx =>
    ⟨fun ha => ?_, fun a ha => ?_⟩⟩⟩
  · exact performMove_lane_of_error he hg hl (laneEffect_acc_no_word hp hw)
  · exact performMove_lane_of_error he hg hl (laneEffect_acc_no_element hp hw hx)
  · exact performMove_lane_of_error he hg hl (laneEffect_acc_no_accumulator hp hw hx ha)
  · exact ⟨drawnNaN s.draws, _, isQuietNaN_drawnNaN _, performMove_lane_of_ok he hg hl (laneEffect_acc hp hw hx ha),
      fun l' => mem_arrived_after.trans (or_congr_right (and_congr_right' afterAcc_atBarrier))⟩

/-- Settles O42: PUBLISH reads the accumulator; RED reads two elements of the scratch below the stride and nothing beyond it. -/
theorem publishAndReduceMicrosteps : Obligations.PublishAndReduceMicrosteps := by
  unfold Obligations.PublishAndReduceMicrosteps
  intro s e g l stride wg ln he hg hl result
  refine ⟨fun hp => moveEnabled_lane_of_canStep he hg hl ?_, fun hp => ⟨fun ha => ?_, fun a ha => ?_⟩,
    fun hp hlt => ⟨fun ha => ?_, fun a ha => ⟨fun hb => ?_, fun b hb => ?_⟩⟩, fun hp hge => ?_⟩
  · rcases hp with hp | hp <;> rw [hp] <;> rfl
  · exact performMove_lane_of_error he hg hl (laneEffect_publish_error hp ha)
  · exact ⟨_, _, performMove_lane_of_ok he hg hl (laneEffect_publish hp ha), fun k => Memory.read_write _ _ _ _,
      fun l' => mem_arrived_after_barrier rfl⟩
  · exact performMove_lane_of_error he hg hl (laneEffect_red_no_own hp hlt ha)
  · exact performMove_lane_of_error he hg hl (laneEffect_red_no_partner hp hlt ha hb)
  · exact ⟨drawnNaN s.draws, _, _, isQuietNaN_drawnNaN _, performMove_lane_of_ok he hg hl (laneEffect_red hp hlt ha hb),
      fun k => Memory.read_write _ _ _ _, fun l' => mem_arrived_after_barrier rfl⟩
  · exact ⟨_, performMove_lane_of_ok he hg hl (laneEffect_red_idle hp hge), fun l' => mem_arrived_after_barrier rfl⟩

/-- Settles O43: WRITE reads element 0 of the scratch and stores it in the row's element of YBUF. -/
theorem writeMicrostep : Obligations.WriteMicrostep := by
  unfold Obligations.WriteMicrostep
  intro s e g l wg ln he hg hl hp
  refine ⟨moveEnabled_lane_of_canStep he hg hl (by rw [hp]; rfl), fun hv => ?_, fun v hv => ?_⟩
  · exact performMove_lane_of_error he hg hl (laneEffect_write_error hp hv)
  · exact ⟨_, performMove_lane_of_ok he hg hl (laneEffect_write hp hv), fun r => Memory.read_write _ _ _ _⟩

/-- Settles O45: the completion step is enabled exactly when every lane is at EXIT, and is `completeRun`. -/
theorem completionStep : Obligations.CompletionStep := by
  unfold Obligations.CompletionStep
  exact fun s e he hexit => ⟨moveEnabled_complete.2 ⟨e, he, finished_iff.2 hexit⟩, rfl⟩

end Sys2Proof.Machine

namespace Sys2Proof.Machine

/-! The host interface and the commands that answer to STATUS alone (44_host_commands): the step that takes a transaction; the
register and buffer ports by index; and the statements of family 44_host_commands. -/

section

variable {s : State} {inp : Input} {rest : List Input} {b : Buf} {i w : Nat}

/-! ### The step that takes a transaction (44_host_commands R210, R219) -/

/-- The transaction is run on fresh draws, or it is no move that the interface offers and the machine stops. -/
theorem step_of_input (hi : s.inbox = inp :: rest) (hnext : nextMove s = some .input) :
    step s = if moveOffered inp s then runInput inp { drawNext s with inbox := rest } else .fault .hostMoveWhileBusy := by
  have hstep : step s = takeInput (drawNext s) := by rw [step, hnext]; rfl
  rw [hstep]
  split
  · next h => exact takeInput_of_offered hi h
  · next h => exact takeInput_of_not_offered hi (Bool.eq_false_of_not_eq_true h)

theorem runCommand_of_decode {word : Word} {instr : Instr} (h : decode word = .ok instr) (s : State) :
    runCommand word s = exec instr s := by rw [runCommand, h]

/-- A command's word has no bit above 32, so it is placed as it is. -/
theorem withFetchWord_encode (s : State) (instr : Instr) :
    s.withFetchWord 32 (encode instr).toNat = placeCommand (encode instr) s := by
  rw [State.withFetchWord, Nat.mod_eq_of_lt (encode instr).isLt, BitVec.ofNat_toNat, BitVec.setWidth_eq]

/-! ### CLRST (44_host_commands R216) -/

theorem exec_clrst_of_idle (hb : s.status.busy = false) : exec .clrst s = .next (clearError s) := by
  simp [exec, execClrst, hb]

theorem Status.clear_of_idle {st : Status} (hb : st.busy = false) :
    st.clear = { busy := false, done := false, err := false, ecode := 0 } := by rw [Status.clear, hb]

/-! ### The register port (44_host_commands R211, R212) -/

/-- STATUS, EINFO and the absent registers read as before a register write. -/
theorem readCR_writeCR_of_not_writable (s : State) (j v : Word) {k : Word} (hk : ¬k.toNat ≤ 5) :
    readCR (writeCR s j v) k = readCR s k := by
  unfold readCR
  split
  case h_7 => rw [writeCR_status]
  case h_8 => rw [writeCR_einfo]
  case h_9 => rfl
  all_goals omega

theorem readCR_of_absent (s : State) {k : Word} (hk : 8 ≤ k.toNat) : readCR s k = 0 := by
  unfold readCR
  split
  case h_9 => rfl
  all_goals omega

theorem hostWrcr_of_ignored {j : Word} (v : Word) (h : s.status.busy = true ∨ 6 ≤ j.toNat) : hostWrcr j v s = s := by
  unfold hostWrcr
  split
  · rfl
  · next hb => exact writeCR_of_absent s v (Nat.not_le.2 (h.resolve_left hb))

theorem hostWrcr_of_idle (j v : Word) (hb : s.status.busy = false) : hostWrcr j v s = writeCR s j v := by
  simp [hostWrcr, hb]

/-! ### The buffer port (44_host_commands R213) -/

/-- A store to the buffer that `put` replaces in the state, and that is `m` before: within the capacity its element is replaced,
beyond it nothing is. -/
theorem hostStore_write (hb : s.status.busy = false) (b : Buf) {put : Memory w → State} {m : Memory w} (hput : put m = s)
    (v : BitVec w) :
    ∃ m', hostStore b i (put (Memory.write m i v)) s = .next (put m') ∧
      ∀ k, Memory.read m' k = if k = i ∧ i < capacity s.cfg b then some v else Memory.read m k := by
  by_cases hi : i < capacity s.cfg b
  · exact ⟨Memory.write m i v, by simp [hostStore, hb, hi], fun k => by simp [Memory.read_write, hi]⟩
  · exact ⟨m, by simp [hostStore, hb, hi, hput], fun k => by simp [hi]⟩

theorem hostLoad_beyond (hb : s.status.busy = false) (b : Buf) (hi : capacity s.cfg b ≤ i) :
    hostLoad b i s = .fault (.beyondCapacity b i) := by
  simp [hostLoad, hb, Nat.not_lt.2 hi]

/-- A load within the capacity from the buffer `m`, whose elements the port returns by `port`. -/
theorem hostLoad_of_value {m : Memory w} {port : BitVec w → PortData} (hb : s.status.busy = false) (b : Buf)
    (hi : i < capacity s.cfg b) (hload : loadElement b i s = (readElement (.buffer b) m i).map port)
    {v : BitVec w} (hv : Memory.read m i = some v) :
    hostLoad b i s = .next { s with readData := some (port v) } := by
  rw [readElement_eq_ok.2 hv] at hload
  simp [hostLoad, hb, hi, hload, Except.map]

theorem hostLoad_of_missing {m : Memory w} {port : BitVec w → PortData} (hb : s.status.busy = false) (b : Buf)
    (hi : i < capacity s.cfg b) (hload : loadElement b i s = (readElement (.buffer b) m i).map port)
    (hnone : Memory.read m i = none) :
    hostLoad b i s = .fault (.noValue (.buffer b) i) := by
  rw [readElement_of_none hnone] at hload
  simp [hostLoad, hb, hi, hload, Except.map]

end

/-! ### The statements -/

/-- Settles O6: NOP is no change by definition. -/
theorem nopChangesNothing : Obligations.NopChangesNothing := by
  unfold Obligations.NopChangesNothing
  exact fun _ => rfl

/-- Settles O7: accepted, CLRST is the error return; while BUSY it is dropped as every command is. -/
theorem clrstClearsStatus : Obligations.ClrstClearsStatus := by
  unfold Obligations.ClrstClearsStatus
  refine fun s => ⟨fun hb => ?_, exec_of_busy .clrst⟩
  rw [exec_clrst_of_idle hb, clearError, Status.clear_of_idle hb]

/-- Settles O16: of the ends of RUNMV only DeviceError touches YBUF, and it drops the elements below `R`. -/
theorem frameOfStatusCommands : Obligations.FrameOfStatusCommands := by
  unfold Obligations.FrameOfStatusCommands
  refine fun s t => ⟨fun h => ?_, fun h => ?_, fun h => ?_⟩
  · exact (Host.Outcome.next.inj ((nopChangesNothing s).symm.trans h)).symm
  · cases hb : s.status.busy
    case true => obtain rfl := Host.Outcome.next.inj ((exec_of_busy .clrst hb).symm.trans h); rfl
    case false => obtain rfl := Host.Outcome.next.inj ((exec_clrst_of_idle hb).symm.trans h); rfl
  · rcases execRunmv_next h with rfl | ⟨-, -, ⟨n, rfl⟩ | ⟨-, rfl | ⟨-, rfl⟩ | ⟨-, rfl⟩⟩⟩
    case inr.inr.inl =>
      have hread (r : Nat) : Memory.read (Memory.dropBelow s.ybuf s.rows.toNat) r =
          if s.rows.toNat ≤ r then Memory.read s.ybuf r else none := Memory.read_dropBelow _ _ _
      refine ⟨rfl, fun r => ⟨fun hr => (hread r).trans (if_pos hr), ?_⟩⟩
      by_cases hr : s.rows.toNat ≤ r
      · exact .inr ((hread r).trans (if_pos hr))
      · exact .inl ((hread r).trans (if_neg hr))
    all_goals exact ⟨rfl, fun _ => ⟨fun _ => rfl, .inr rfl⟩⟩

/-- Settles O3: the transaction is the command word, which the interface offers exactly while not BUSY. -/
theorem stepRunsDecodedCommand : Obligations.StepRunsDecodedCommand := by
  unfold Obligations.StepRunsDecodedCommand
  refine fun s w i rest hi hnext hdecode => ⟨fun hidle => ?_, fun hbusy => ?_⟩
  · rw [step_of_input hi hnext, if_pos (moveOffered_of_idle _ hidle)]
    exact runCommand_of_decode hdecode _
  · rw [step_of_input hi hnext, moveOffered_of_busy _ hbusy]
    rfl

/-- Settles O4: the placed word is the next transaction, the schedule takes it, and it decodes to its command. -/
theorem placedCommandRunsNext : Obligations.PlacedCommandRunsNext := by
  unfold Obligations.PlacedCommandRunsNext
  intro s i
  obtain ⟨hidle, hbusy⟩ := stepRunsDecodedCommand (placeCommand (encode i) s) (encode i) i s.inbox rfl
    (nextMove_placeCommand _ s) (decode_encode i)
  rw [withFetchWord_encode]
  cases hb : s.status.busy
  · exact hidle hb
  · exact hbusy hb

/-- Settles O17: a write is ignored, or changes the register that its index names and no other. -/
theorem wrcrWritesOneRegister : Obligations.WrcrWritesOneRegister := by
  unfold Obligations.WrcrWritesOneRegister
  refine fun s i v => ⟨_, rfl, hostWrcr_of_ignored v, fun hb hi => ?_⟩
  rw [hostWrcr_of_idle i v hb]
  refine ⟨(readCR_writeCR s v hi i hi).trans (if_pos rfl), fun k hki => ?_, writeCR_others s i v⟩
  by_cases hk : k.toNat ≤ 5
  · exact (readCR_writeCR s v hi k hk).trans (if_neg hki)
  · exact readCR_writeCR_of_not_writable s i v hk

/-- Settles O18: the value returned is `readCR`'s, index by index. -/
theorem rdcrReturnsTheRegister : Obligations.RdcrReturnsTheRegister := by
  unfold Obligations.RdcrReturnsTheRegister
  refine fun s i => ⟨readCR s i, rfl, ?_, ?_, ?_, ?_, ?_, ?_, ?_, ?_, readCR_of_absent s⟩ <;> rintro rfl <;> rfl

/-- Settles O20: the four buffers are stored to in one way. -/
theorem storeReplacesOneElement : Obligations.StoreReplacesOneElement := by
  unfold Obligations.StoreReplacesOneElement
  exact fun s i hb =>
    ⟨hostStore_write hb .tbuf (put := fun m => { s with tbuf := m }) rfl,
      hostStore_write hb .wbuf (put := fun m => { s with wbuf := m }) rfl,
      hostStore_write hb .xbuf (put := fun m => { s with xbuf := m }) rfl,
      hostStore_write hb .ybuf (put := fun m => { s with ybuf := m }) rfl⟩

/-- Settles O21: the four buffers are loaded from in one way, TBUF by bytes and the others by words. -/
theorem loadReturnsTheElement : Obligations.LoadReturnsTheElement := by
  unfold Obligations.LoadReturnsTheElement
  exact fun s i hb =>
    ⟨hostLoad_beyond hb .tbuf, fun hi _ => hostLoad_of_value hb .tbuf hi rfl, fun hi => hostLoad_of_missing hb .tbuf hi rfl,
      hostLoad_beyond hb .ybuf, fun hi _ => hostLoad_of_value hb .ybuf hi rfl, fun hi => hostLoad_of_missing hb .ybuf hi rfl,
      hostLoad_beyond hb .wbuf, fun hi _ => hostLoad_of_value hb .wbuf hi rfl, fun hi => hostLoad_of_missing hb .wbuf hi rfl,
      hostLoad_beyond hb .xbuf, fun hi _ => hostLoad_of_value hb .xbuf hi rfl, fun hi => hostLoad_of_missing hb .xbuf hi rfl⟩

/-- Settles O22: while BUSY the interface offers exactly the transactions of the second list. -/
theorem hostMoveWhileBusyFaults : Obligations.HostMoveWhileBusyFaults := by
  unfold Obligations.HostMoveWhileBusyFaults
  intro s inp rest hbusy hi hnext
  rw [step_of_input hi hnext, moveOffered_of_busy inp hbusy]
  constructor
  · rintro (⟨i, v, rfl⟩ | ⟨i, v, rfl⟩ | ⟨i, v, rfl⟩ | ⟨i, v, rfl⟩ | ⟨i, v, rfl⟩ | ⟨b, i, rfl⟩ | ⟨w, rfl⟩) <;> rfl
  · rintro (⟨i, rfl⟩ | rfl | rfl) <;> rfl

end Sys2Proof.Machine

namespace Sys2Proof.Machine

/-! Errors (60_exceptions): what an error entry leaves, which command words a standing error blocks, the checks one by one, the
lowest invalid value; and the statements of family 60_exceptions. -/

section

variable {s t : State} {w : Word}

/-! ### The error entry (60_exceptions R246, R248) -/

@[simp] theorem raiseError_irq (e : ErrorKind) (info : Word) (s : State) : (raiseError e info s).irq = true := rfl

theorem read_ybuf_deviceError (s : State) (r : Nat) :
    Memory.read (deviceError s).ybuf r = if r < s.rows.toNat then none else Memory.read s.ybuf r := by
  rw [deviceError_ybuf, Memory.read_dropBelow, ← ite_not]
  simp only [Nat.not_le]

/-! ### The command port (44_host_commands R214, 60_exceptions R245, R250) -/

theorem runCommand_of_illegal (h : ∃ e, decode w = .error e) (s : State) : runCommand w s = .next (illegalCommand w s) := by
  obtain ⟨e, he⟩ := h
  rw [runCommand, he]

theorem runCommand_of_busy (hb : s.status.busy = true) (w : Word) : runCommand w s = .next s := by
  cases h : decode w with
  | ok i => rw [runCommand_of_decode h, exec_of_busy i hb]
  | error e => rw [runCommand_of_illegal ⟨e, h⟩, illegalCommand, if_pos hb]

/-- A standing error blocks every word but that of CLRST. -/
theorem runCommand_of_err (he : s.status.err = true) (hw : w ≠ encode .clrst) : runCommand w s = .next s := by
  cases h : decode w with
  | ok i =>
    have hi : i ≠ .clrst := fun hi => hw (hi ▸ decode_eq_ok.1 h)
    rw [runCommand_of_decode h, exec_of_err he hi]
  | error e => rw [runCommand_of_illegal ⟨e, h⟩, illegalCommand, if_pos he, ite_self]

/-- An accepted operation does not see DONE, which its acceptance clears. -/
theorem acceptOperation_dropDone (hb : s.status.busy = false) (he : s.status.err = false)
    (op : State → Host.Outcome State Fault Refusal) :
    acceptOperation op s = acceptOperation op { s with status := s.status.dropDone } := by
  rw [acceptOperation_of_idle hb he, acceptOperation_of_idle (s := { s with status := s.status.dropDone }) hb he]
  rfl

/-! ### What a standing error lets through (60_exceptions R249, R250) -/

theorem runInput_of_err {inp : Input} (he : s.status.err = true) (h : runInput inp s = .next t) :
    (t.status = s.status ∧ t.einfo = s.einfo) ∨ inp = .reset ∨ inp = .command (encode .clrst) := by
  cases runInput_inputEnd h with
  | port inbox readData => exact .inl ⟨rfl, rfl⟩
  | register hidle i v hi => exact .inl ⟨writeCR_status _ _ _, writeCR_einfo _ _ _⟩
  | stored => exact .inl ⟨rfl, rfl⟩
  | reset => exact .inr (.inl rfl)
  | command w hend =>
    by_cases hw : w = encode .clrst
    · exact .inr (.inr (congrArg _ hw))
    · obtain rfl := Host.Outcome.next.inj ((runCommand_of_err he hw).symm.trans h)
      exact .inl ⟨rfl, rfl⟩

theorem StatusInv.idle_of_err (h : StatusInv s) (he : s.status.err = true) : s.status.busy = false :=
  Bool.eq_false_of_not_eq_true fun hb => Bool.false_ne_true ((h.busyNotErr hb).symm.trans he)

theorem eq_input_of_no_run {m : Move} (h : moveEnabled s m = true) (hrun : s.engine = none) : m = .input := by
  cases m <;> simp [moveEnabled, hrun] at h ⊢

/-! ### The checks, first failure first (60_exceptions R242) -/

theorem packCheck_eq (s : State) :
    packCheck s =
      if s.width.toNat < 2 ∨ 32 < s.width.toNat then some 1
      else if s.cfg.tcap < s.count.toNat then some 2
      else if s.cfg.wcap < divCeil s.count.toNat (s.width.toNat / 2) then some 4
      else none := by
  simp only [packCheck, firstFailed, widthBad_eq_true, decide_eq_true_eq]
  rfl

theorem unpackCheck_eq (s : State) :
    unpackCheck s =
      if s.width.toNat < 2 ∨ 32 < s.width.toNat then some 1
      else if s.wlen.toNat < divCeil s.count.toNat (s.width.toNat / 2) ∨ s.cfg.wcap < s.wlen.toNat then some 2
      else if s.cfg.tcap < s.count.toNat then some 4
      else none := by
  simp only [unpackCheck, firstFailed, widthBad_eq_true, Bool.or_eq_true, decide_eq_true_eq]
  rfl

theorem packmCheck_eq (s : State) :
    packmCheck s =
      if s.width.toNat < 2 ∨ 32 < s.width.toNat then some 1
      else if s.cfg.tcap < s.rows.toNat * s.cols.toNat then some 2
      else if s.cfg.wcap < s.rows.toNat * divCeil s.cols.toNat (s.width.toNat / 2) then some 4
      else none := by
  simp only [packmCheck, firstFailed, widthBad_eq_true, decide_eq_true_eq]
  rfl

theorem runmvCheck_eq (s : State) :
    runmvCheck s =
      if s.width.toNat < 2 ∨ 32 < s.width.toNat then some 1
      else if s.wlen.toNat ≠ s.rows.toNat * divCeil s.cols.toNat (s.width.toNat / 2) ∨ s.cfg.wcap < s.wlen.toNat then some 2
      else if s.xlen.toNat ≠ s.cols.toNat ∨ s.cfg.xcap < s.xlen.toNat then some 3
      else if s.cfg.ycap < s.rows.toNat then some 4
      else none := by
  simp only [runmvCheck, firstFailed, widthBad_eq_true, Bool.or_eq_true, decide_eq_true_eq]
  rfl

/-! ### An accepted operation with a failed check (60_exceptions R242, R248) -/

section

variable {n : Nat} (hb : s.status.busy = false) (he : s.status.err = false)

include hb he

theorem acceptOperation_of_mismatch {op : State → Host.Outcome State Fault Refusal}
    (hop : op { s with status := s.status.dropDone } = .next (dimensionMismatch n { s with status := s.status.dropDone })) :
    acceptOperation op s = .next (errorState 2 (BitVec.ofNat 32 n) s) :=
  (acceptOperation_of_idle hb he).trans hop

theorem exec_pack_of_failed (hc : packCheck s = some n) : exec .pack s = .next (errorState 2 (BitVec.ofNat 32 n) s) := by
  have hc : packCheck { s with status := s.status.dropDone } = some n := hc
  exact acceptOperation_of_mismatch hb he (by rw [runPack, hc])

theorem exec_unpack_of_failed (hc : unpackCheck s = some n) : exec .unpack s = .next (errorState 2 (BitVec.ofNat 32 n) s) := by
  have hc : unpackCheck { s with status := s.status.dropDone } = some n := hc
  exact acceptOperation_of_mismatch hb he (by rw [runUnpack, hc])

theorem exec_packm_of_failed (hc : packmCheck s = some n) : exec .packm s = .next (errorState 2 (BitVec.ofNat 32 n) s) := by
  have hc : packmCheck { s with status := s.status.dropDone } = some n := hc
  exact acceptOperation_of_mismatch hb he (by rw [runPackm, hc])

theorem exec_runmv_of_failed (hc : runmvCheck s = some n) : exec .runmv s = .next (errorState 2 (BitVec.ofNat 32 n) s) := by
  have hc : runmvCheck { s with status := s.status.dropDone } = some n := hc
  exact acceptOperation_of_mismatch hb he (by rw [runRunmv, hc])

end

/-! ### The lowest invalid value (60_exceptions R241, 40_codec R114) -/

theorem indexInfo_of_lt {i : Nat} (h : i < 2 ^ 32) : indexInfo i = BitVec.ofNat 32 i := if_pos h

theorem isTernary_rawToInt_eq_false {b : Byte} (h : ¬rawOk b) : isTernary (rawToInt b) = false :=
  Bool.eq_false_of_not_eq_true (mt (isTernary_rawToInt b).1 h)

/-- PACK and PACKM on raw values of which element `i` is the lowest that is not ternary: nothing is stored. -/
theorem packValues_of_not_rawOk {n i : Nat} {b : Byte} (hi : i < n) (hget : Memory.read s.tbuf i = some b) (hbad : ¬rawOk b)
    (hlow : ∀ i', i' < i → ∃ b', Memory.read s.tbuf i' = some b' ∧ rawOk b')
    (hfilled : ∀ i', i' < n → (Memory.read s.tbuf i').isSome = true) (toWords : List Int → List Word) :
    packValues n toWords { s with status := s.status.dropDone } = .next (errorState 1 (indexInfo i) s) := by
  obtain ⟨raw, hraw, -, hread⟩ := readSpan_zero_of_forall (.buffer .tbuf) fun i' hi' =>
    Option.isSome_iff_exists.1 (hfilled i' hi')
  have hvalue {i' : Nat} (hi' : i' < n) : (raw.map rawToInt)[i']? = (Memory.read s.tbuf i').map rawToInt := by
    rw [List.getElem?_map, hread i' hi']
  have hinvalid : firstInvalid (raw.map rawToInt) = some i := by
    refine firstInvalid_eq_some.2 ⟨⟨rawToInt b, by rw [hvalue hi, hget]; rfl, isTernary_rawToInt_eq_false hbad⟩,
      fun i' x hlt hx => ?_⟩
    obtain ⟨b', hget', hok⟩ := hlow i' hlt
    rw [hvalue (hlt.trans hi), hget'] at hx
    obtain rfl := Option.some.inj hx
    exact (isTernary_rawToInt b').2 hok
  exact packValues_of_invalid (s := { s with status := s.status.dropDone }) hraw hinvalid

end

/-! ### The statements -/

/-- Settles O5: the word's decoding says which branch of the command port it takes, and STATUS says whether it acts. -/
theorem commandAcceptance : Obligations.CommandAcceptance := by
  unfold Obligations.CommandAcceptance
  refine fun s w => ⟨fun hb => runCommand_of_busy hb w, fun hb => ⟨fun hillegal => ?_, ?_, ?_, fun i hi hw => ?_⟩⟩
  · rw [runCommand_of_illegal (decode_eq_error.2 hillegal), illegalCommand, hb]
    cases s.status.err <;> rfl
  · rintro rfl
    exact runCommand_of_decode (decode_encode .nop) s
  · rintro rfl
    rw [← Status.clear_of_idle hb]
    exact (runCommand_of_decode (decode_encode .clrst) s).trans (exec_clrst_of_idle hb)
  · subst hw
    refine ⟨fun he => runCommand_of_err he ?_, fun he => ⟨runCommand_of_decode (decode_encode i) s, ?_⟩⟩
    · revert i; decide
    · simp only [List.mem_cons, List.not_mem_nil, or_false] at hi
      rcases hi with rfl | rfl | rfl | rfl <;> exact acceptOperation_dropDone hb he _

/-- Settles O8: an accepted operation whose checks fail raises the number of the first failed one. -/
theorem dimensionChecksInOrder : Obligations.DimensionChecksInOrder := by
  unfold Obligations.DimensionChecksInOrder
  intro s hb he W K n R C wlen xlen widthOk fails
  refine ⟨fun hw => ?_, fun ⟨hW2, hW⟩ => ?_⟩
  · have hw : W < 2 ∨ 32 < W := by omega
    exact ⟨exec_pack_of_failed hb he ((packCheck_eq s).trans (if_pos hw)),
      exec_unpack_of_failed hb he ((unpackCheck_eq s).trans (if_pos hw)),
      exec_packm_of_failed hb he ((packmCheck_eq s).trans (if_pos hw)),
      exec_runmv_of_failed hb he ((runmvCheck_eq s).trans (if_pos hw))⟩
  have hw : ¬(W < 2 ∨ 32 < W) := by omega
  have hpack := (packCheck_eq s).trans (if_neg hw)
  have hunpack := (unpackCheck_eq s).trans (if_neg hw)
  have hpackm := (packmCheck_eq s).trans (if_neg hw)
  have hrunmv := (runmvCheck_eq s).trans (if_neg hw)
  refine ⟨fun h => ?_, fun htcap h => ?_, fun h => ?_, fun hwlen hwcap h => ?_, fun h => ?_, fun htcap h => ?_, fun h => ?_,
    fun hwlen hwcap h => ?_, fun hwlen hwcap hxlen hxcap h => ?_⟩
  · exact exec_pack_of_failed hb he (hpack.trans (if_pos h))
  · exact exec_pack_of_failed hb he (hpack.trans ((if_neg (Nat.not_lt.2 htcap)).trans (if_pos h)))
  · exact exec_unpack_of_failed hb he (hunpack.trans (if_pos h))
  · have hwords := not_or.2 ⟨Nat.not_lt.2 hwlen, Nat.not_lt.2 hwcap⟩
    exact exec_unpack_of_failed hb he (hunpack.trans ((if_neg hwords).trans (if_pos h)))
  · exact exec_packm_of_failed hb he (hpackm.trans (if_pos h))
  · exact exec_packm_of_failed hb he (hpackm.trans ((if_neg (Nat.not_lt.2 htcap)).trans (if_pos h)))
  · exact exec_runmv_of_failed hb he (hrunmv.trans (if_pos h))
  · have hwords := not_or.2 ⟨not_not.2 hwlen, Nat.not_lt.2 hwcap⟩
    exact exec_runmv_of_failed hb he (hrunmv.trans ((if_neg hwords).trans (if_pos h)))
  · have hwords := not_or.2 ⟨not_not.2 hwlen, Nat.not_lt.2 hwcap⟩
    have hinputs := not_or.2 ⟨not_not.2 hxlen, Nat.not_lt.2 hxcap⟩
    exact exec_runmv_of_failed hb he (hrunmv.trans ((if_neg hwords).trans ((if_neg hinputs).trans (if_pos h))))

/-- Settles O12: the whole input is read and looked through before any word is stored. -/
theorem invalidValueStoresNothing : Obligations.InvalidValueStoresNothing := by
  unfold Obligations.InvalidValueStoresNothing
  intro s i b hb he W K n R C hW2 hW hget hbad hlow
  refine ⟨fun hi htcap hwcap hfilled => ?_, fun hi htcap hwcap hfilled => ⟨indexInfo i, ?_, indexInfo_of_lt⟩⟩
  · rw [exec_pack_of_check hb he (packCheck_eq_none.2 ⟨⟨hW2, hW⟩, htcap, hwcap⟩),
      packValues_of_not_rawOk hi hget hbad hlow hfilled, indexInfo_of_lt (hi.trans s.count.isLt)]
  · rw [exec_packm_of_check hb he (packmCheck_eq_none.2 ⟨⟨hW2, hW⟩, htcap, hwcap⟩)]
    exact packValues_of_not_rawOk hi hget hbad hlow hfilled _

/-- Settles O49: with an error there is no dispatch, so the host moves, and only CLRST and the reset event change STATUS. -/
theorem errorIsStickyUntilClrstOrReset : Obligations.ErrorIsStickyUntilClrstOrReset := by
  unfold Obligations.ErrorIsStickyUntilClrstOrReset
  intro s t hinv ht herr
  rcases step_next ht with ⟨-, rfl⟩ | ⟨m, hm, hen, ht⟩
  · exact .inl ⟨rfl, rfl⟩
  obtain rfl := eq_input_of_no_run hen (hinv.no_run (hinv.idle_of_err herr))
  rcases takeInput_next ht with ⟨-, rfl⟩ | ⟨inp, rest, hbox, -, ht⟩
  · exact .inl ⟨rfl, rfl⟩
  · rcases runInput_of_err (s := { drawNext s with inbox := rest }) herr ht with hkeep | rfl | rfl
    · exact .inl hkeep
    · exact .inr ⟨hm, rest, .inl hbox⟩
    · exact .inr ⟨hm, rest, .inr hbox⟩

/-- Settles O26: the entry is one record update, and DeviceError's YBUF is the memory with its lower elements dropped. -/
theorem errorEntryWritesStatusOnly : Obligations.ErrorEntryWritesStatusOnly := by
  unfold Obligations.ErrorEntryWritesStatusOnly
  exact fun e info s =>
    ⟨rfl, raiseError_irq e info s, rfl, rfl, rfl, rfl, rfl, read_ybuf_deviceError s⟩

/-- Settles O27: each end of an operation sets DONE or ERR; CLRST clears both, and an acceptance DONE. -/
theorem irqFollowsStatus : Obligations.IrqFollowsStatus := by
  unfold Obligations.IrqFollowsStatus
  exact fun s => ⟨rfl, rfl, rfl, fun e info => raiseError_irq e info s, rfl, fun herr => herr⟩

end Sys2Proof.Machine

namespace Sys2Proof.Machine

/-! ### The reset event (70_reset_and_hazards R270) -/

/-- The reset event is taken in every state, BUSY or not. -/
theorem runInput_reset (s : State) : runInput .reset s = .next (resetEvent s) := rfl

/-- Settles O25: the event is taken in every state, and of that state it keeps only the parameters and the model's own fields. -/
theorem resetEventRestoresReset : Obligations.ResetEventRestoresReset := by
  unfold Obligations.ResetEventRestoresReset
  intro s
  exact ⟨resetEvent s, runInput_reset s, rfl⟩

end Sys2Proof.Machine
